-- ==== Sys2Proof/Word.lean ====
section
/-! DEFINITION. The byte and the register address of the controller (00_scope.md R9, 20_memory.md R61). -/
namespace Sys2Proof

/-- Every datum on the register port is an unsigned byte (R9, R225). -/
abbrev Byte := BitVec 8

/-- A register address is a 6-bit number, 0..0x3F (R61). -/
abbrev RegAddr := BitVec 6

end Sys2Proof
end

