-- ==== Sys2Proof/Config.lean ====
section
/-! DEFINITION. The configuration record of 00_scope.md R7 (named parameters, decisions D2 to D5, D24) and the free values of the
model: what the environment answers and what the host's clock says (60_exceptions.md R256). -/
namespace Sys2Proof

/-- One entry of BOOT_CONFIG (R268): a register write or a set-bits the host performs after RSTP. -/
inductive BootAction where
  | write (addr : RegAddr) (value : Byte)
  | set (addr : RegAddr) (mask : Byte)
deriving DecidableEq, Repr

/-- The register an entry of BOOT_CONFIG is for. -/
def BootAction.addr : BootAction → RegAddr
  | .write a _ => a
  | .set a _ => a

/-- The parameters R7 names without a number, and BOOT_CONFIG (R268). Fixed before the first request (R281). -/
structure Config where
  aCommand : RegAddr
  aComIEn : RegAddr
  aComIrq : RegAddr
  aDivIrq : RegAddr
  aError : RegAddr
  aStatus2 : RegAddr
  aFifoData : RegAddr
  aFifoLevel : RegAddr
  aControl : RegAddr
  aBitFraming : RegAddr
  aCrcResultH : RegAddr
  aCrcResultL : RegAddr
  cmdIdle : Byte
  cmdCalcCrc : Byte
  cmdTransceive : Byte
  cmdAuthent : Byte
  mIrqInv : Byte
  mIrqClr : Byte
  mFlush : Byte
  mStartSend : Byte
  mCrcDone : Byte
  mCrypto1On : Byte
  framingShort : Byte
  framingByte : Byte
  kRequest : Byte
  kAnticoll : Byte
  kCascade : Byte
  kSelect : Byte
  kAuthA : Byte
  kAuthB : Byte
  kRead : Byte
  kWrite : Byte
  bootConfig : List BootAction
deriving DecidableEq, Repr

namespace Config

/-- The defaults of R7 and the boot list of R268. PRESUMED (general knowledge in the spec; log 3, unsafe for claims that name them). -/
def default : Config where
  aCommand := 0x01#6
  aComIEn := 0x02#6
  aComIrq := 0x04#6
  aDivIrq := 0x05#6
  aError := 0x06#6
  aStatus2 := 0x08#6
  aFifoData := 0x09#6
  aFifoLevel := 0x0A#6
  aControl := 0x0C#6
  aBitFraming := 0x0D#6
  aCrcResultH := 0x21#6
  aCrcResultL := 0x22#6
  cmdIdle := 0x00#8
  cmdCalcCrc := 0x03#8
  cmdTransceive := 0x0C#8
  cmdAuthent := 0x0E#8
  mIrqInv := 0x80#8
  mIrqClr := 0x80#8
  mFlush := 0x80#8
  mStartSend := 0x80#8
  mCrcDone := 0x04#8
  mCrypto1On := 0x08#8
  framingShort := 0x07#8
  framingByte := 0x00#8
  kRequest := 0x26#8
  kAnticoll := 0x93#8
  kCascade := 0x20#8
  kSelect := 0x93#8
  kAuthA := 0x60#8
  kAuthB := 0x61#8
  kRead := 0x30#8
  kWrite := 0xA0#8
  bootConfig :=
    [.write 0x2A#6 0x8D#8, .write 0x2B#6 0x3E#8, .write 0x2D#6 0x1E#8, .write 0x2C#6 0x00#8,
     .write 0x15#6 0x40#8, .write 0x11#6 0x3D#8, .set 0x14#6 0x03#8]

/-- The twelve register addresses the operations of the core use (R61). -/
def addresses (c : Config) : List RegAddr :=
  [c.aCommand, c.aComIEn, c.aComIrq, c.aDivIrq, c.aError, c.aStatus2, c.aFifoData, c.aFifoLevel,
   c.aControl, c.aBitFraming, c.aCrcResultH, c.aCrcResultL]

/-- The four chip command codes (R92). -/
def commands (c : Config) : List Byte := [c.cmdIdle, c.cmdCalcCrc, c.cmdTransceive, c.cmdAuthent]

/-- Addresses pairwise distinct (R61) and chip command codes pairwise distinct (R92); anything else is refused (R260). -/
def valid (c : Config) : Bool := decide c.addresses.Nodup && decide c.commands.Nodup

/-- FREE VALUE. The `n`-th byte the environment answers when no script and no reference environment supplies it: any value,
under no law (R62, R256, U1). Log 1. -/
opaque freeAnswer : Nat → Byte

/-- FREE VALUE. The `n`-th answer of `Draw(deadlineElapsed)` when the script gives none (R164, R256). Log 2. -/
opaque freeDeadline : Nat → Bool

/-! FREE VALUES of the chip and the card beyond the port (log 29, log 30). Each is applied to the number of events on the port before the
write transaction that needs it, so that no two are the same value twice. -/

/-- FREE VALUE. The result the CRC co-processor shows when BOOT_CONFIG does not stand in the chip (R210, U8, U9). -/
opaque freeCrc : Nat → BitVec 16

/-- FREE VALUE. The interrupt flags that appear after an exchange without an answer when BOOT_CONFIG does not stand in the chip: whether the
chip's timer runs is then open (R80 ENV-IRQ, R249 b, U9). -/
opaque freeFlags : Nat → List Byte

/-- FREE VALUE. Whether a card hears the chip when BOOT_CONFIG does not stand in it: the antenna driver may be off (R268). -/
opaque freeHears : Nat → Bool

/-- FREE VALUE. Byte `k` of the block of a WRITE whose data frame was not accepted (R192, R278, U13). -/
opaque freeBlockByte (n k : Nat) : Byte

end Config
end Sys2Proof
end

