-- ==== Sys2Proof/Syntax.lean ====
section
/-! DEFINITION. The operations of 30_encoding.md R91, R92 and R94 as one inductive, one constructor per row of
spec/opcode_table.json, the values exchanged with the host (10_state.md R43), and the requests that carry an operation. -/
namespace Sys2Proof

/-- The cascade-level byte of the ANTICOLLISION frame: one value, `K_CASCADE` (R98). -/
inductive CascadeLevel where
  | one
deriving DecidableEq, Repr

/-- An operation. Operands are the raw bytes of the request; their ranges are checked apart (20_memory.md R76). -/
inductive Instr where
  -- format H, register port (40_register_port.md)
  | rdreg (addr : Byte)
  | wrreg (addr value : Byte)
  | setb (addr mask : Byte)
  | clrb (addr mask : Byte)
  | rstp
  -- format H, transceiver (41_transceiver.md)
  | xcv (cmd : Byte) (out : List Byte)
  | authcmd (out : List Byte)
  -- format H, anti-collision (42_anticollision.md)
  | reqp
  | acoll
  | uidchk (raw : List Byte)
  | poll
  -- format H, authentication (43_authentication.md)
  | select (id : List Byte)
  | auth (id : List Byte) (slot blockAddr : Byte) (key : List Byte)
  | stopc
  | authsec (id : List Byte) (slot blockAddr : Byte) (key : List Byte)
  -- format H, block input and output (44_block_io.md)
  | rdblk (blockAddr : Byte)
  | wrblk (blockAddr : Byte) (data : List Byte)
  | rdsec (id : List Byte) (slot base : Byte) (key : List Byte)
  -- format H, CRC (45_crc16.md)
  | crc (bytes : List Byte)
  -- format H, access bits (46_access_bits.md)
  | acenc (c0 c1 c2 c3 user : Byte)
  | acdec (b0 b1 b2 b3 : Byte)
  | acsetb (c0 c1 c2 c3 user block bitIndex value : Byte)
  | acchk (b0 b1 b2 b3 : Byte)
  | trpack (keyA : List Byte) (c0 c1 c2 c3 user : Byte) (keyB : List Byte)
  | trunpk (bytes : List Byte)
  -- format P, chip commands (R92)
  | idle
  | calccrc
  | transceive
  | authent
  -- format K, card frames (R97 to R102)
  | request
  | anticollision (level : CascadeLevel)
  | selectCard (id : List Byte)
  | authA (blockAddr : Byte) (key uid : List Byte)
  | authB (blockAddr : Byte) (key uid : List Byte)
  | read (blockAddr : Byte)
  | write (blockAddr : Byte)
deriving DecidableEq, Repr

/-- The three formats an operation of the table is encoded in (R90): host request, chip command byte, card frame. -/
inductive Format where
  | host
  | chip
  | card
deriving DecidableEq, Repr

/-- The format of an operation (R91, R92, R94). -/
def Instr.format : Instr → Format
  | .rdreg _ | .wrreg _ _ | .setb _ _ | .clrb _ _ | .rstp | .xcv _ _ | .authcmd _ | .reqp | .acoll | .uidchk _ | .poll
  | .select _ | .auth _ _ _ _ | .stopc | .authsec _ _ _ _ | .rdblk _ | .wrblk _ _ | .rdsec _ _ _ _ | .crc _
  | .acenc _ _ _ _ _ | .acdec _ _ _ _ | .acsetb _ _ _ _ _ _ _ _ | .acchk _ _ _ _ | .trpack _ _ _ _ _ _ _
  | .trunpk _ => .host
  | .idle | .calccrc | .transceive | .authent => .chip
  | .request | .anticollision _ | .selectCard _ | .authA _ _ _ | .authB _ _ _ | .read _ | .write _ => .card

/-- A request presented to the controller: its format, its bytes, and whether its presenter waits for the result of the running
operation first, as the host must (60_exceptions.md R257). DESIGN CHOICE (log 10, log 11; safe). -/
structure Request where
  fmt : Format
  waits : Bool
  bytes : List Byte
deriving DecidableEq, Repr

/-- Why a request is refused (60_exceptions.md R260). The names are the model's own (DESIGN CHOICE, log 9; safe). -/
inductive RefuseCause where
  | unknownOp | badLength | badAddress | tooLong | badKey | badData | badIdentifier | badChecksum | badSlot | badCode
  | badBlock | badBitIndex | badValue | badBase | busy | badConfig
deriving DecidableEq, Repr

/-- Why the construction of a `CardIdentifier` fails (42_anticollision.md R163). -/
inductive IdFailure where
  | badLength
  | checksumMismatch
deriving DecidableEq, Repr

/-- Key slot tag (R116). -/
inductive Slot where
  | a
  | b
deriving DecidableEq, Repr

/-- `AuthKey` (R43): six bytes and a slot tag. -/
structure AuthKey where
  slot : Slot
  bytes : List Byte
deriving DecidableEq, Repr

/-- `AccessWord` (R43): four 3-bit codes, one per data block 0..2 and one for the trailer, and a free user byte. -/
structure AccessWord where
  c0 : BitVec 3
  c1 : BitVec 3
  c2 : BitVec 3
  c3 : BitVec 3
  user : Byte
deriving DecidableEq, Repr

/-- `SectorTrailer` (R43, R113). -/
structure SectorTrailer where
  keyA : AuthKey
  access : AccessWord
  keyB : AuthKey
deriving DecidableEq, Repr

end Sys2Proof
end

