-- ==== Sys2Proof/Machine/Check.lean ====
section
/-! DEFINITION. The tests a request passes before it runs: the identifier checksum (42_anticollision.md R163) and the operand ranges
(20_memory.md R76, 60_exceptions.md R260). -/
namespace Sys2Proof.Machine

/-- Exclusive or of all bytes, 0 for none (R10). -/
def xorAll : List Byte → Byte
  | [] => 0#8
  | b :: bs => b ^^^ xorAll bs

/-- The last byte is the exclusive or of the bytes before it (R163). -/
def checksumOk (b : List Byte) : Bool := b.getLast? == some (xorAll b.dropLast)

/-- The test of UIDCHK (R163): length 5 or 8, then the checksum. -/
def identifierFailure (b : List Byte) : Option IdFailure :=
  if b.length ≠ 5 ∧ b.length ≠ 8 then some .badLength
  else if checksumOk b then none
  else some .checksumMismatch

/-- `TX_MAX` (R8): most bytes an operation may load into the FIFO. -/
def txMax : Nat := 64

/-- The test on an identifier operand of SELECT, AUTH, AUTHSEC and RDSEC: 5 bytes with a valid checksum (R76, R241). -/
def refuseIdentifier (id : List Byte) : Option RefuseCause :=
  if id.length ≠ 5 then some .badIdentifier
  else if checksumOk id then none
  else some .badChecksum

/-- A register address is at most 0x3F (R61). -/
def refuseAddress (addr : Byte) : Option RefuseCause := if addr.toNat ≤ 0x3F then none else some .badAddress

/-- A byte sequence to load has at most `TX_MAX` bytes (R75). -/
def refuseLong (bytes : List Byte) : Option RefuseCause := if bytes.length ≤ txMax then none else some .tooLong

/-- A key has exactly 6 bytes (R76). -/
def refuseKey (key : List Byte) : Option RefuseCause := if key.length = 6 then none else some .badKey

/-- A block has exactly 16 bytes (R76). -/
def refuseBlock (data : List Byte) : Option RefuseCause := if data.length = 16 then none else some .badData

/-- A slot byte is 0 for A or 1 for B (R116). -/
def refuseSlot (slot : Byte) : Option RefuseCause := if slot.toNat ≤ 1 then none else some .badSlot

/-- The four UID bytes of an AUTHENT frame (R100). -/
def refuseUid (uid : List Byte) : Option RefuseCause := if uid.length = 4 then none else some .badIdentifier

/-- An access code is in 0..7 (R76). -/
def refuseCodes (c0 c1 c2 c3 : Byte) : Option RefuseCause :=
  if c0.toNat ≤ 7 ∧ c1.toNat ≤ 7 ∧ c2.toNat ≤ 7 ∧ c3.toNat ≤ 7 then none else some .badCode

/-- `base + 3` is a block address (R194). -/
def refuseBase (base : Byte) : Option RefuseCause := if base.toNat + 3 ≤ 255 then none else some .badBase

/-- Why an operation's operands are refused, if they are (R76, R115, R260). The order of the tests decides only which cause is
told (DESIGN CHOICE, log 9; safe). A UIDCHK operand has no range but that its length fits the length byte (R91; log 22). -/
def refusal : Instr → Option RefuseCause
  | .rdreg addr => refuseAddress addr
  | .wrreg addr _ => refuseAddress addr
  | .setb addr _ => refuseAddress addr
  | .clrb addr _ => refuseAddress addr
  | .rstp => none
  | .xcv _ out => refuseLong out
  | .authcmd out => refuseLong out
  | .reqp => none
  | .acoll => none
  | .uidchk raw => if raw.length ≤ 255 then none else some .badLength
  | .poll => none
  | .select id => refuseIdentifier id
  | .auth id slot _ key => refuseIdentifier id <|> refuseSlot slot <|> refuseKey key
  | .stopc => none
  | .authsec id slot _ key => refuseIdentifier id <|> refuseSlot slot <|> refuseKey key
  | .rdblk _ => none
  | .wrblk _ data => refuseBlock data
  | .rdsec id slot base key => refuseIdentifier id <|> refuseSlot slot <|> refuseBase base <|> refuseKey key
  | .crc bytes => refuseLong bytes
  | .acenc c0 c1 c2 c3 _ => refuseCodes c0 c1 c2 c3
  | .acdec _ _ _ _ => none
  | .acsetb c0 c1 c2 c3 _ block bitIndex value =>
      refuseCodes c0 c1 c2 c3
      <|> (if block.toNat ≤ 3 then none else some .badBlock)
      <|> (if 1 ≤ bitIndex.toNat ∧ bitIndex.toNat ≤ 3 then none else some .badBitIndex)
      <|> (if value.toNat ≤ 1 then none else some .badValue)
  | .acchk _ _ _ _ => none
  | .trpack keyA c0 c1 c2 c3 _ keyB => refuseKey keyA <|> refuseCodes c0 c1 c2 c3 <|> refuseKey keyB
  | .trunpk bytes => refuseBlock bytes
  | .idle => none
  | .calccrc => none
  | .transceive => none
  | .authent => none
  | .request => none
  | .anticollision _ => none
  | .selectCard id => refuseIdentifier id
  | .authA _ key uid => refuseKey key <|> refuseUid uid
  | .authB _ key uid => refuseKey key <|> refuseUid uid
  | .read _ => none
  | .write _ => none

end Sys2Proof.Machine
end

