-- ==== Sys2Proof/WellFormed.lean ====
section
/-! DEFINITION. Well-formed operations: those whose operands are in the ranges of 20_memory.md R76. -/
namespace Sys2Proof

/-- No operand is outside its range (R76, R260). -/
abbrev Instr.WellFormed (i : Instr) : Prop := Machine.refusal i = none

end Sys2Proof
end

