-- ==== Sys2Proof/Decode.lean ====
section
/-! DEFINITION. Decoding of requests (30_encoding.md R91, R92, R97 to R102, R115), total on any bytes, and the encoder. -/
namespace Sys2Proof

/-- What decoding answers: an operation, or why the bytes are none. -/
abbrev Decoded := Except RefuseCause Instr

/-- Operand bytes of a format H operation with no operand. -/
def decodeNone (i : Instr) : List Byte → Decoded
  | [] => .ok i
  | _ => .error .badLength

/-- One length byte, then that many bytes (R91). -/
def decodeCounted (f : List Byte → Instr) : List Byte → Decoded
  | len :: bytes => if bytes.length = len.toNat then .ok (f bytes) else .error .badLength
  | [] => .error .badLength

/-- Five identifier bytes, the slot byte, one byte, six key bytes (R91: AUTH, AUTHSEC, RDSEC). -/
def decodeHandshake (f : List Byte → Byte → Byte → List Byte → Instr) : List Byte → Decoded
  | i0 :: i1 :: i2 :: i3 :: i4 :: slot :: block :: key =>
    if key.length = 6 then .ok (f [i0, i1, i2, i3, i4] slot block key) else .error .badLength
  | _ => .error .badLength

/-- Format H (R91): the first byte selects the operation, the rest are its operands; the length must match. -/
def decodeHost : List Byte → Decoded
  | [] => .error .badLength
  | op :: rest =>
    match op.toNat with
    | 0x00 => match rest with | [addr] => .ok (.rdreg addr) | _ => .error .badLength
    | 0x01 => match rest with | [addr, value] => .ok (.wrreg addr value) | _ => .error .badLength
    | 0x02 => match rest with | [addr, mask] => .ok (.setb addr mask) | _ => .error .badLength
    | 0x03 => match rest with | [addr, mask] => .ok (.clrb addr mask) | _ => .error .badLength
    | 0x04 => decodeNone .rstp rest
    | 0x10 => match rest with | cmd :: more => decodeCounted (.xcv cmd) more | [] => .error .badLength
    | 0x11 => decodeCounted .authcmd rest
    | 0x20 => decodeNone .reqp rest
    | 0x21 => decodeNone .acoll rest
    | 0x22 => decodeCounted .uidchk rest
    | 0x23 => decodeNone .poll rest
    | 0x30 => if rest.length = 5 then .ok (.select rest) else .error .badLength
    | 0x31 => decodeHandshake .auth rest
    | 0x32 => decodeNone .stopc rest
    | 0x33 => decodeHandshake .authsec rest
    | 0x40 => match rest with | [block] => .ok (.rdblk block) | _ => .error .badLength
    | 0x41 =>
      match rest with
      | block :: data => if data.length = 16 then .ok (.wrblk block data) else .error .badLength
      | [] => .error .badLength
    | 0x42 => decodeHandshake .rdsec rest
    | 0x50 => decodeCounted .crc rest
    | 0x60 => match rest with | [c0, c1, c2, c3, user] => .ok (.acenc c0 c1 c2 c3 user) | _ => .error .badLength
    | 0x61 => match rest with | [b0, b1, b2, b3] => .ok (.acdec b0 b1 b2 b3) | _ => .error .badLength
    | 0x62 =>
      match rest with
      | [c0, c1, c2, c3, user, block, bitIndex, value] => .ok (.acsetb c0 c1 c2 c3 user block bitIndex value)
      | _ => .error .badLength
    | 0x63 => match rest with | [b0, b1, b2, b3] => .ok (.acchk b0 b1 b2 b3) | _ => .error .badLength
    | 0x64 =>
      match rest with
      | a0 :: a1 :: a2 :: a3 :: a4 :: a5 :: c0 :: c1 :: c2 :: c3 :: user :: keyB =>
        if keyB.length = 6 then .ok (.trpack [a0, a1, a2, a3, a4, a5] c0 c1 c2 c3 user keyB) else .error .badLength
      | _ => .error .badLength
    | 0x65 => if rest.length = 16 then .ok (.trunpk rest) else .error .badLength
    | _ => .error .unknownOp

/-- Format P (R92): one byte, one of the four chip command codes of the configuration. -/
def decodeChip (cfg : Config) : List Byte → Decoded
  | [code] =>
    if code = cfg.cmdIdle then .ok .idle
    else if code = cfg.cmdCalcCrc then .ok .calccrc
    else if code = cfg.cmdTransceive then .ok .transceive
    else if code = cfg.cmdAuthent then .ok .authent
    else .error .unknownOp
  | _ => .error .badLength

/-- The second byte of the SELECT frame, `K_SELECT_ARG` (R6, R99). -/
def kSelectArg : Byte := 0x70#8

/-- The byte of a cascade level (R98). -/
def cascadeByte (cfg : Config) : CascadeLevel → Byte
  | .one => cfg.kCascade

/-- Format K (R97 to R102): the bytes of a frame before its CRC suffix; the first byte is the card code. DESIGN CHOICE (log 12): ANTICOLLISION may
also be asked for by its code alone, as the table's row gives it, since the other byte of its frame is fixed (R98); and the codes need not be
distinct (R94): where some coincide REQUEST is read before ANTICOLLISION before READ before WRITE, and AUTH_A before AUTH_B. -/
def decodeCard (cfg : Config) : List Byte → Decoded
  | [] => .error .badLength
  | [code] =>
    if code = cfg.kRequest then .ok .request
    else if code = cfg.kAnticoll then .ok (.anticollision .one)
    else .error .unknownOp
  | [code, x] =>
    if code = cfg.kAnticoll ∧ x = cfg.kCascade then .ok (.anticollision .one)
    else if code = cfg.kRead then .ok (.read x)
    else if code = cfg.kWrite then .ok (.write x)
    else .error .unknownOp
  | code :: x :: rest =>
    if code = cfg.kSelect ∧ x = kSelectArg ∧ rest.length = 5 then .ok (.selectCard rest)
    else if code = cfg.kAuthA ∧ rest.length = 10 then .ok (.authA x (rest.take 6) (rest.drop 6))
    else if code = cfg.kAuthB ∧ rest.length = 10 then .ok (.authB x (rest.take 6) (rest.drop 6))
    else .error .unknownOp

/-- Decode the bytes of a request in the format it is tagged with. -/
def decode (cfg : Config) (fmt : Format) (bytes : List Byte) : Decoded :=
  match fmt with
  | .host => decodeHost bytes
  | .chip => decodeChip cfg bytes
  | .card => decodeCard cfg bytes

/-- A byte sequence preceded by its length byte (R91). -/
def counted (bytes : List Byte) : List Byte := BitVec.ofNat 8 bytes.length :: bytes

/-- The bytes of an operation (R91, R92, R97 to R102). -/
def encode (cfg : Config) : Instr → List Byte
  | .rdreg addr => [0x00#8, addr]
  | .wrreg addr value => [0x01#8, addr, value]
  | .setb addr mask => [0x02#8, addr, mask]
  | .clrb addr mask => [0x03#8, addr, mask]
  | .rstp => [0x04#8]
  | .xcv cmd out => 0x10#8 :: cmd :: counted out
  | .authcmd out => 0x11#8 :: counted out
  | .reqp => [0x20#8]
  | .acoll => [0x21#8]
  | .uidchk raw => 0x22#8 :: counted raw
  | .poll => [0x23#8]
  | .select id => 0x30#8 :: id
  | .auth id slot block key => 0x31#8 :: (id ++ slot :: block :: key)
  | .stopc => [0x32#8]
  | .authsec id slot block key => 0x33#8 :: (id ++ slot :: block :: key)
  | .rdblk block => [0x40#8, block]
  | .wrblk block data => 0x41#8 :: block :: data
  | .rdsec id slot base key => 0x42#8 :: (id ++ slot :: base :: key)
  | .crc bytes => 0x50#8 :: counted bytes
  | .acenc c0 c1 c2 c3 user => [0x60#8, c0, c1, c2, c3, user]
  | .acdec b0 b1 b2 b3 => [0x61#8, b0, b1, b2, b3]
  | .acsetb c0 c1 c2 c3 user block bitIndex value => [0x62#8, c0, c1, c2, c3, user, block, bitIndex, value]
  | .acchk b0 b1 b2 b3 => [0x63#8, b0, b1, b2, b3]
  | .trpack keyA c0 c1 c2 c3 user keyB => 0x64#8 :: (keyA ++ c0 :: c1 :: c2 :: c3 :: user :: keyB)
  | .trunpk bytes => 0x65#8 :: bytes
  | .idle => [cfg.cmdIdle]
  | .calccrc => [cfg.cmdCalcCrc]
  | .transceive => [cfg.cmdTransceive]
  | .authent => [cfg.cmdAuthent]
  | .request => [cfg.kRequest]
  | .anticollision level => [cfg.kAnticoll, cascadeByte cfg level]
  | .selectCard id => cfg.kSelect :: kSelectArg :: id
  | .authA block key uid => cfg.kAuthA :: block :: (key ++ uid)
  | .authB block key uid => cfg.kAuthB :: block :: (key ++ uid)
  | .read block => [cfg.kRead, block]
  | .write block => [cfg.kWrite, block]

/-- The `n` low bytes of `w`, the first byte the least significant, as spec/opcode_table.json numbers bits. -/
def bytesOf : Nat → Nat → List Byte
  | 0, _ => []
  | n + 1, w => BitVec.ofNat 8 w :: bytesOf n (w / 256)

/-- How many bytes the format H request at the head of a byte stream has (R91, R106: from `op` alone, or from its length byte). -/
def hostLength : List Byte → Nat
  | [] => 0
  | op :: rest =>
    match op.toNat with
    | 0x00 | 0x40 => 2
    | 0x01 | 0x02 | 0x03 => 3
    | 0x10 => 3 + ((rest.drop 1).head?.map BitVec.toNat).getD 0
    | 0x11 | 0x22 | 0x50 => 2 + (rest.head?.map BitVec.toNat).getD 0
    | 0x30 | 0x60 => 6
    | 0x31 | 0x33 | 0x42 => 14
    | 0x41 | 0x64 => 18
    | 0x61 | 0x63 => 5
    | 0x62 => 9
    | 0x65 => 17
    | _ => 1

/-- How many bytes the format K frame at the head of a byte stream has before its CRC suffix (R97 to R102). -/
def cardLength (cfg : Config) : List Byte → Nat
  | code :: x :: _ =>
    if code = cfg.kRequest then 1
    else if code = cfg.kSelect ∧ x = kSelectArg then 7
    else if code = cfg.kAuthA ∨ code = cfg.kAuthB then 12
    else if code = cfg.kAnticoll ∧ x ≠ cfg.kCascade then 1
    else 2
  | _ => 1

/-- The longest request in bytes: UIDCHK with a length byte of 255. -/
def longestRequest : Nat := 257

/-- The request a table word stands for: its `nbits` bits, every bit above them 0, read as a format H request if its first byte is
an `op` of R91, else as a chip command, else as a card frame (log 12: the table gives one byte to rows of three formats). -/
def tableRequest (cfg : Config) (nbits w : Nat) : Request :=
  let stream := bytesOf longestRequest (w % 2 ^ nbits)
  let host := stream.take (hostLength stream)
  let chip := stream.take 1
  match decodeHost host, decodeChip cfg chip with
  | .ok _, _ => ⟨.host, true, host⟩
  | .error _, .ok _ => ⟨.chip, true, chip⟩
  | .error _, .error _ => ⟨.card, true, stream.take (cardLength cfg stream)⟩

/-- The operation the decoder reads from a table word, under the default configuration. -/
def decodeTableWord (nbits w : Nat) : Option Instr :=
  let r := tableRequest Config.default nbits w
  if 8 * r.bytes.length < nbits then none
  else match decode Config.default r.fmt r.bytes with
    | .ok i => some i
    | .error _ => none

end Sys2Proof
end

