-- ==== Sys2Proof/Machine/Memory.lean ====
section
/-! DEFINITION. A byte memory as a list of (address, byte) cells in one canonical form: addresses strictly rising, and no cell that
holds what an unlisted address reads as. Used for the chip's register space (20_memory.md R61) and the card's blocks (R69). -/
namespace Sys2Proof.Machine

/-- A byte memory: the cells that differ from what an unlisted address reads as. -/
abbrev Memory := List Host.Cell

/-- The byte at an address; `rest` says what an unlisted address reads as. -/
def memoryRead (rest : Nat → Byte) : Memory → Nat → Byte
  | [], a => rest a
  | (b, w) :: m, a => if a = b then w else memoryRead rest m a

/-- Store a byte, keeping the canonical form. -/
def memoryWrite (rest : Nat → Byte) : Memory → Nat → Byte → Memory
  | [], a, v => if v = rest a then [] else [(a, v)]
  | (b, w) :: m, a, v =>
    if a < b then (if v = rest a then (b, w) :: m else (a, v) :: (b, w) :: m)
    else if a = b then (if v = rest a then m else (a, v) :: m)
    else (b, w) :: memoryWrite rest m a v

/-- Store consecutive bytes from an address upwards. -/
def memoryWriteAll (rest : Nat → Byte) (m : Memory) (a : Nat) : List Byte → Memory
  | [] => m
  | v :: vs => memoryWriteAll rest (memoryWrite rest m a v) (a + 1) vs

/-- The `n` bytes from an address upwards. -/
def memoryReadAll (rest : Nat → Byte) (m : Memory) (a : Nat) : Nat → List Byte
  | 0 => []
  | n + 1 => memoryRead rest m a :: memoryReadAll rest m (a + 1) n

/-- The canonical form. -/
abbrev Memory.wf (rest : Nat → Byte) (m : Memory) : Prop :=
  m.Pairwise (fun c d => c.1 < d.1) ∧ ∀ c ∈ m, c.2 ≠ rest c.1

/-- Every listed address is below a bound. -/
abbrev Memory.below (bound : Nat) (m : Memory) : Prop := ∀ c ∈ m, c.1 < bound

end Sys2Proof.Machine
end

