-- ==== Sys2Proof/Machine/State.lean ====
section
/-! DEFINITION. The state of the machine as plain data: the controller's registers, buffers and sequencer (10_state.md R20 to R25),
what stands behind the register port (the chip, R26 to R40, and the card, R42), the inputs the environment and the host supply
(60_exceptions.md R256, R257), and the state after reset (70_reset_and_hazards.md R265 to R267). -/
namespace Sys2Proof.Machine

/-- Status codes, the field `x[STATUS]` (R236). Code 3 is never produced and has no name (U25; log 23, safe). -/
inductive Status where
  | ok
  | noTag
  | error
deriving DecidableEq, Repr, Inhabited

/-- Cause tags, the field `x[CAUSE]` (R237), in the order of their codes 0 to 7. -/
inductive Cause where
  | none
  | timer
  | chipError
  | exhausted
  | checksumMismatch
  | notAuthenticated
  | lengthMismatch
  | ackMismatch
deriving DecidableEq, Repr, Inhabited

/-- The working registers of R21 but the two counts, which are the lengths of the buffers (log 21). -/
structure Regs where
  /-- `x[IRQEN]` -/
  irqen : Byte
  /-- `x[WAIT]` -/
  wait : Byte
  /-- `x[N]`: the last sample of a polled register -/
  n : Byte
  /-- `x[I]`: the budget counter -/
  i : BitVec 11
  /-- `x[STATUS]` -/
  status : Status
  /-- `x[CAUSE]` -/
  cause : Cause
  /-- `x[E]`: the error-register sample -/
  e : Byte
  /-- `x[LVL]`: the FIFO-level sample -/
  lvl : Byte
  /-- `x[LB]`: the partial-byte bit count -/
  lb : BitVec 3
  /-- `x[BITLEN]`, two's complement -/
  bitLen : BitVec 12
  /-- `x[CRCLO]` -/
  crcLo : Byte
  /-- `x[CRCHI]` -/
  crcHi : Byte
  /-- `x[CRCTO]` -/
  crcTo : Bool
  /-- `x[S2]`: the status-2 sample -/
  s2 : Byte
deriving DecidableEq, Repr, Inhabited

/-- A position of the sequencer, the pair `(op, step)` of R24: the operation, with its operands, and the label of its next action. The labels
are `T1` to `T6` of `transceive` (R140) and `C1` to `C6` of `computeCRC` (R205) by their numbers; an operation whose pseudocode writes no
label has the one label 1, and where it stands in it shows in what it has called. -/
structure Position where
  op : Instr
  step : Nat
deriving DecidableEq, Repr

/-- The sequencer `pc` (R24): `(IDLE, -)`, or a position with those of its callers, the innermost first: the stack a composite keeps. -/
inductive Pc where
  | idle
  | run (position : Position) (callers : List Position)
deriving DecidableEq, Repr

/-- Inside POLL with nothing called: where the sequencer stands between two attempts (R164; log 7). -/
def Pc.poll : Pc := .run ⟨.poll, 1⟩ []

/-- Begin an operation, from the idle sequencer or as a call of the operation in progress, which is put on the stack (R24). -/
def Pc.enter (op : Instr) : Pc → Pc
  | .idle => .run ⟨op, 1⟩ []
  | .run caller callers => .run ⟨op, 1⟩ (caller :: callers)

/-- Go on to another label of the operation in progress (R24). -/
def Pc.goto (step : Nat) : Pc → Pc
  | .idle => .idle
  | .run p callers => .run { p with step := step } callers

/-- The reset line's level (R44). -/
inductive Level where
  | low
  | high
deriving DecidableEq, Repr

/-- What crosses the controller's lower edge: the transactions `R(a)=v` and `W(a,v)` of R12, and the events of the reset line (R135). -/
inductive Event where
  | read (addr : RegAddr) (value : Byte)
  | write (addr : RegAddr) (value : Byte)
  | line (level : Level)
deriving DecidableEq, Repr

/-- The result an operation gives the host (R91, the column "result"), or none yet. -/
inductive Reply where
  /-- no operation has ended since reset -/
  | none
  /-- POLL has failed an attempt and goes on (R164) -/
  | pending
  /-- an operation without a result has ended -/
  | done
  | byte (value : Byte)
  /-- TransceiveResult (R43) -/
  | transceive (status : Status) (bytes : List Byte) (bitLen : Int)
  | status (status : Status)
  | statusBytes (status : Status) (bytes : List Byte)
  /-- a CardIdentifier (R163) -/
  | identifier (bytes : List Byte)
  /-- `Fail(cause)` of UIDCHK (R163, R241) -/
  | fail (cause : IdFailure)
  /-- "no card" (R164) -/
  | noCard
  | block (bytes : List Byte)
  /-- RDBLK's "absent" (R191) -/
  | absent
  | bytes (bytes : List Byte)
  /-- CRC's pair (R205) -/
  | pair (low high : Byte)
  | word (word : AccessWord)
  | bit (value : Bool)
  | trailer (trailer : SectorTrailer)
  /-- `REFUSED` (R14, R260) -/
  | refused (cause : RefuseCause)
deriving DecidableEq, Repr

/-- Where read answers come from once the script is used up: free draws under no law (R62), or the reference environment of R80.
DESIGN CHOICE (log 17; safe: every statement is about both). -/
inductive EnvKind where
  | free
  | reference
deriving DecidableEq, Repr

/-- The chip's own state as the transactions leave it (R26 to R40): its register space, its FIFO and the flags it is about to raise.
The controller never relies on it (R63). -/
structure Chip where
  /-- the register space 0..0x3F (R61) -/
  regs : Memory
  /-- the FIFO, oldest byte first (R38) -/
  fifo : List Byte
  /-- interrupt-status bits that appear at the next reads of that register, one entry a read (log 14) -/
  comFlags : List Byte
  /-- CRC-done register bits that appear at the next reads of that register (log 14) -/
  divFlags : List Byte
  /-- the CRC co-processor's running CRC over the bytes it has taken in since the last flush (R36, R80 ENV-CRC) -/
  crc : BitVec 16
deriving DecidableEq, Repr

/-- The selection states of a card (R248), with what the protocol order of R277 needs: in `ready`, whether ANTICOLLISION has been answered.
PRESUMED (general knowledge in the spec; log 15). -/
inductive CardStage where
  | idle
  | ready (resolved : Bool)
  | active
  | halted
deriving DecidableEq, Repr

/-- The card in the field (R42, R248; the reference card of 95_test_vectors.md program P4, log 15). Its keys and access words stand in the
trailers of its memory (R69). -/
structure Card where
  present : Bool
  uid : List Byte
  atqa : List Byte
  /-- the select acknowledge (R177) -/
  sak : Byte
  /-- blocks whose READ it does not answer (95_test_vectors.md program P6) -/
  silent : List Byte
  /-- the selection state (R248) -/
  stage : CardStage
  /-- the sector of its authenticated session (R247) -/
  session : Option Nat
  /-- the block of an acknowledged WRITE command whose data frame has not come yet (R192) -/
  writing : Option Byte
  /-- block memory, byte `k` of block `b` at address `16*b + k` (R42, R69) -/
  mem : Memory
deriving DecidableEq, Repr

/-- Everything beyond the controller's lower edge: the record of what crossed it, the answers and draws to come, the chip, the card. -/
structure Port where
  /-- what has crossed the edge, oldest first (R12; log 19) -/
  trace : List Event
  /-- answers to the next reads, in order (95_test_vectors.md conventions; log 1) -/
  answers : List Byte
  /-- answers to the next `Draw(deadlineElapsed)` (R164; log 2) -/
  deadlines : List Bool
  /-- how many values have been drawn: the counter the free values are applied to (log 1) -/
  draws : Nat
  kind : EnvKind
  /-- the reset line (R44) -/
  line : Level
  chip : Chip
  card : Card
deriving DecidableEq, Repr

/-- The machine's state. -/
structure State where
  /-- the configuration record, fixed in use (R281) -/
  cfg : Config
  /-- the sequencer (R24) -/
  pc : Pc
  /-- the working registers (R21) -/
  regs : Regs
  /-- the valid cells of `TX` (R22) -/
  tx : List Byte
  /-- the valid cells of `RX` (R22) -/
  rx : List Byte
  /-- the last result given to the host (R257; log 19) -/
  reply : Reply
  /-- the requests presented and not yet taken, oldest first (R257; log 10) -/
  inbox : List Request
  /-- what lies beyond the register port (R20 b, c) -/
  port : Port
deriving DecidableEq, Repr

/-- `x[RXCNT]` (R21): the number of valid cells of `RX`. -/
def State.rxCnt (s : State) : BitVec 5 := BitVec.ofNat 5 s.rx.length

/-- `x[TXCNT]` (R21): the number of valid cells of `TX`. -/
def State.txCnt (s : State) : BitVec 7 := BitVec.ofNat 7 s.tx.length

/-- Reasons a step could stop with a fault. -/
inductive Fault where
  /-- A read of a buffer cell that holds no value (R22, U3). The buffers are lists of valid cells, so no such read can be written and
  no definition raises this: no step of the model ends in a fault. Safe. -/
  | cellWithoutValue
deriving DecidableEq, Repr

/-- Reasons a step could give an operation no meaning. `REFUSED` of R260 is not one: it is a reply, after which the controller
serves the next request (R241; log 8). -/
inductive Refusal where
  /-- Raised by an arm of `exec` for an operation not modelled yet; no arm does. Safe. -/
  | notModelled (mnemonic : String)
deriving DecidableEq, Repr

/-- FREE VALUE. The working registers after RSTP, which "keep no value" (R135): the `n`-th such record is any record. Log 5. -/
opaque lostRegs : Nat → Regs

/-- The working registers at power-on: R266 gives none a value. DESIGN CHOICE: every field zero, which is OK and None for status and
cause (log 4; unsafe: a claim could rest on one of these numbers). -/
def Regs.reset : Regs where
  irqen := 0#8
  wait := 0#8
  n := 0#8
  i := 0#11
  status := .ok
  cause := .none
  e := 0#8
  lvl := 0#8
  lb := 0#3
  bitLen := 0#12
  crcLo := 0#8
  crcHi := 0#8
  crcTo := false
  s2 := 0#8

/-- The chip after reset: no cell listed, so every register at the value `chipRest` of Machine/Chip.lean gives it; FIFO empty (R267,
general knowledge; PRESUMED, log 13, unsafe). DESIGN CHOICE (log 13, unsafe): the running CRC starts at 0x6363, as after a flush with BOOT_CONFIG
applied, though R268 recalls 0x0000 as the preset after reset; until BOOT_CONFIG stands no result shows it (log 29). -/
def Chip.reset : Chip where
  regs := []
  fifo := []
  comFlags := []
  divFlags := []
  crc := 0x6363#16

/-- The card of 95_test_vectors.md program P4 (general knowledge there; PRESUMED, log 15, unsafe): UID DE AD BE EF, ATQA 04 00, select
acknowledge 0x08, idle; its blocks and keys are what its memory reads as unwritten (log 16). -/
def Card.reset : Card where
  present := true
  uid := [0xDE#8, 0xAD#8, 0xBE#8, 0xEF#8]
  atqa := [0x04#8, 0x00#8]
  sak := 0x08#8
  silent := []
  stage := .idle
  session := none
  writing := none
  mem := []

/-- Beyond the port at power-on: nothing has crossed, no answer is scripted, answers are free draws (R62), the reset line is released
(DESIGN CHOICE, log 18). -/
def Port.reset : Port where
  trace := []
  answers := []
  deadlines := []
  draws := 0
  kind := .free
  line := .high
  chip := Chip.reset
  card := Card.reset

/-- The machine right after reset (R45, R265, R266): sequencer idle, buffers without a valid cell, the default configuration (log 3). -/
def State.reset : State where
  cfg := Config.default
  pc := .idle
  regs := Regs.reset
  tx := []
  rx := []
  reply := .none
  inbox := []
  port := Port.reset

end Sys2Proof.Machine
end

