-- ==== Sys2Proof/Machine/Operands.lean ====
section
/-! DEFINITION. Operand forms: how request bytes become addresses, codes and words, the frames of 30_encoding.md R97 to R103, the access
bytes and the trailer (46_access_bits.md R216 to R223, 30_encoding.md R113), the wire bytes (R93), and the function CRC_A (45_crc16.md R210). -/
namespace Sys2Proof.Machine

/-- The register address of an operand byte that is at most 0x3F (R61). -/
def toAddr (addr : Byte) : RegAddr := addr.setWidth 6

/-- The key slot of a slot byte: 0 for A, 1 for B (R116). -/
def toSlot (slot : Byte) : Slot := if slot = 0#8 then .a else .b

/-- The byte of a key slot (R116). -/
def slotByte : Slot → Byte
  | .a => 0x00#8
  | .b => 0x01#8

/-- The access code of an operand byte that is at most 7 (R76). -/
def toCode (c : Byte) : BitVec 3 := c.setWidth 3

/-- The access word of five operand bytes (R91). -/
def toWord (c0 c1 c2 c3 user : Byte) : AccessWord := ⟨toCode c0, toCode c1, toCode c2, toCode c3, user⟩

/-! Wire format S (R93, R65). -/

/-- The address byte of a read transaction. -/
def wireRead (a : RegAddr) : Byte := 0x80#8 ||| (a.setWidth 8 <<< 1)

/-- The address byte of a write transaction. -/
def wireWrite (a : RegAddr) : Byte := a.setWidth 8 <<< 1

/-- The bytes the controller's side puts on the wire for an event; the byte after a read's address byte is the transport's (R65, D30). -/
def wireBytes : Event → List Byte
  | .read a _ => [wireRead a]
  | .write a v => [wireWrite a, v]
  | .line _ => []

/-! CRC_A (R210). PRESUMED (general knowledge in the spec; log 25): no operation of the controller computes it. -/

/-- One of the eight shifts. -/
def crcShift (c : BitVec 16) : BitVec 16 := if c.getLsbD 0 then (c >>> 1) ^^^ 0x8408#16 else c >>> 1

/-- One byte into the 16-bit state. -/
def crcByte (c : BitVec 16) (b : Byte) : BitVec 16 :=
  let c := c ^^^ b.setWidth 16
  crcShift (crcShift (crcShift (crcShift (crcShift (crcShift (crcShift (crcShift c)))))))

/-- The state after a byte sequence, from the preset 0x6363. -/
def crcState (bytes : List Byte) : BitVec 16 := bytes.foldl crcByte 0x6363#16

/-- The pair (low, high). -/
def crcA (bytes : List Byte) : Byte × Byte := ((crcState bytes).setWidth 8, (crcState bytes >>> 8).setWidth 8)

/-- A byte sequence with its CRC suffix, low byte first (R64 b). -/
def withCrc (bytes : List Byte) : List Byte := bytes ++ [(crcA bytes).1, (crcA bytes).2]

/-! Card frames before their CRC suffix (R97 to R103). -/

def requestFrame (cfg : Config) : List Byte := [cfg.kRequest]
def anticollisionFrame (cfg : Config) (level : CascadeLevel) : List Byte := [cfg.kAnticoll, cascadeByte cfg level]
def selectFrame (cfg : Config) (id : List Byte) : List Byte := cfg.kSelect :: kSelectArg :: id
def readFrame (cfg : Config) (block : Byte) : List Byte := [cfg.kRead, block]
def writeFrame (cfg : Config) (block : Byte) : List Byte := [cfg.kWrite, block]

/-- The auth-mode byte of a slot (R116). -/
def authMode (cfg : Config) : Slot → Byte
  | .a => cfg.kAuthA
  | .b => cfg.kAuthB

/-- The AUTHENT frame (R100): mode, block, key, the four UID bytes. -/
def authFrame (cfg : Config) (slot : Slot) (block : Byte) (key uid : List Byte) : List Byte :=
  authMode cfg slot :: block :: (key ++ uid)

/-! The access word (R216, R217, R219, R221). -/

/-- A plane: bit `k` of each of the four codes, bit `b` belonging to block `b` (R216). -/
def plane (k : Nat) (w : AccessWord) : BitVec 4 :=
  BitVec.ofBool (w.c3.getLsbD k) ++ BitVec.ofBool (w.c2.getLsbD k) ++ BitVec.ofBool (w.c1.getLsbD k) ++ BitVec.ofBool (w.c0.getLsbD k)

/-- ACENC (R217, R218): byte 0 is `~P2 ++ ~P1`, byte 1 `P1 ++ ~P3`, byte 2 `P3 ++ P2`, byte 3 the user byte. -/
def encodeWord (w : AccessWord) : List Byte :=
  let p1 := plane 2 w
  let p2 := plane 1 w
  let p3 := plane 0 w
  [~~~p2 ++ ~~~p1, p1 ++ ~~~p3, p3 ++ p2, w.user]

/-- The code of block `b` from its three plane bits, C1 the most significant (R216). -/
def codeOf (p1 p2 p3 : BitVec 4) (b : Nat) : BitVec 3 :=
  BitVec.ofBool (p1.getLsbD b) ++ BitVec.ofBool (p2.getLsbD b) ++ BitVec.ofBool (p3.getLsbD b)

/-- High and low nibble of a byte. -/
def highNibble (v : Byte) : BitVec 4 := v.extractLsb' 4 4
def lowNibble (v : Byte) : BitVec 4 := v.extractLsb' 0 4

/-- ACDEC (R219): the plain copies alone are read; byte 0 is not. -/
def decodeWord (_b0 b1 b2 b3 : Byte) : AccessWord :=
  let p1 := highNibble b1
  let p3 := highNibble b2
  let p2 := lowNibble b2
  ⟨codeOf p1 p2 p3 0, codeOf p1 p2 p3 1, codeOf p1 p2 p3 2, codeOf p1 p2 p3 3, b3⟩

/-- ACCHK (R220): every inverted copy is the complement of its plain copy. -/
def wordConsistent (b0 b1 b2 : Byte) : Bool :=
  highNibble b0 == ~~~lowNibble b2 && lowNibble b0 == ~~~highNibble b1 && lowNibble b1 == ~~~highNibble b2

/-- A code with the bit of published index `bitIndex` 1..3 replaced (R221: index 1 is bit 2, 2 is bit 1, 3 is bit 0). -/
def setCodeBit (c : BitVec 3) (bitIndex value : Byte) : BitVec 3 :=
  let w := 3 - bitIndex.toNat
  (c &&& ~~~(1#3 <<< w)) ||| (toCode value <<< w)

/-- ACSETB (R221): one bit of one block's code. -/
def setWordBit (w : AccessWord) (block bitIndex value : Byte) : AccessWord :=
  match block.toNat with
  | 0 => { w with c0 := setCodeBit w.c0 bitIndex value }
  | 1 => { w with c1 := setCodeBit w.c1 bitIndex value }
  | 2 => { w with c2 := setCodeBit w.c2 bitIndex value }
  | _ => { w with c3 := setCodeBit w.c3 bitIndex value }

/-- TRPACK (R222, R113). -/
def packTrailer (t : SectorTrailer) : List Byte := t.keyA.bytes ++ encodeWord t.access ++ t.keyB.bytes

/-- TRUNPK (R223): any 16 bytes; fewer have no trailer. -/
def unpackTrailer (bytes : List Byte) : Option SectorTrailer :=
  match bytes.drop 6 with
  | b0 :: b1 :: b2 :: b3 :: keyB => some ⟨⟨.a, bytes.take 6⟩, decodeWord b0 b1 b2 b3, ⟨.b, keyB⟩⟩
  | _ => none

/-! Lengths (R147). -/

/-- The bit length of an answer, on mathematical integers (R147, R225 b). -/
def answerBits (lvl : Byte) (lb : BitVec 3) : Int :=
  if lb ≠ 0#3 then ((lvl.toNat : Int) - 1) * 8 + lb.toNat else (lvl.toNat : Int) * 8

/-- `MAX_LEN` (R6): most bytes drained into a result. -/
def maxLen : Nat := 16

/-- How many bytes are drained: the level clipped to 1..16 (R147). -/
def drainCount (lvl : Byte) : Nat := max 1 (min lvl.toNat maxLen)

/-! The sector layout (R69, R66). -/

/-- The sector a block address belongs to. -/
def sectorOf (block : Byte) : Nat := block.toNat / 4

/-- The address of byte 0 of a block in the card's memory (R42, R69). -/
def blockBase (block : Byte) : Nat := 16 * block.toNat

end Sys2Proof.Machine
end

