-- ==== Sys2Proof/Machine/Flags.lean ====
section
/-! DEFINITION. Masks, codes and every test that decides a status, a cause or the end of a poll (41_transceiver.md R141, R144, R146;
45_crc16.md R207; 60_exceptions.md R236, R237, R243). -/
namespace Sys2Proof.Machine

/-- Status codes of R236. -/
def statusCode : Status → BitVec 2
  | .ok => 0#2
  | .noTag => 1#2
  | .error => 2#2

/-- Cause codes of R237. -/
def causeCode : Cause → BitVec 3
  | .none => 0#3
  | .timer => 1#3
  | .chipError => 2#3
  | .exhausted => 3#3
  | .checksumMismatch => 4#3
  | .notAuthenticated => 5#3
  | .lengthMismatch => 6#3
  | .ackMismatch => 7#3

/-- Interrupt-enable mask of a chip command, by whole-byte comparison (R141: `IRQEN_AUTHENT`, `IRQEN_TRANSCEIVE`, `IRQEN_OTHER`). -/
def enableMask (cfg : Config) (cmd : Byte) : Byte :=
  if cmd = cfg.cmdAuthent then 0x12#8 else if cmd = cfg.cmdTransceive then 0x77#8 else 0x00#8

/-- Wait-for-IRQ mask of a chip command (R141: `WAIT_AUTHENT`, `WAIT_TRANSCEIVE`, `WAIT_OTHER`). -/
def waitMask (cfg : Config) (cmd : Byte) : Byte :=
  if cmd = cfg.cmdAuthent then 0x10#8 else if cmd = cfg.cmdTransceive then 0x30#8 else 0x00#8

/-- `M_TIMER` (R6): the timer-expired bit. -/
def mTimer : Byte := 0x01#8

/-- `M_ERR` (R6): the mask applied to the error register. -/
def mErr : Byte := 0x1B#8

/-- `M_RXLASTBITS` (R6): the low 3 bits of the control register. -/
def lastBits (control : Byte) : BitVec 3 := control.setWidth 3

/-- `POLL_BUDGET` (R6). -/
def pollBudget : Nat := 2000

/-- `CRC_BUDGET` (R6). -/
def crcBudget : Nat := 255

/-- Any bit of a mask is set (R226). -/
def anyBit (v mask : Byte) : Bool := v &&& mask != 0#8

/-- A sample of the interrupt-status register ends the poll loop (R144). -/
def endsPoll (sample wait : Byte) : Bool := anyBit sample mTimer || anyBit sample wait

/-- Status and cause after a poll that was not exhausted (R146): masked error bits first, then the enabled timer bit of the sample that
ended the loop, else OK. -/
def transceiveOutcome (n irqen e : Byte) : Status × Cause :=
  if anyBit e mErr then (.error, .chipError)
  else if anyBit (n &&& irqen) mTimer then (.noTag, .timer)
  else (.ok, .none)

/-- `ACK` (R6): the acknowledge nibble. -/
def ackNibble : BitVec 4 := 0xA#4

/-- The acknowledge test of WRBLK (R193): status OK, bit length 4, low nibble of the first byte 0x0A. -/
def acked (status : Status) (bitLen : BitVec 12) (rx : List Byte) : Bool :=
  status == .ok && bitLen == 4#12 && (rx.head?.map lowNibble == some ackNibble)

/-- `ATQA_BITS`, `SAK_BITS` and `UID_RESP_BYTES` (R6). -/
def atqaBits : BitVec 12 := 16#12
def sakBits : BitVec 12 := 24#12
def uidRespBytes : Nat := 5

end Sys2Proof.Machine
end

