-- ==== Sys2Proof/Machine/Chip.lean ====
section
/-! DEFINITION. What lies behind the register port: the chip and the card as the transactions leave them. The side effects are those of
20_memory.md R67; the rest is the well-behaved chip of R80 (ENV-FIFO, ENV-CRC, ENV-IRQ, ENV-RX, ENV-AUTH) and the card of
95_test_vectors.md program P4, general knowledge in the spec and PRESUMED here (log 13 to 16, 29, 30). Its own answers are given to the
controller only when `kind` is `reference`; with `kind = free` every answer is a draw under no law (R62). -/
namespace Sys2Proof.Machine

/-- What a register of the chip holds after reset (R267, column "general knowledge"; 0 for the addresses of R37). PRESUMED, log 13. -/
def chipRest (cfg : Config) (a : Nat) : Byte :=
  if a = cfg.aCommand.toNat then 0x20#8
  else if a = cfg.aComIEn.toNat then 0x80#8
  else if a = cfg.aComIrq.toNat then 0x14#8
  else if a = cfg.aControl.toNat then 0x10#8
  else if a = cfg.aCrcResultH.toNat then 0xFF#8
  else if a = cfg.aCrcResultL.toNat then 0xFF#8
  else 0x00#8

/-- The byte a register of the chip holds. -/
def Chip.get (cfg : Config) (c : Chip) (a : RegAddr) : Byte := memoryRead (chipRest cfg) c.regs a.toNat

/-- Store a byte in a register of the chip. -/
def Chip.put (cfg : Config) (a : RegAddr) (v : Byte) (c : Chip) : Chip :=
  { c with regs := memoryWrite (chipRest cfg) c.regs a.toNat v }

/-- FIFO capacity (R38, R80; general knowledge). -/
def fifoCapacity : Nat := 64

/-- `BufferOvfl` of the error register (R30, R75; general knowledge). -/
def bufferOvfl : Byte := 0x10#8

/-- The crypto1-on bit reads set (R31, R39). -/
def Chip.inSession (cfg : Config) (c : Chip) : Bool := anyBit (c.get cfg cfg.aStatus2) cfg.mCrypto1On

/-- An entry of BOOT_CONFIG stands in the chip: the register holds the byte written, or has the bits set (R268). -/
def Chip.holds (cfg : Config) (c : Chip) : BootAction → Bool
  | .write a v => c.get cfg a == v
  | .set a m => c.get cfg a &&& m == m

/-- BOOT_CONFIG stands in the chip: the premise of ENV-CRC and ENV-IRQ (R80, R268, D24). Where it does not, what depends on the timer, the CRC
preset or the antenna is a free value (log 29). -/
def Chip.booted (cfg : Config) (c : Chip) : Bool := cfg.bootConfig.all (c.holds cfg)

/-! The FIFO and the CRC co-processor (R36, R38). `n` is how many events the port has seen: what the free values are applied to. -/

/-- The co-processor takes bytes in: the running CRC goes on, and the done flag appears. Its result registers show it only with the preset of
BOOT_CONFIG, else a free value (R36, R210, U8; log 29). -/
def Chip.absorb (cfg : Config) (n : Nat) (bytes : List Byte) (c : Chip) : Chip :=
  let crc := bytes.foldl crcByte c.crc
  let shown := if c.booted cfg then crc else Config.freeCrc n
  (({ c with crc := crc, divFlags := [0#8, cfg.mCrcDone] }).put cfg cfg.aCrcResultL (shown.setWidth 8)).put cfg cfg.aCrcResultH
    ((shown >>> 8).setWidth 8)

/-- The CALC-CRC command is the one last written (R26). -/
def Chip.calculating (cfg : Config) (c : Chip) : Bool := c.get cfg cfg.aCommand == cfg.cmdCalcCrc

/-- A byte written to the FIFO: it enters the running CRC while CALC-CRC is active (R36), else it is queued (R32); beyond the capacity the
overflow flag is set instead (R75). -/
def Chip.push (cfg : Config) (n : Nat) (v : Byte) (c : Chip) : Chip :=
  if c.calculating cfg then c.absorb cfg n [v]
  else if c.fifo.length < fifoCapacity then { c with fifo := c.fifo ++ [v] }
  else c.put cfg cfg.aError (c.get cfg cfg.aError ||| bufferOvfl)

/-- Empty the FIFO, clear the overflow flag (R33, R67), and begin a new CRC: ENV-CRC counts the bytes "loaded since the flush" (R80). -/
def Chip.flush (cfg : Config) (c : Chip) : Chip :=
  ({ c with fifo := [], crc := 0x6363#16 }).put cfg cfg.aError (c.get cfg cfg.aError &&& ~~~bufferOvfl)

/-- CALC-CRC: the co-processor consumes the FIFO (R36, R80 ENV-CRC). -/
def Chip.calcCrc (cfg : Config) (n : Nat) (c : Chip) : Chip := ({ c with fifo := [] }).absorb cfg n c.fifo

/-- A write to an interrupt-flag register (R28, R29): with bit 7 set the marked flags are set, with bit 7 clear they are cleared. -/
def flagsAfterWrite (old v : Byte) : Byte := if v.getLsbD 7 then old ||| (v &&& 0x7F#8) else old &&& ~~~v

/-- `ModemState` of the status-2 register, read-only (R31; general knowledge), but for a bit the configuration names as the crypto1-on bit. -/
def modemState (cfg : Config) : Byte := 0x07#8 &&& ~~~cfg.mCrypto1On

/-- A write to the status-2 register: `ModemState` keeps its bits, and the crypto1-on bit can be cleared, not set: only the chip sets it (R31). -/
def status2AfterWrite (cfg : Config) (old v : Byte) : Byte :=
  (v &&& ~~~(cfg.mCrypto1On ||| modemState cfg)) ||| (old &&& modemState cfg) ||| (v &&& old &&& cfg.mCrypto1On)

/-- The value a read of an interrupt-flag register shows: the flags held and those appearing now (log 14). -/
def appearing (held : Byte) (next : List Byte) : Byte := held ||| next.head?.getD 0#8

/-! The card (R42, R69, R70, R97 to R104, R247, R248; log 15). -/

/-- What an unlisted byte of card memory reads as: byte `k` of block `m` is `(16m + k)` in 8 bits, but for the key bytes of a trailer, 0xFF
(95_test_vectors.md P4; log 16, unsafe). -/
def cardRest (a : Nat) : Byte :=
  if a / 16 % 4 = 3 ∧ (a % 16 < 6 ∨ 10 ≤ a % 16) then 0xFF#8 else BitVec.ofNat 8 a

/-- The byte of a card's memory at an address. -/
def Card.get (c : Card) (a : Nat) : Byte := memoryRead cardRest c.mem a

/-- The address of byte 0 of the trailer of a block's sector: the block at offset 3 (R69). -/
def trailerBase (block : Byte) : Nat := 16 * (4 * sectorOf block + 3)

/-- The key a card holds for a block's sector: bytes 0..5 of the trailer for slot A, bytes 10..15 for slot B (R42, R69, R278). -/
def Card.key (c : Card) (block : Byte) : Slot → List Byte
  | .a => memoryReadAll cardRest c.mem (trailerBase block) 6
  | .b => memoryReadAll cardRest c.mem (trailerBase block + 10) 6

/-- The access code of the trailer of a block's sector (R69, R219). DESIGN CHOICE (log 15): a malformed access word (R220) is read by its plain copies, as
ACDEC reads it, and blocks nothing of the sector. -/
def Card.trailerCode (c : Card) (block : Byte) : BitVec 3 :=
  let a := trailerBase block + 6
  (decodeWord (c.get a) (c.get (a + 1)) (c.get (a + 2)) (c.get (a + 3))).c3

/-- The access word lets key B be read (R70's table, codes 0b000, 0b010 and 0b001; general knowledge, log 15). -/
def Card.keyBReadable (c : Card) (block : Byte) : Bool :=
  c.trailerCode block == 0#3 || c.trailerCode block == 2#3 || c.trailerCode block == 1#3

/-- The 16 bytes READ shows: a data block as it is; of a trailer, key A as zeros and key B as zeros unless it may be read (R223). -/
def Card.shownBlock (c : Card) (block : Byte) : List Byte :=
  let bytes := memoryReadAll cardRest c.mem (blockBase block) 16
  if block.toNat % 4 = 3 then
    List.replicate 6 0x00#8 ++ (bytes.drop 6).take 4 ++ (if c.keyBReadable block then bytes.drop 10 else List.replicate 6 0x00#8)
  else bytes

/-- Store the 16 bytes of a block: a trailer's replace both keys and the access word at once (R278). -/
def Card.store (block : Byte) (bytes : List Byte) (c : Card) : Card :=
  { c with mem := memoryWriteAll cardRest c.mem (blockBase block) bytes }

/-- A frame, or a handshake, that the card does not accept. A session ends (R247), the card is idle again unless it was halted (R248), and a block
that waited for its data holds any bytes: "any value" (R192, R278, U13; free values, log 30). -/
def Card.fail (n : Nat) (c : Card) : Card :=
  let c := match c.writing with
    | some block => c.store block ((List.range 16).map (Config.freeBlockByte n))
    | none => c
  { c with stage := if c.stage = .halted then .halted else .idle, session := none, writing := none }

/-- The HALT frame with its CRC (R210, 95_test_vectors.md part 2.7; general knowledge, PRESUMED, log 15). -/
def haltFrame : List Byte := withCrc [0x50#8, 0x00#8]

/-- HALT: the card is halted and its session is over (R248, R271). -/
def Card.halt (c : Card) : Card := { c with stage := .halted, session := none }

/-- The answer to a frame: its bytes and the number of valid bits of the last one, 0 for all eight (R80 ENV-RX). -/
abbrev Answer := Option (List Byte × BitVec 3)

/-- The acknowledge nibble of a card (R104). -/
def ackAnswer : Answer := some ([0x0A#8], 4#3)

/-- The data frame of a WRITE (R103): 16 bytes and their CRC, sent whole (R35, R274 a), in a session of the block's sector. -/
def Card.takeData (n : Nat) (crypto : Bool) (lastBits : BitVec 3) (block : Byte) (frame : List Byte) (c : Card) : Answer × Card :=
  if crypto ∧ lastBits = 0#3 ∧ c.session = some (sectorOf block) ∧ frame.length = 18 ∧ frame = withCrc (frame.take 16) then
    (ackAnswer, { c.store block (frame.take 16) with writing := none })
  else (none, c.fail n)

/-- READ and the first frame of WRITE (R101, R102): answered in a session for the block's sector (R247, R277). DESIGN CHOICE (log 15): the card has
all 64 sectors an 8-bit block address can name, since the number of sectors is not in the source (R42, R69). -/
def Card.takeBlock (cfg : Config) (n : Nat) (code block : Byte) (c : Card) : Answer × Card :=
  if c.session ≠ some (sectorOf block) then (none, c.fail n)
  else if code = cfg.kRead then
    if block ∈ c.silent then (none, c) else (some (withCrc (c.shownBlock block), 0#3), c)
  else if code = cfg.kWrite then (ackAnswer, { c with writing := some block })
  else (none, c.fail n)

/-- A frame enciphered in a session: HALT, without an answer (R248), or a command with its CRC, both sent whole (R101, R102, R35). -/
def Card.takeSession (cfg : Config) (n : Nat) (lastBits : BitVec 3) (frame : List Byte) (c : Card) : Answer × Card :=
  if frame = haltFrame ∧ lastBits = 0#3 then (none, c.halt)
  else match frame with
  | [code, block, _, _] => if frame = withCrc [code, block] ∧ lastBits = 0#3 then c.takeBlock cfg n code block else (none, c.fail n)
  | _ => (none, c.fail n)

/-- A 7-bit short frame with a code: bits 6:0 of the byte go on the air (R97, R35). -/
def isShort (lastBits : BitVec 3) (frame : List Byte) (code : Byte) : Bool :=
  match frame with
  | [b] => lastBits == 7#3 && b &&& 0x7F#8 == code &&& 0x7F#8
  | _ => false

/-- The REQUEST code 0x52, which wakes halted cards too (R94; general knowledge, PRESUMED, log 15). -/
def kWakeUp : Byte := 0x52#8

/-- A REQUEST that an idle card answers: `K_REQUEST`, and both codes a card knows, 0x26 and 0x52 (R94; PRESUMED, log 15). -/
def isRequest (cfg : Config) (lastBits : BitVec 3) (frame : List Byte) : Bool :=
  [cfg.kRequest, 0x26#8, kWakeUp].any (isShort lastBits frame)

/-- The answer of a card that a REQUEST reaches: its ATQA; it is ready (R97, R248). -/
def Card.wake (c : Card) : Answer × Card := (some (c.atqa, 0#3), { c with stage := .ready false })

/-- A plain frame, in the protocol order of R277: REQUEST by an idle card, ANTICOLLISION after it, SELECT after that, all but REQUEST sent whole
(R97, R98, R99, R104, R248). HALT halts an active card without an answer, and only a REQUEST with the code 0x52 reaches a halted one (R94, R248;
PRESUMED, log 15). -/
def Card.takePlain (cfg : Config) (n : Nat) (lastBits : BitVec 3) (frame : List Byte) (c : Card) : Answer × Card :=
  let id := c.uid ++ [xorAll c.uid]
  match c.stage with
  | .idle => if isRequest cfg lastBits frame then c.wake else (none, c.fail n)
  | .ready resolved =>
    if frame = anticollisionFrame cfg .one ∧ lastBits = 0#3 then (some (id, 0#3), { c with stage := .ready true })
    else if resolved ∧ frame = withCrc (selectFrame cfg id) ∧ lastBits = 0#3 then (some (withCrc [c.sak], 0#3), { c with stage := .active })
    else (none, c.fail n)
  | .active =>
    if frame = haltFrame ∧ lastBits = 0#3 then (none, c.halt) else (none, c.fail n)
  | .halted => if isShort lastBits frame kWakeUp then c.wake else (none, c.fail n)

/-- The card's answer to a frame the chip transmits: `crypto` says whether the chip enciphers (R247), `lastBits` how many bits of the last
byte are sent (R35, R106). A plain frame in a session, or an enciphered one outside, is not understood (R247). -/
def Card.respond (cfg : Config) (n : Nat) (crypto : Bool) (lastBits : BitVec 3) (frame : List Byte) (c : Card) : Answer × Card :=
  if !c.present then (none, c)
  else match c.writing with
    | some block => c.takeData n crypto lastBits block frame
    | none =>
      if crypto != c.session.isSome then (none, c.fail n)
      else if crypto then c.takeSession cfg n lastBits frame
      else c.takePlain cfg n lastBits frame

/-- The AUTHENT handshake succeeds (R100, R247, R277): the card is active, no data is awaited, the exchange is byte-aligned (R274 b), the chip
enciphers exactly when the card is in a session, and the frame's key is the slot's in the sector's trailer (R69) and its UID the card's; key B
does not authenticate where it may be read (R70). -/
def Card.accepts (cfg : Config) (crypto : Bool) (lastBits : BitVec 3) (frame : List Byte) (c : Card) : Bool :=
  c.present && c.stage == .active && c.writing == none && lastBits == 0#3 && crypto == c.session.isSome &&
  match frame with
  | _ :: block :: _ =>
    frame == authFrame cfg .a block (c.key block .a) c.uid ||
    (frame == authFrame cfg .b block (c.key block .b) c.uid && !c.keyBReadable block)
  | _ => false

/-! Chip commands (R26, R80). The flags that appear, and how many reads late, are those of the traces of P4, P6 and P7 (log 14). -/

/-- A card hears the chip: the antenna is on with BOOT_CONFIG, else it is open whether it is (R268; a free value, log 29). -/
def Chip.heard (cfg : Config) (n : Nat) (c : Chip) : Bool := c.booted cfg || Config.freeHears n

/-- The flags that appear after no answer: the timer's with BOOT_CONFIG, else open (R80 ENV-IRQ, R249 b; a free value, log 29). -/
def Chip.timeoutFlags (cfg : Config) (n : Nat) (timer : List Byte) (c : Chip) : List Byte := if c.booted cfg then timer else Config.freeFlags n

/-- AUTHENT: the handshake; on success the crypto1-on bit is set and the idle flag appears, else the timer flag appears and the bit stays as it
was (R80 ENV-AUTH, R271 a). A failed handshake is a failed exchange of the card (R247). DESIGN CHOICE (log 14):
it consumes the FIFO and drops the interrupt flags that had not appeared yet, whether it succeeds or not. -/
def authent (cfg : Config) (n : Nat) (chip : Chip) (card : Card) : Chip × Card :=
  let heard := chip.heard cfg n
  if heard && card.accepts cfg (chip.inSession cfg) (lastBits (chip.get cfg cfg.aBitFraming)) chip.fifo then
    (({ chip with fifo := [], comFlags := [0#8, 0#8, 0x10#8] }).put cfg cfg.aStatus2 (chip.get cfg cfg.aStatus2 ||| cfg.mCrypto1On),
     { card with session := (chip.fifo[1]?).map sectorOf })
  else
    ({ chip with fifo := [], comFlags := chip.timeoutFlags cfg n [0#8, 0#8, 0x01#8] }, if heard && card.present then card.fail n else card)

/-- A write to the command register: the byte is kept, what ran stops, and CALC-CRC or AUTHENT starts; TRANSCEIVE waits for a write that sets the
start-send bit (R26, R67; DESIGN CHOICE, log 14: a bit that already stands starts nothing). PRESUMED (log 14): a code that is none of the four (R115 b, U5: any value) is kept and starts nothing; a write drops the
interrupt-status flags that had not appeared yet and keeps the CRC-done flag that had not. -/
def startCommand (cfg : Config) (n : Nat) (code : Byte) (chip : Chip) (card : Card) : Chip × Card :=
  let chip := ({ chip with comFlags := [] }).put cfg cfg.aCommand code
  if code = cfg.cmdCalcCrc then (chip.calcCrc cfg n, card)
  else if code = cfg.cmdAuthent then authent cfg n chip card
  else (chip, card)

/-- Transmission and reception under TRANSCEIVE: the FIFO's bytes go out, the answer's come in with their count of last bits; a receive flag or
the timer flag appears (R80 ENV-IRQ, ENV-RX), the latter, and whether a card hears at all, with BOOT_CONFIG only (R268; log 29). DESIGN CHOICE (log 14):
`RxAlign`, bits 6:4 of the bit framing, is kept and does nothing, so an answer arrives unshifted whatever it holds (R35 only names it); interrupt
flags of an earlier transmission that had not appeared yet are dropped (R40 is silent); an empty FIFO reaches the card as an empty frame, which it does
not accept (R35, R67); without an answer `RxLastBits`, the control register's bits 2:0, is cleared (R34 and ENV-RX speak of a received frame only). -/
def exchange (cfg : Config) (n : Nat) (chip : Chip) (card : Card) : Chip × Card :=
  let r := if chip.heard cfg n then card.respond cfg n (chip.inSession cfg) (lastBits (chip.get cfg cfg.aBitFraming)) chip.fifo else (none, card)
  let control := chip.get cfg cfg.aControl &&& ~~~0x07#8
  match r.1 with
  | some (bytes, bits) =>
    (({ chip with fifo := bytes.take fifoCapacity, comFlags := [0x04#8, 0x60#8] }).put cfg cfg.aControl (control ||| bits.setWidth 8), r.2)
  | none =>
    (({ chip with fifo := [], comFlags := chip.timeoutFlags cfg n [0x44#8, 0x01#8] }).put cfg cfg.aControl control, r.2)

/-- A write to the bit-framing register: kept whole; with the start-send bit set it starts transmission (R35, R67). DESIGN CHOICE (log 14): only while
TRANSCEIVE is the command last written; R67 names no condition. Start-send set under another command sends nothing, then or later. -/
def writeFraming (cfg : Config) (n : Nat) (v : Byte) (chip : Chip) (card : Card) : Chip × Card :=
  let chip := chip.put cfg cfg.aBitFraming v
  if anyBit v cfg.mStartSend ∧ chip.get cfg cfg.aCommand = cfg.cmdTransceive then exchange cfg n chip card else (chip, card)

/-- What a write transaction does beyond the port (R67). DESIGN CHOICE (log 14): a write of an interrupt-flag register changes the flags held, not those
still to appear, so a flag marked to be cleared before a read has shown it appears all the same. -/
def afterWrite (cfg : Config) (n : Nat) (a : RegAddr) (v : Byte) (chip : Chip) (card : Card) : Chip × Card :=
  if a = cfg.aFifoData then (chip.push cfg n v, card)
  else if a = cfg.aFifoLevel then (if anyBit v cfg.mFlush then chip.flush cfg else chip, card)
  else if a = cfg.aComIrq then (chip.put cfg a (flagsAfterWrite (chip.get cfg a) v), card)
  else if a = cfg.aDivIrq then (chip.put cfg a (flagsAfterWrite (chip.get cfg a) v), card)
  else if a = cfg.aStatus2 then (chip.put cfg a (status2AfterWrite cfg (chip.get cfg a) v), card)
  else if a = cfg.aCommand then startCommand cfg n v chip card
  else if a = cfg.aBitFraming then writeFraming cfg n v chip card
  else (chip.put cfg a v, card)

/-- What a read transaction does beyond the port: a read of the FIFO port removes its oldest byte (R32, R67); reads of the two flag
registers let the next flags appear (log 14). -/
def Chip.afterRead (cfg : Config) (a : RegAddr) (c : Chip) : Chip :=
  if a = cfg.aFifoData then { c with fifo := c.fifo.tail }
  else if a = cfg.aComIrq then ({ c with comFlags := c.comFlags.tail }).put cfg a (appearing (c.get cfg a) c.comFlags)
  else if a = cfg.aDivIrq then ({ c with divFlags := c.divFlags.tail }).put cfg a (appearing (c.get cfg a) c.divFlags)
  else c

/-- The chip's own answer to a read; none for the FIFO port when the FIFO is empty (U7). -/
def Chip.answer (cfg : Config) (a : RegAddr) (c : Chip) : Option Byte :=
  if a = cfg.aFifoData then c.fifo.head?
  else if a = cfg.aFifoLevel then some (BitVec.ofNat 8 c.fifo.length)
  else if a = cfg.aComIrq then some (appearing (c.get cfg a) c.comFlags)
  else if a = cfg.aDivIrq then some (appearing (c.get cfg a) c.divFlags)
  else some (c.get cfg a)

/-! The port. -/

/-- The byte the environment answers to the next read (R62): the script's, else the reference environment's, else a free value. -/
def Port.answer (cfg : Config) (a : RegAddr) (p : Port) : Byte :=
  match p.answers, p.kind with
  | v :: _, _ => v
  | [], .free => Config.freeAnswer p.draws
  | [], .reference => (p.chip.answer cfg a).getD (Config.freeAnswer p.draws)

/-- The port after one read transaction. -/
def Port.afterRead (cfg : Config) (a : RegAddr) (p : Port) : Port :=
  { p with
    trace := p.trace ++ [.read a (p.answer cfg a)]
    answers := p.answers.tail
    draws := p.draws + 1
    chip := p.chip.afterRead cfg a }

/-- The port after one write transaction (R63). -/
def Port.afterWrite (cfg : Config) (a : RegAddr) (v : Byte) (p : Port) : Port :=
  { p with
    trace := p.trace ++ [.write a v]
    chip := (Machine.afterWrite cfg p.trace.length a v p.chip p.card).1
    card := (Machine.afterWrite cfg p.trace.length a v p.chip p.card).2 }

/-- The port after the reset pulse (R135): the two line events, no transaction, the chip at its reset values, the card unaffected (R45). -/
def Port.afterResetPulse (p : Port) : Port :=
  { p with trace := p.trace ++ [.line .low, .line .high], line := .high, chip := Chip.reset }

/-- The answer of `Draw(deadlineElapsed)` (R164, R256): the script's, else a free value. -/
def Port.deadline (p : Port) : Bool :=
  match p.deadlines with
  | d :: _ => d
  | [] => Config.freeDeadline p.draws

/-- The port after one deadline draw. -/
def Port.afterDeadline (p : Port) : Port := { p with deadlines := p.deadlines.tail, draws := p.draws + 1 }

end Sys2Proof.Machine
end

