-- ==== Sys2Proof/Machine/Ops.lean ====
section
/-! DEFINITION. The named operations over the state: updates, register-port transactions (00_scope.md R11), draws, buffers, ending an
operation (60_exceptions.md R240), refusing a request (R259, R260) and serving one. -/
namespace Sys2Proof.Machine

/-! Updates, one per field. -/

def State.withPc (s : State) (pc : Pc) : State := { s with pc := pc }
def State.withRegs (s : State) (regs : Regs) : State := { s with regs := regs }
def State.withTx (s : State) (tx : List Byte) : State := { s with tx := tx }
def State.withRx (s : State) (rx : List Byte) : State := { s with rx := rx }
def State.withReply (s : State) (reply : Reply) : State := { s with reply := reply }
def State.withInbox (s : State) (inbox : List Request) : State := { s with inbox := inbox }
def State.withPort (s : State) (port : Port) : State := { s with port := port }

/-! The sequencer (R24). -/

/-- Go on to another label of the operation in progress. -/
def State.goto (step : Nat) (s : State) : State := s.withPc (s.pc.goto step)

/-- Run an operation as a call: it begins at its first label, and when it returns control is where it was (R24, R240). -/
def State.call (op : Instr) (body : State → State) (s : State) : State := (body (s.withPc (s.pc.enter op))).withPc s.pc

/-! Register-port transactions. -/

/-- The byte `MemRead(a, 1)` returns in this state (R11, R62). -/
def State.answer (s : State) (a : RegAddr) : Byte := s.port.answer s.cfg a

/-- The state after `MemRead(a, 1)` (R11). -/
def State.afterRead (s : State) (a : RegAddr) : State := s.withPort (s.port.afterRead s.cfg a)

/-- `MemWrite(a, 1, v)` (R11, R63). -/
def State.write (s : State) (a : RegAddr) (v : Byte) : State := s.withPort (s.port.afterWrite s.cfg a v)

/-- `setBits`: one read, then one write of `v | mask`, always both (R133). -/
def State.setBits (s : State) (a : RegAddr) (mask : Byte) : State := (s.afterRead a).write a (s.answer a ||| mask)

/-- `clearBits`: one read, then one write of `v & ~mask`, always both (R134). -/
def State.clearBits (s : State) (a : RegAddr) (mask : Byte) : State := (s.afterRead a).write a (s.answer a &&& ~~~mask)

/-- Load bytes into the chip's FIFO in order (R143, R206). -/
def State.loadFifo (s : State) : List Byte → State
  | [] => s
  | b :: bs => (s.write s.cfg.aFifoData b).loadFifo bs

/-- Drain `n` bytes of the chip's FIFO into `RX`, in order (R147). -/
def State.drainFifo (s : State) : Nat → State
  | 0 => s
  | n + 1 => ((s.afterRead s.cfg.aFifoData).withRx (s.rx ++ [s.answer s.cfg.aFifoData])).drainFifo n

/-! Ending an operation. -/

/-- Record a status with its cause (R237, R240: nothing else is saved and control goes nowhere). -/
def State.raise (s : State) (status : Status) (cause : Cause) : State :=
  s.withRegs { s.regs with status := status, cause := cause }

/-- End an operation with a result: the sequencer is idle again (R24, R240). -/
def State.finish (s : State) (reply : Reply) : State := (s.withReply reply).withPc .idle

/-- Refuse a request: `REFUSED` is told, nothing else happens (R14, R259, R260). -/
def State.refuse (s : State) (cause : RefuseCause) : State := s.withReply (.refused cause)

/-- What a request meets before it runs: a busy controller (R259), a configuration that is not valid (R260), operands out of range
(R76). The first that applies is told (DESIGN CHOICE, log 9; safe). -/
def State.gate (s : State) (i : Instr) : Option RefuseCause :=
  if s.pc ≠ .idle then some .busy
  else if s.cfg.valid = false then some .badConfig
  else refusal i

/-- Serve a request: refused at the gate with nothing done, or its operation runs. -/
def State.serve (s : State) (i : Instr) (body : State → State) : State :=
  match s.gate i with
  | some cause => s.refuse cause
  | none => body s

end Sys2Proof.Machine
end

