-- ==== Sys2Proof/Machine/AccessBits.lean ====
section
/-! DEFINITION. The access-bits permission codec and the sector trailer (46_access_bits.md R215 to R224): no transaction, no working register. -/
namespace Sys2Proof.Machine

/-- ACENC (R218). -/
def execAcenc (c0 c1 c2 c3 user : Byte) (s : State) : Host.Outcome State Fault Refusal :=
  .next (s.serve (.acenc c0 c1 c2 c3 user) fun s => s.finish (.bytes (encodeWord (toWord c0 c1 c2 c3 user))))

/-- ACDEC (R219). -/
def execAcdec (b0 b1 b2 b3 : Byte) (s : State) : Host.Outcome State Fault Refusal :=
  .next (s.serve (.acdec b0 b1 b2 b3) fun s => s.finish (.word (decodeWord b0 b1 b2 b3)))

/-- ACSETB (R221). -/
def execAcsetb (c0 c1 c2 c3 user block bitIndex value : Byte) (s : State) : Host.Outcome State Fault Refusal :=
  .next (s.serve (.acsetb c0 c1 c2 c3 user block bitIndex value) fun s =>
    s.finish (.word (setWordBit (toWord c0 c1 c2 c3 user) block bitIndex value)))

/-- ACCHK (R220); byte 3 is not looked at. -/
def execAcchk (b0 b1 b2 b3 : Byte) (s : State) : Host.Outcome State Fault Refusal :=
  .next (s.serve (.acchk b0 b1 b2 b3) fun s => s.finish (.bit (wordConsistent b0 b1 b2)))

/-- TRPACK (R222). -/
def execTrpack (keyA : List Byte) (c0 c1 c2 c3 user : Byte) (keyB : List Byte) (s : State) : Host.Outcome State Fault Refusal :=
  .next (s.serve (.trpack keyA c0 c1 c2 c3 user keyB) fun s =>
    s.finish (.bytes (packTrailer ⟨⟨.a, keyA⟩, toWord c0 c1 c2 c3 user, ⟨.b, keyB⟩⟩)))

/-- TRUNPK (R223). The gate lets only 16 bytes through, which always have a trailer. -/
def execTrunpk (bytes : List Byte) (s : State) : Host.Outcome State Fault Refusal :=
  .next (s.serve (.trunpk bytes) fun s =>
    match unpackTrailer bytes with
    | some t => s.finish (.trailer t)
    | none => s.refuse .badData)

end Sys2Proof.Machine
end

