-- ==== Sys2Proof/Machine/Transceiver.lean ====
section
/-! DEFINITION. The transceiver command engine (41_transceiver.md R140 to R151), step by step, the sequencer at the labels of R140. -/
namespace Sys2Proof.Machine

/-- T1 (R141, R23): masks by chip command, result initialised. -/
def selectMasks (cmd : Byte) (s : State) : State :=
  (s.withRegs
    { s.regs with
      irqen := enableMask s.cfg cmd
      wait := waitMask s.cfg cmd
      status := .error
      cause := .exhausted
      bitLen := 0#12 }).withRx []

/-- T2, first half (R142): arm, clear pending, flush, idle. -/
def armAndFlush (s : State) : State :=
  (((s.write s.cfg.aComIEn (s.regs.irqen ||| s.cfg.mIrqInv)).clearBits s.cfg.aComIrq s.cfg.mIrqClr).setBits
    s.cfg.aFifoLevel s.cfg.mFlush).write s.cfg.aCommand s.cfg.cmdIdle

/-- T2, second half (R143): load `TX`, issue the command, start send for TRANSCEIVE. -/
def issueCommand (cmd : Byte) (s : State) : State :=
  let s := (s.loadFifo s.tx).write s.cfg.aCommand cmd
  if cmd = s.cfg.cmdTransceive then s.setBits s.cfg.aBitFraming s.cfg.mStartSend else s

/-- One iteration of the poll loop (R144): a read into `x[N]`, and the counter down by one. -/
def pollIrqOnce (s : State) : State :=
  (s.afterRead s.cfg.aComIrq).withRegs { s.regs with n := s.answer s.cfg.aComIrq, i := s.regs.i - 1#11 }

/-- T3, the loop (R144): until the counter is 0, the timer bit or a wait bit is set in the sample. The number of iterations left bounds
the recursion and equals the counter. -/
def pollIrqLoop : Nat → State → State
  | 0, s => s
  | k + 1, s =>
    let s := pollIrqOnce s
    if s.regs.i = 0#11 ∨ endsPoll s.regs.n s.regs.wait then s else pollIrqLoop k s

/-- T3 (R144). -/
def pollIrq (s : State) : State := pollIrqLoop pollBudget (s.withRegs { s.regs with i := BitVec.ofNat 11 pollBudget })

/-- T4 (R145): clear start send, for every command and on every exit. -/
def stopSend (s : State) : State := s.clearBits s.cfg.aBitFraming s.cfg.mStartSend

/-- T5 when the loop was not exhausted (R146): read the error register, decide status and cause. -/
def decideStatus (s : State) : State :=
  let e := s.answer s.cfg.aError
  let outcome := transceiveOutcome s.regs.n s.regs.irqen e
  (s.afterRead s.cfg.aError).withRegs { s.regs with e := e, status := outcome.1, cause := outcome.2 }

/-- T6, the lengths (R147): the level first, then the control register. -/
def sampleLengths (s : State) : State :=
  let lvl := s.answer s.cfg.aFifoLevel
  let s := s.afterRead s.cfg.aFifoLevel
  let lb := lastBits (s.answer s.cfg.aControl)
  (s.afterRead s.cfg.aControl).withRegs { s.regs with lvl := lvl, lb := lb, bitLen := BitVec.ofInt 12 (answerBits lvl lb) }

/-- T6 (R147): lengths, then the drain. -/
def receive (s : State) : State :=
  let s := sampleLengths s
  s.drainFifo (drainCount s.regs.lvl)

/-- T5 and T6 (R146, R147): nothing more on exhaustion; the drain for TRANSCEIVE with a status other than ERROR. -/
def concludeTransceive (cmd : Byte) (s : State) : State :=
  let s := s.goto 5
  if s.regs.i = 0#11 then s
  else
    let s := decideStatus s
    if s.regs.status ≠ .error ∧ cmd = s.cfg.cmdTransceive then receive (s.goto 6) else s

/-- T1 to T4: the operand bytes into `TX`, and everything a transceive does before it looks at the outcome. -/
def runCommand (cmd : Byte) (out : List Byte) (s : State) : State :=
  let s := selectMasks cmd ((s.withTx out).goto 1)
  let s := issueCommand cmd (armAndFlush (s.goto 2))
  let s := pollIrq (s.goto 3)
  stopSend (s.goto 4)

/-- `transceive` (R140), T1 to T6. Its result stands in `x[STATUS]`, `RX` and `x[BITLEN]`. -/
def transceive (cmd : Byte) (out : List Byte) (s : State) : State :=
  s.call (.xcv cmd out) fun s => concludeTransceive cmd (runCommand cmd out s)

/-- `authenticateCommand` (R148): "XCV with `command = CMD_AUTHENT`", the same labels run under its own name (log 6). -/
def authenticateCommand (out : List Byte) (s : State) : State :=
  s.call (.authcmd out) fun s => concludeTransceive s.cfg.cmdAuthent (runCommand s.cfg.cmdAuthent out s)

/-- The TransceiveResult a transceive leaves (R43). -/
def transceiveResult (s : State) : Reply := .transceive s.regs.status s.rx s.regs.bitLen.toInt

/-- XCV (R140). -/
def execXcv (cmd : Byte) (out : List Byte) (s : State) : Host.Outcome State Fault Refusal :=
  .next (s.serve (.xcv cmd out) fun s => let t := transceive cmd out s; t.finish (transceiveResult t))

/-- AUTHCMD (R148). -/
def execAuthcmd (out : List Byte) (s : State) : Host.Outcome State Fault Refusal :=
  .next (s.serve (.authcmd out) fun s => let t := authenticateCommand out s; t.finish (.status t.regs.status))

end Sys2Proof.Machine
end

