-- ==== Sys2Proof/Machine/Anticollision.lean ====
section
/-! DEFINITION. Presence polling and the UID anti-collision validator (42_anticollision.md R160 to R164). -/
namespace Sys2Proof.Machine

/-- A status OK is demoted when a test on the answer fails; any other status stands (R243). -/
def State.demoteUnless (s : State) (test : Bool) (status : Status) (cause : Cause) : State :=
  if s.regs.status = .ok ∧ test = false then s.raise status cause else s

/-- `requestPresence` (R161): short framing, the REQUEST frame, exactly 16 bits or no card. -/
def requestPresence (s : State) : State := s.call .reqp fun s =>
  let s := transceive s.cfg.cmdTransceive (requestFrame s.cfg) (s.write s.cfg.aBitFraming s.cfg.framingShort)
  s.demoteUnless (s.regs.bitLen == atqaBits) .noTag .lengthMismatch

/-- `resolveUID` (R162): byte framing, the ANTICOLLISION frame, exactly 5 bytes of which the last is the checksum. -/
def resolveUid (s : State) : State := s.call .acoll fun s =>
  let s := transceive s.cfg.cmdTransceive (anticollisionFrame s.cfg .one) (s.write s.cfg.aBitFraming s.cfg.framingByte)
  let s := s.demoteUnless (s.rx.length == uidRespBytes) .error .lengthMismatch
  s.demoteUnless (checksumOk s.rx) .error .checksumMismatch

/-- What UIDCHK answers (R163): the identifier or the failure. -/
def identifierReply (raw : List Byte) : Reply :=
  match identifierFailure raw with
  | none => .identifier raw
  | some cause => .fail cause

/-- After a failed attempt of POLL (R164): ask the deadline; end with "no card", or stay in POLL for the next attempt (the delay changes
nothing, R254). -/
def retryOrEnd (s : State) : State :=
  let t := s.withPort s.port.afterDeadline
  if s.port.deadline then t.finish .noCard else (t.withReply .pending).withPc .poll

/-- One attempt of POLL (R164): REQP, then ACOLL if it succeeded, then UIDCHK of its bytes. -/
def pollAttempt (s : State) : State :=
  let s := requestPresence (s.withPc .poll)
  if s.regs.status = .ok then
    let s := resolveUid s
    if s.regs.status = .ok then s.finish (identifierReply s.rx) else retryOrEnd s
  else retryOrEnd s

/-- REQP (R161). -/
def execReqp (s : State) : Host.Outcome State Fault Refusal :=
  .next (s.serve .reqp fun s => let t := requestPresence s; t.finish (.status t.regs.status))

/-- ACOLL (R162): the bytes are returned as drained, whatever the status. -/
def execAcoll (s : State) : Host.Outcome State Fault Refusal :=
  .next (s.serve .acoll fun s => let t := resolveUid s; t.finish (.statusBytes t.regs.status t.rx))

/-- UIDCHK (R163): no transaction, no register. -/
def execUidchk (raw : List Byte) (s : State) : Host.Outcome State Fault Refusal :=
  .next (s.serve (.uidchk raw) fun s => s.finish (identifierReply raw))

/-- POLL (R164): its first attempt; a failed attempt whose deadline has not elapsed leaves the sequencer in POLL, and the next step makes
the next attempt (log 7). -/
def execPoll (s : State) : Host.Outcome State Fault Refusal := .next (s.serve .poll pollAttempt)

end Sys2Proof.Machine
end

