-- ==== Sys2Proof/Machine/Crc.lean ====
section
/-! DEFINITION. The CRC-16 generator driver (45_crc16.md R205 to R211), the sequencer at the labels of R205. -/
namespace Sys2Proof.Machine

/-- C1 to C4 (R206): clear the CRC-done flag, flush, load `TX`, issue CALC-CRC. -/
def startCrc (s : State) : State :=
  let s := s.clearBits s.cfg.aDivIrq s.cfg.mCrcDone
  let s := (s.goto 2).setBits s.cfg.aFifoLevel s.cfg.mFlush
  (((s.goto 3).loadFifo s.tx).goto 4).write s.cfg.aCommand s.cfg.cmdCalcCrc

/-- One iteration of the CRC-done poll (R207). -/
def pollCrcOnce (s : State) : State :=
  (s.afterRead s.cfg.aDivIrq).withRegs { s.regs with n := s.answer s.cfg.aDivIrq, i := s.regs.i - 1#11 }

/-- C5, the loop (R207): until the counter is 0 or the done flag is set in the sample. -/
def pollCrcLoop : Nat → State → State
  | 0, s => s
  | k + 1, s =>
    let s := pollCrcOnce s
    if s.regs.i = 0#11 ∨ anyBit s.regs.n s.cfg.mCrcDone then s else pollCrcLoop k s

/-- C5 (R207): the poll, then `x[CRCTO]` from the last sample. -/
def pollCrc (s : State) : State :=
  let s := pollCrcLoop crcBudget (s.withRegs { s.regs with i := BitVec.ofNat 11 crcBudget })
  s.withRegs { s.regs with crcTo := !anyBit s.regs.n s.cfg.mCrcDone }

/-- C6 (R208): the low result register, then the high one. -/
def readCrc (s : State) : State :=
  let lo := s.answer s.cfg.aCrcResultL
  let s := s.afterRead s.cfg.aCrcResultL
  let hi := s.answer s.cfg.aCrcResultH
  (s.afterRead s.cfg.aCrcResultH).withRegs { s.regs with crcLo := lo, crcHi := hi }

/-- `computeCRC` (R205): the operand bytes into `TX`, `x[CRCTO]` cleared (R23), then C1 to C6. Its result stands in `x[CRCLO]`, `x[CRCHI]`. -/
def computeCrc (bytes : List Byte) (s : State) : State :=
  s.call (.crc bytes) fun s =>
    let s := startCrc ((s.withTx bytes).withRegs { s.regs with crcTo := false })
    let s := pollCrc (s.goto 5)
    readCrc (s.goto 6)

/-- The CRC16 suffix that the last `computeCRC` gives a frame (R105, R64 b). -/
def crcSuffix (s : State) : List Byte := [s.regs.crcLo, s.regs.crcHi]

/-- CRC (R205). -/
def execCrc (bytes : List Byte) (s : State) : Host.Outcome State Fault Refusal :=
  .next (s.serve (.crc bytes) fun s => let t := computeCrc bytes s; t.finish (.pair t.regs.crcLo t.regs.crcHi))

end Sys2Proof.Machine
end

