-- ==== Sys2Proof/Machine/Authentication.lean ====
section
/-! DEFINITION. The sector authentication handshake engine (43_authentication.md R175 to R181). -/
namespace Sys2Proof.Machine

/-- A frame with its CRC suffix, exchanged: `computeCRC` over it, then `transceive` of frame and suffix (R105, R211). -/
def exchangeWithCrc (frame : List Byte) (s : State) : State :=
  let s := computeCrc frame s
  transceive s.cfg.cmdTransceive (frame ++ crcSuffix s) s

/-- `selectCard` (R176): the SELECT frame exchanged; OK with a length other than 24 bits keeps its status and takes a cause. -/
def selectCard (id : List Byte) (s : State) : State := s.call (.select id) fun s =>
  let s := exchangeWithCrc (selectFrame s.cfg id) s
  s.demoteUnless (s.regs.bitLen == sakBits) .ok .lengthMismatch

/-- The select acknowledge (R176): the first byte received, with status OK and 24 bits; else 0. -/
def selectAck (s : State) : Byte :=
  match s.rx with
  | v :: _ => if s.regs.status = .ok ∧ s.regs.bitLen = sakBits then v else 0x00#8
  | [] => 0x00#8

/-- `authenticate` (R178): the AUTHENT frame with the first four identifier bytes, then the status-2 read on every path, then the
downgrade. -/
def authenticate (id : List Byte) (slot : Slot) (block : Byte) (key : List Byte) (s : State) : State :=
  s.call (.auth id (slotByte slot) block key) fun s =>
  let s := authenticateCommand (authFrame s.cfg slot block key (id.take 4)) s
  let s2 := s.answer s.cfg.aStatus2
  let s := (s.afterRead s.cfg.aStatus2).withRegs { s.regs with s2 := s2 }
  s.demoteUnless (anyBit s2 s.cfg.mCrypto1On) .error .notAuthenticated

/-- `stopCrypto` (R180): clear the crypto1-on bit, two transactions always. -/
def stopCrypto (s : State) : State := s.call .stopc fun s => s.clearBits s.cfg.aStatus2 s.cfg.mCrypto1On

/-- `authenticateSector` (R181): SELECT, then AUTH if the acknowledge is not 0. -/
def authenticateSector (id : List Byte) (slot : Slot) (block : Byte) (key : List Byte) (s : State) : State :=
  s.call (.authsec id (slotByte slot) block key) fun s =>
  let s := selectCard id s
  if selectAck s = 0x00#8 then s.raise .error .notAuthenticated else authenticate id slot block key s

/-- SELECT (R176). -/
def execSelect (id : List Byte) (s : State) : Host.Outcome State Fault Refusal :=
  .next (s.serve (.select id) fun s => let t := selectCard id s; t.finish (.byte (selectAck t)))

/-- AUTH (R178). -/
def execAuth (id : List Byte) (slot blockAddr : Byte) (key : List Byte) (s : State) : Host.Outcome State Fault Refusal :=
  .next (s.serve (.auth id slot blockAddr key) fun s =>
    let t := authenticate id (toSlot slot) blockAddr key s; t.finish (.status t.regs.status))

/-- STOPC (R180). -/
def execStopc (s : State) : Host.Outcome State Fault Refusal := .next (s.serve .stopc fun s => (stopCrypto s).finish .done)

/-- AUTHSEC (R181). -/
def execAuthsec (id : List Byte) (slot blockAddr : Byte) (key : List Byte) (s : State) : Host.Outcome State Fault Refusal :=
  .next (s.serve (.authsec id slot blockAddr key) fun s =>
    let t := authenticateSector id (toSlot slot) blockAddr key s; t.finish (.status t.regs.status))

end Sys2Proof.Machine
end

