-- ==== Sys2Proof/Machine/BlockIO.lean ====
section
/-! DEFINITION. Block read and write (44_block_io.md R190 to R195). -/
namespace Sys2Proof.Machine

/-- `BLOCK_BYTES` (R6). -/
def blockBytes : Nat := 16

/-- `readBlock` (R191): the READ frame exchanged; OK with a count other than 16 keeps its status and takes a cause. -/
def readBlock (block : Byte) (s : State) : State := s.call (.rdblk block) fun s =>
  let s := exchangeWithCrc (readFrame s.cfg block) s
  s.demoteUnless (s.rx.length == blockBytes) .ok .lengthMismatch

/-- The block a `readBlock` returns: 16 bytes with status OK, else absent (R191). -/
def blockRead (s : State) : Option (List Byte) :=
  if s.regs.status = .ok ∧ s.rx.length = blockBytes then some s.rx else none

/-- The acknowledge test of the exchange just made (R193). -/
def State.isAcked (s : State) : Bool := acked s.regs.status s.regs.bitLen s.rx

/-- A phase that was not acknowledged fails the write: ERROR, with the transceive's cause if its status was not OK, else AckMismatch (R192). -/
def failWrite (s : State) : State := s.raise .error (if s.regs.status = .ok then .ackMismatch else s.regs.cause)

/-- `writeBlock` (R192): the WRITE frame, and, acknowledged, the data frame. -/
def writeBlock (block : Byte) (data : List Byte) (s : State) : State := s.call (.wrblk block data) fun s =>
  let s := exchangeWithCrc (writeFrame s.cfg block) s
  if s.isAcked then
    let s := exchangeWithCrc data s
    if s.isAcked then s else failWrite s
  else failWrite s

/-- Blocks read one after the other, a failed one skipped: the bytes read and the state after (R194). -/
def readBlocks : List Byte → List Byte → State → List Byte × State
  | [], out, s => (out, s)
  | block :: blocks, out, s =>
    let s := readBlock block s
    readBlocks blocks (out ++ (blockRead s).getD []) s

/-- The sector read (R194): authenticate against the trailer's address; on OK read base, base+1, base+2; STOPC on every path. -/
def readSector (id : List Byte) (slot : Slot) (base : Byte) (key : List Byte) (s : State) : List Byte × State :=
  let t := authenticateSector id slot (base + 3#8) key (s.withPc (s.pc.enter (.rdsec id (slotByte slot) base key)))
  let r := if t.regs.status = .ok then readBlocks [base, base + 1#8, base + 2#8] [] t else ([], t)
  (r.1, (stopCrypto r.2).withPc s.pc)

/-- RDBLK (R191). -/
def execRdblk (blockAddr : Byte) (s : State) : Host.Outcome State Fault Refusal :=
  .next (s.serve (.rdblk blockAddr) fun s =>
    let t := readBlock blockAddr s
    t.finish (match blockRead t with | some bytes => .block bytes | none => .absent))

/-- WRBLK (R192). -/
def execWrblk (blockAddr : Byte) (data : List Byte) (s : State) : Host.Outcome State Fault Refusal :=
  .next (s.serve (.wrblk blockAddr data) fun s => let t := writeBlock blockAddr data s; t.finish (.status t.regs.status))

/-- RDSEC (R194). -/
def execRdsec (id : List Byte) (slot base : Byte) (key : List Byte) (s : State) : Host.Outcome State Fault Refusal :=
  .next (s.serve (.rdsec id slot base key) fun s =>
    let r := readSector id (toSlot slot) base key s; r.2.finish (.bytes r.1))

end Sys2Proof.Machine
end

