-- ==== Sys2Proof/Machine/CardFrames.lean ====
section
/-! DEFINITION. The seven card frames (30_encoding.md R94, R97 to R102): a frame built, given its CRC suffix where it has one, and
exchanged as the operations that use it exchange it; the answer is returned unjudged (log 11, log 27). -/
namespace Sys2Proof.Machine

/-- Set the bit framing, then exchange a frame without a CRC suffix under TRANSCEIVE (R97, R98, R161, R162). -/
def sendFrame (op : Instr) (framing : Byte) (frame : List Byte) (s : State) : State :=
  let t := s.call op fun s => transceive s.cfg.cmdTransceive frame (s.write s.cfg.aBitFraming framing)
  t.finish (transceiveResult t)

/-- Exchange a frame with its CRC suffix (R105). -/
def sendFrameWithCrc (op : Instr) (frame : List Byte) (s : State) : State :=
  let t := s.call op (exchangeWithCrc frame)
  t.finish (transceiveResult t)

/-- Give an AUTHENT frame to the chip (R100, R148). -/
def sendAuthFrame (op : Instr) (frame : List Byte) (s : State) : State :=
  let t := s.call op (authenticateCommand frame)
  t.finish (.status t.regs.status)

/-- REQUEST (R97): "sent with bit framing `FRAMING_SHORT`". -/
def execRequest (s : State) : Host.Outcome State Fault Refusal :=
  .next (s.serve .request fun s => sendFrame .request s.cfg.framingShort (requestFrame s.cfg) s)

/-- ANTICOLLISION (R98): `K_ANTICOLL`, `K_CASCADE`, byte-aligned. -/
def execAnticollision (level : CascadeLevel) (s : State) : Host.Outcome State Fault Refusal :=
  .next (s.serve (.anticollision level) fun s =>
    sendFrame (.anticollision level) s.cfg.framingByte (anticollisionFrame s.cfg level) s)

/-- SELECT_CARD (R99). -/
def execSelectCard (id : List Byte) (s : State) : Host.Outcome State Fault Refusal :=
  .next (s.serve (.selectCard id) fun s => sendFrameWithCrc (.selectCard id) (selectFrame s.cfg id) s)

/-- AUTH_A (R100, R116). -/
def execAuthA (blockAddr : Byte) (key uid : List Byte) (s : State) : Host.Outcome State Fault Refusal :=
  .next (s.serve (.authA blockAddr key uid) fun s =>
    sendAuthFrame (.authA blockAddr key uid) (authFrame s.cfg .a blockAddr key uid) s)

/-- AUTH_B (R100, R116). -/
def execAuthB (blockAddr : Byte) (key uid : List Byte) (s : State) : Host.Outcome State Fault Refusal :=
  .next (s.serve (.authB blockAddr key uid) fun s =>
    sendAuthFrame (.authB blockAddr key uid) (authFrame s.cfg .b blockAddr key uid) s)

/-- READ (R101). -/
def execRead (blockAddr : Byte) (s : State) : Host.Outcome State Fault Refusal :=
  .next (s.serve (.read blockAddr) fun s => sendFrameWithCrc (.read blockAddr) (readFrame s.cfg blockAddr) s)

/-- WRITE, the command frame of phase 1 (R102). -/
def execWrite (blockAddr : Byte) (s : State) : Host.Outcome State Fault Refusal :=
  .next (s.serve (.write blockAddr) fun s => sendFrameWithCrc (.write blockAddr) (writeFrame s.cfg blockAddr) s)

end Sys2Proof.Machine
end

