-- ==== Sys2Proof/Machine/ChipCommands.lean ====
section
/-! DEFINITION. The four chip commands (30_encoding.md R92): a code written whole to the command register, as the engine writes it
(41_transceiver.md R142, R143, R148; 45_crc16.md R206). No working register changes (log 11). -/
namespace Sys2Proof.Machine

/-- Write a chip command code to the command register (R26, R92). -/
def State.command (s : State) (code : Byte) : State := s.write s.cfg.aCommand code

/-- IDLE: "set the chip to idle" (R142). -/
def execIdle (s : State) : Host.Outcome State Fault Refusal :=
  .next (s.serve .idle fun s => (s.call .idle (·.command s.cfg.cmdIdle)).finish .done)

/-- CALCCRC: "issues the CALC-CRC command" (R206). -/
def execCalccrc (s : State) : Host.Outcome State Fault Refusal :=
  .next (s.serve .calccrc fun s => (s.call .calccrc (·.command s.cfg.cmdCalcCrc)).finish .done)

/-- TRANSCEIVE: the command, then the start-send bit (R143). -/
def execTransceive (s : State) : Host.Outcome State Fault Refusal :=
  .next (s.serve .transceive fun s =>
    (s.call .transceive fun s => (s.command s.cfg.cmdTransceive).setBits s.cfg.aBitFraming s.cfg.mStartSend).finish .done)

/-- AUTHENT: the command; no start-send bit (R143, R148). -/
def execAuthent (s : State) : Host.Outcome State Fault Refusal :=
  .next (s.serve .authent fun s => (s.call .authent (·.command s.cfg.cmdAuthent)).finish .done)

end Sys2Proof.Machine
end

