-- ==== Sys2Proof/Machine/RegisterPort.lean ====
section
/-! DEFINITION. Register port and bit-mask operations (40_register_port.md R131 to R135). -/
namespace Sys2Proof.Machine

/-- RDREG (R131). -/
def readRegister (addr : Byte) (s : State) : State :=
  (s.call (.rdreg addr) (·.afterRead (toAddr addr))).finish (.byte (s.answer (toAddr addr)))

/-- WRREG (R132). -/
def writeRegister (addr value : Byte) (s : State) : State :=
  (s.call (.wrreg addr value) (·.write (toAddr addr) value)).finish .done

/-- RSTP (R135): the line low then high; the chip is reset; the working registers keep no value, so each is a free value (log 5), and no
buffer cell holds one. -/
def resetPulse (s : State) : State :=
  let port := s.port.afterResetPulse
  (s.call .rstp fun s =>
    (((s.withPort { port with draws := port.draws + 1 }).withRegs (lostRegs s.port.draws)).withTx []).withRx []).finish .done

def execRdreg (addr : Byte) (s : State) : Host.Outcome State Fault Refusal := .next (s.serve (.rdreg addr) (readRegister addr))

def execWrreg (addr value : Byte) (s : State) : Host.Outcome State Fault Refusal :=
  .next (s.serve (.wrreg addr value) (writeRegister addr value))

/-- SETB (R133). -/
def execSetb (addr mask : Byte) (s : State) : Host.Outcome State Fault Refusal :=
  .next (s.serve (.setb addr mask) fun s => (s.call (.setb addr mask) (·.setBits (toAddr addr) mask)).finish .done)

/-- CLRB (R134). -/
def execClrb (addr mask : Byte) (s : State) : Host.Outcome State Fault Refusal :=
  .next (s.serve (.clrb addr mask) fun s => (s.call (.clrb addr mask) (·.clearBits (toAddr addr) mask)).finish .done)

def execRstp (s : State) : Host.Outcome State Fault Refusal := .next (s.serve .rstp resetPulse)

end Sys2Proof.Machine
end

