-- ==== Sys2Proof/Machine/Dispatch.lean ====
section
/-! DEFINITION. One arm per operation of spec/opcode_table.json. -/
namespace Sys2Proof.Machine

def exec (i : Instr) (s : State) : Host.Outcome State Fault Refusal :=
  match i with
  | .rdreg addr => Sys2Proof.Machine.execRdreg addr s
  | .wrreg addr value => Sys2Proof.Machine.execWrreg addr value s
  | .setb addr mask => Sys2Proof.Machine.execSetb addr mask s
  | .clrb addr mask => Sys2Proof.Machine.execClrb addr mask s
  | .rstp => Sys2Proof.Machine.execRstp s
  | .xcv cmd out => Sys2Proof.Machine.execXcv cmd out s
  | .authcmd out => Sys2Proof.Machine.execAuthcmd out s
  | .reqp => Sys2Proof.Machine.execReqp s
  | .acoll => Sys2Proof.Machine.execAcoll s
  | .uidchk raw => Sys2Proof.Machine.execUidchk raw s
  | .poll => Sys2Proof.Machine.execPoll s
  | .select id => Sys2Proof.Machine.execSelect id s
  | .auth id slot blockAddr key => Sys2Proof.Machine.execAuth id slot blockAddr key s
  | .stopc => Sys2Proof.Machine.execStopc s
  | .authsec id slot blockAddr key => Sys2Proof.Machine.execAuthsec id slot blockAddr key s
  | .rdblk blockAddr => Sys2Proof.Machine.execRdblk blockAddr s
  | .wrblk blockAddr data => Sys2Proof.Machine.execWrblk blockAddr data s
  | .rdsec id slot base key => Sys2Proof.Machine.execRdsec id slot base key s
  | .crc bytes => Sys2Proof.Machine.execCrc bytes s
  | .acenc c0 c1 c2 c3 user => Sys2Proof.Machine.execAcenc c0 c1 c2 c3 user s
  | .acdec b0 b1 b2 b3 => Sys2Proof.Machine.execAcdec b0 b1 b2 b3 s
  | .acsetb c0 c1 c2 c3 user block bitIndex value => Sys2Proof.Machine.execAcsetb c0 c1 c2 c3 user block bitIndex value s
  | .acchk b0 b1 b2 b3 => Sys2Proof.Machine.execAcchk b0 b1 b2 b3 s
  | .trpack keyA c0 c1 c2 c3 user keyB => Sys2Proof.Machine.execTrpack keyA c0 c1 c2 c3 user keyB s
  | .trunpk bytes => Sys2Proof.Machine.execTrunpk bytes s
  | .idle => Sys2Proof.Machine.execIdle s
  | .calccrc => Sys2Proof.Machine.execCalccrc s
  | .transceive => Sys2Proof.Machine.execTransceive s
  | .authent => Sys2Proof.Machine.execAuthent s
  | .request => Sys2Proof.Machine.execRequest s
  | .anticollision level => Sys2Proof.Machine.execAnticollision level s
  | .selectCard id => Sys2Proof.Machine.execSelectCard id s
  | .authA blockAddr key uid => Sys2Proof.Machine.execAuthA blockAddr key uid s
  | .authB blockAddr key uid => Sys2Proof.Machine.execAuthB blockAddr key uid s
  | .read blockAddr => Sys2Proof.Machine.execRead blockAddr s
  | .write blockAddr => Sys2Proof.Machine.execWrite blockAddr s

end Sys2Proof.Machine
end

