-- ==== Sys2Proof/Machine/Fetch.lean ====
section
/-! DEFINITION. How a request comes to run: what one step finds to do (10_state.md R24, 60_exceptions.md R257, R259), and the placing of a
table word as the next request. -/
namespace Sys2Proof.Machine

/-- What a step finds to do. -/
inductive Fetched where
  /-- idle, and no request has been presented (R265); also at any position a step never leaves the sequencer at (log 6) -/
  | wait
  /-- inside POLL: make the next attempt (R164) -/
  | attempt
  /-- a request is refused (R115, R259) -/
  | refuse (cause : RefuseCause) (s : State)
  /-- a request is taken and its operation runs -/
  | run (i : Instr) (s : State)

/-- The running operation goes on: POLL with its next attempt (R164). -/
def goOn (pc : Pc) : Fetched := if pc = .poll then .attempt else .wait

/-- Idle, the oldest request is taken and decoded (R91, R115). Inside an operation, a request whose presenter did not wait is refused (R259),
and otherwise the operation goes on. -/
def fetch (s : State) : Fetched :=
  match s.pc, s.inbox with
  | .idle, [] => .wait
  | .idle, r :: rest =>
    match decode s.cfg r.fmt r.bytes with
    | .ok i => .run i (s.withInbox rest)
    | .error cause => .refuse cause (s.withInbox rest)
  | .run _ _, [] => goOn s.pc
  | .run _ _, r :: rest => if r.waits then goOn s.pc else .refuse .busy (s.withInbox rest)

/-- Present a request so that the very next step takes it: at the head of the inbox of an idle controller. -/
def State.present (s : State) (r : Request) : State := (s.withInbox (r :: s.inbox)).withPc .idle

/-- Present the request a table word stands for (log 10, log 12). -/
def State.presentWord (s : State) (nbits w : Nat) : State := s.present (tableRequest s.cfg nbits w)

/-- The requests of BOOT_CONFIG, which the host presents after RSTP (R268). -/
def bootRequests (cfg : Config) : List Request :=
  cfg.bootConfig.map fun
    | .write a v => ⟨.host, true, encode cfg (.wrreg (a.setWidth 8) v)⟩
    | .set a m => ⟨.host, true, encode cfg (.setb (a.setWidth 8) m)⟩

end Sys2Proof.Machine
end

