-- ==== Sys2Proof/Machine/Step.lean ====
section
/-! DEFINITION. One step: a request served from start to end, a request refused, one attempt of POLL, or waiting (10_state.md R24). -/
namespace Sys2Proof.Machine

/-- One step of the controller. -/
def step (s : State) : Host.Outcome State Fault Refusal :=
  match fetch s with
  | .wait => .next s
  | .attempt => .next (pollAttempt s)
  | .refuse cause s => .next (s.refuse cause)
  | .run i s => exec i s

/-- The state in which the next step runs the operation of a table word. -/
def State.withFetchWord (s : State) (nbits w : Nat) : State := s.presentWord nbits w

end Sys2Proof.Machine
end

