-- ==== Sys2Proof/Safety.lean ====
section
/-! DEFINITION. The terms claims are stated in: the invariant, transactions counted, what the operations of the core may touch, and the
transcripts of the engine (00_scope.md R12). -/
namespace Sys2Proof

/-- The operations of the register port, which name their address themselves (R130); every other operation is of the core. -/
def Instr.ofCore : Instr → Bool
  | .rdreg _ | .wrreg _ _ | .setb _ _ | .clrb _ _ | .rstp => false
  | _ => true

/-- An identifier operand of SELECT, AUTH, AUTHSEC and RDSEC: four UID bytes and their exclusive or (R76, R241). -/
def IdentifierOk (id : List Byte) : Prop := ∃ a b c d : Byte, id = [a, b, c, d, a ^^^ b ^^^ c ^^^ d]

/-- The operand ranges of R76 with those of R61, R75, R100, R116, R194 and R221. UIDCHK: what its length byte can say (R91). -/
def Instr.InRange : Instr → Prop
  | .rdreg addr | .wrreg addr _ | .setb addr _ | .clrb addr _ => addr.toNat ≤ 0x3F
  | .xcv _ out | .authcmd out => out.length ≤ 64
  | .uidchk raw => raw.length ≤ 255
  | .select id | .selectCard id => IdentifierOk id
  | .auth id slot _ key | .authsec id slot _ key => IdentifierOk id ∧ (slot = 0#8 ∨ slot = 1#8) ∧ key.length = 6
  | .wrblk _ data => data.length = 16
  | .rdsec id slot base key => IdentifierOk id ∧ (slot = 0#8 ∨ slot = 1#8) ∧ key.length = 6 ∧ base.toNat + 3 ≤ 255
  | .crc bytes => bytes.length ≤ 64
  | .acenc c0 c1 c2 c3 _ => c0.toNat ≤ 7 ∧ c1.toNat ≤ 7 ∧ c2.toNat ≤ 7 ∧ c3.toNat ≤ 7
  | .acsetb c0 c1 c2 c3 _ block bitIndex value =>
      (c0.toNat ≤ 7 ∧ c1.toNat ≤ 7 ∧ c2.toNat ≤ 7 ∧ c3.toNat ≤ 7)
      ∧ block.toNat ≤ 3 ∧ (1 ≤ bitIndex.toNat ∧ bitIndex.toNat ≤ 3) ∧ value.toNat ≤ 1
  | .trpack keyA c0 c1 c2 c3 _ keyB =>
      keyA.length = 6 ∧ (c0.toNat ≤ 7 ∧ c1.toNat ≤ 7 ∧ c2.toNat ≤ 7 ∧ c3.toNat ≤ 7) ∧ keyB.length = 6
  | .trunpk bytes => bytes.length = 16
  | .authA _ key uid | .authB _ key uid => key.length = 6 ∧ uid.length = 4
  | .rstp | .reqp | .acoll | .poll | .stopc | .rdblk _ | .acdec _ _ _ _ | .acchk _ _ _ _
  | .idle | .calccrc | .transceive | .authent | .request | .anticollision _ | .read _ | .write _ => True

end Sys2Proof

namespace Sys2Proof.Machine

/-- The chip's part of the invariant: register space in canonical form within 0..0x3F (R61), at most 64 bytes queued (R38, R80). -/
abbrev Chip.Inv (cfg : Config) (c : Chip) : Prop :=
  Memory.wf (chipRest cfg) c.regs ∧ Memory.below 64 c.regs ∧ c.fifo.length ≤ 64

/-- The card's part of the invariant: block memory in canonical form within 256 blocks of 16 bytes (R69). -/
abbrev Card.Inv (c : Card) : Prop := Memory.wf cardRest c.mem ∧ Memory.below 4096 c.mem

/-- The invariant: at most 16 valid cells in `RX` and 64 in `TX` (R21, R22), the memories beyond the port well-formed, and the sequencer, between
two steps, idle or inside POLL with nothing called (R24; logs 6 and 7). -/
abbrev State.Inv (s : State) : Prop :=
  s.rx.length ≤ 16 ∧ s.tx.length ≤ 64 ∧ (s.port.chip.Inv s.cfg ∧ s.port.card.Inv) ∧ (s.pc = .idle ∨ s.pc = .poll)

/-- The controller accepts a request: idle, and with a valid configuration (R24, R260). -/
abbrev State.Ready (s : State) : Prop := s.pc = .idle ∧ s.cfg.valid = true

/-- An event is a register-port transaction (R12). -/
def Event.isTransaction : Event → Bool
  | .read _ _ => true
  | .write _ _ => true
  | .line _ => false

/-- How many transactions a trace holds (R283). -/
def transactions (trace : List Event) : Nat := trace.countP Event.isTransaction

/-- The address of a transaction lies in a list; a line event has none. -/
def Event.within (addresses : List RegAddr) : Event → Prop
  | .read a _ => a ∈ addresses
  | .write a _ => a ∈ addresses
  | .line _ => True

/-- How many of the events are reads of one register. -/
def readsOf (a : RegAddr) (events : List Event) : Nat :=
  events.countP fun
    | .read b _ => b == a
    | .write _ _ => false
    | .line _ => false

/-- The most transactions one step of an operation makes: R255's table for the operations it lists; for POLL those of one attempt (log 7); for chip
commands and card frames those of their own actions (log 11). -/
def mostTransactions (cfg : Config) : Instr → Nat
  | .rdreg _ | .wrreg _ _ => 1
  | .setb _ _ | .clrb _ _ | .stopc => 2
  | .rstp => 0
  | .xcv cmd out => if cmd = cfg.cmdTransceive then 2029 + out.length else 2009 + out.length
  | .authcmd out => 2009 + out.length
  | .reqp => 2031
  | .acoll => 2032
  | .poll => 4063
  | .select _ => 2307
  | .auth _ _ _ _ => 2022
  | .authsec _ _ _ _ => 4329
  | .rdblk _ => 2297
  | .wrblk _ _ => 4622
  | .rdsec _ _ _ _ => 11222
  | .crc bytes => 262 + bytes.length
  | .uidchk _ | .acenc _ _ _ _ _ | .acdec _ _ _ _ | .acsetb _ _ _ _ _ _ _ _ | .acchk _ _ _ _ | .trpack _ _ _ _ _ _ _ | .trunpk _ => 0
  | .idle | .calccrc | .authent => 1
  | .transceive => 3
  | .request => 2031
  | .anticollision _ => 2032
  | .selectCard _ => 2307
  | .authA _ _ _ | .authB _ _ _ => 2021
  | .read _ | .write _ => 2297

/-- The transactions of step T2 (R142, R143): what the two or three reads answered, the frame loaded, the command issued. -/
def openingTrace (cfg : Config) (cmd : Byte) (out : List Byte) (irq lvl frm : Byte) : List Event :=
  [.write cfg.aComIEn (enableMask cfg cmd ||| cfg.mIrqInv),
   .read cfg.aComIrq irq, .write cfg.aComIrq (irq &&& ~~~cfg.mIrqClr),
   .read cfg.aFifoLevel lvl, .write cfg.aFifoLevel (lvl ||| cfg.mFlush),
   .write cfg.aCommand cfg.cmdIdle]
  ++ out.map (fun b => .write cfg.aFifoData b)
  ++ [.write cfg.aCommand cmd]
  ++ (if cmd = cfg.cmdTransceive then [.read cfg.aBitFraming frm, .write cfg.aBitFraming (frm ||| cfg.mStartSend)] else [])

/-- The transactions of steps T3 and T4 (R144, R145): the samples, then start send cleared. -/
def pollTrace (cfg : Config) (samples : List Byte) (frm : Byte) : List Event :=
  samples.map (fun v => .read cfg.aComIrq v) ++ [.read cfg.aBitFraming frm, .write cfg.aBitFraming (frm &&& ~~~cfg.mStartSend)]

/-- The bit length of an answer from the level and the control register (R147). -/
def bitLength (level control : Byte) : Int :=
  if control &&& 0x07#8 ≠ 0#8 then ((level.toNat : Int) - 1) * 8 + (control &&& 0x07#8).toNat else (level.toNat : Int) * 8

/-- What a `transceive` of a frame under a chip command is, whatever the environment answers (R140 to R147): its transactions, its status
with the cause, the bytes received and the bit length. -/
def XcvTranscript (cfg : Config) (cmd : Byte) (out : List Byte) (events : List Event) (status : Status) (cause : Cause)
    (bytes : List Byte) (bitLen : Int) : Prop :=
  ∃ (irq lvl frm : Byte) (samples : List Byte) (last frm' : Byte) (tail : List Event),
    events = openingTrace cfg cmd out irq lvl frm ++ pollTrace cfg (samples ++ [last]) frm' ++ tail ∧
    (∀ v ∈ samples, endsPoll v (waitMask cfg cmd) = false) ∧
    ((samples.length + 1 = 2000 ∧ tail = [] ∧ status = .error ∧ cause = .exhausted ∧ bytes = [] ∧ bitLen = 0) ∨
     (samples.length + 1 < 2000 ∧ endsPoll last (waitMask cfg cmd) = true ∧ ∃ e : Byte,
      ((e &&& 0x1B#8 ≠ 0#8 ∧ tail = [.read cfg.aError e] ∧ status = .error ∧ cause = .chipError ∧ bytes = [] ∧ bitLen = 0) ∨
       (e &&& 0x1B#8 = 0#8 ∧
        (if last &&& enableMask cfg cmd &&& 0x01#8 ≠ 0#8 then status = .noTag ∧ cause = .timer else status = .ok ∧ cause = .none) ∧
        ((cmd ≠ cfg.cmdTransceive ∧ tail = [.read cfg.aError e] ∧ bytes = [] ∧ bitLen = 0) ∨
         (cmd = cfg.cmdTransceive ∧ ∃ level control : Byte,
          tail = [.read cfg.aError e, .read cfg.aFifoLevel level, .read cfg.aControl control]
            ++ bytes.map (fun b => .read cfg.aFifoData b) ∧
          bytes.length = max 1 (min level.toNat 16) ∧ bitLen = bitLength level control))))))

/-- The transactions of `computeCRC` (R206 to R208). -/
def crcTrace (cfg : Config) (bytes : List Byte) (div lvl : Byte) (samples : List Byte) (lo hi : Byte) : List Event :=
  [.read cfg.aDivIrq div, .write cfg.aDivIrq (div &&& ~~~cfg.mCrcDone),
   .read cfg.aFifoLevel lvl, .write cfg.aFifoLevel (lvl ||| cfg.mFlush)]
  ++ bytes.map (fun b => .write cfg.aFifoData b)
  ++ [.write cfg.aCommand cfg.cmdCalcCrc]
  ++ samples.map (fun v => .read cfg.aDivIrq v)
  ++ [.read cfg.aCrcResultL lo, .read cfg.aCrcResultH hi]

/-- What a `computeCRC` of a byte sequence is, whatever the environment answers (R205 to R208): its transactions, the pair, and the timeout
signal. -/
def CrcTranscript (cfg : Config) (bytes : List Byte) (events : List Event) (low high : Byte) (timeout : Bool) : Prop :=
  ∃ (div lvl : Byte) (samples : List Byte) (last : Byte),
    events = crcTrace cfg bytes div lvl (samples ++ [last]) low high ∧
    (∀ v ∈ samples, v &&& cfg.mCrcDone = 0#8) ∧ samples.length + 1 ≤ 255 ∧
    (samples.length + 1 = 255 ∨ last &&& cfg.mCrcDone ≠ 0#8) ∧ (timeout = true ↔ last &&& cfg.mCrcDone = 0#8)

/-- The values of the reads among events, in order. -/
def readValues : List Event → List Byte
  | [] => []
  | .read _ v :: es => v :: readValues es
  | .write _ _ :: es => readValues es
  | .line _ :: es => readValues es

/-- The statuses with their causes that a `transceive` ends with (R239): the first three rows' pairs under any other command, NO_TAG under
TRANSCEIVE only. -/
def XcvResult (withTimer : Bool) (status : Status) (cause : Cause) : Prop :=
  (status = .ok ∧ cause = .none) ∨ (status = .error ∧ cause = .chipError) ∨ (status = .error ∧ cause = .exhausted)
  ∨ (withTimer = true ∧ status = .noTag ∧ cause = .timer)

/-- The results of R239's table for an operation that has ended in state `t`: the reply, with the status and the cause where the
operation has them. -/
def TableAllows (cfg : Config) (i : Instr) (t : State) : Prop :=
  let st := t.regs.status
  let ca := t.regs.cause
  match i with
  | .rdreg _ => ∃ v, t.reply = .byte v
  | .wrreg _ _ | .setb _ _ | .clrb _ _ | .rstp | .stopc | .idle | .calccrc | .transceive | .authent => t.reply = .done
  | .crc _ => ∃ low high, t.reply = .pair low high
  | .xcv cmd _ => (∃ bytes bl, t.reply = .transceive st bytes bl) ∧ XcvResult (decide (cmd = cfg.cmdTransceive)) st ca
  | .request | .anticollision _ | .selectCard _ | .read _ | .write _ => (∃ bytes bl, t.reply = .transceive st bytes bl) ∧ XcvResult true st ca
  | .authcmd _ | .authA _ _ _ | .authB _ _ _ => t.reply = .status st ∧ XcvResult false st ca
  | .reqp => t.reply = .status st ∧ (XcvResult true st ca ∨ (st = .noTag ∧ ca = .lengthMismatch))
  | .acoll => (∃ bytes, t.reply = .statusBytes st bytes) ∧
      (XcvResult true st ca ∨ (st = .error ∧ ca = .lengthMismatch) ∨ (st = .error ∧ ca = .checksumMismatch))
  | .uidchk raw => t.reply = .identifier raw ∨ t.reply = .fail .badLength ∨ t.reply = .fail .checksumMismatch
  | .poll => (∃ id, t.reply = .identifier id) ∨ t.reply = .noCard
  | .select _ => (∃ v, t.reply = .byte v ∧ (v ≠ 0#8 → st = .ok ∧ ca = .none)) ∧
      (XcvResult true st ca ∨ (st = .ok ∧ ca = .lengthMismatch))
  | .auth _ _ _ _ | .authsec _ _ _ _ => t.reply = .status st ∧ (XcvResult false st ca ∨ (st = .error ∧ ca = .notAuthenticated))
  | .rdblk _ => (∃ bytes, t.reply = .block bytes ∧ bytes.length = 16 ∧ st = .ok ∧ ca = .none) ∨
      (t.reply = .absent ∧ (XcvResult true st ca ∨ (st = .ok ∧ ca = .lengthMismatch)))
  | .wrblk _ _ => t.reply = .status st ∧
      ((st = .ok ∧ ca = .none) ∨ (st = .error ∧ (ca = .chipError ∨ ca = .exhausted ∨ ca = .timer ∨ ca = .ackMismatch)))
  | .rdsec _ _ _ _ => ∃ bytes, t.reply = .bytes bytes ∧ bytes.length ∈ [0, 16, 32, 48]
  | .acenc _ _ _ _ _ => ∃ bytes, t.reply = .bytes bytes ∧ bytes.length = 4
  | .trpack _ _ _ _ _ _ _ => ∃ bytes, t.reply = .bytes bytes ∧ bytes.length = 16
  | .acdec _ _ _ _ | .acsetb _ _ _ _ _ _ _ _ => ∃ w, t.reply = .word w
  | .acchk _ _ _ _ => ∃ v, t.reply = .bit v
  | .trunpk _ => ∃ tr, t.reply = .trailer tr

/-- The bytes a `readBlock` contributes to a sector read (R194). -/
def blockOf : Reply → List Byte
  | .block bytes => bytes
  | _ => []

end Sys2Proof.Machine
end

