-- ==== Sys2Proof/Certificates/Slice0/Obligations.lean ====
section
/-! DEFINITION. The statements for the provers, from the numbered rules of spec/. -/

open Sys2Proof Sys2Proof.Machine

/-! Encoding. -/

/-- Words written out from the tables of R91, R92 and R94 decode to the operations they stand for, one per family. The model's are: that a chip
command or a card frame is decoded at all, under its format tag (log 11), a READ without its CRC suffix (log 12), and the default codes (log 3). -/
def Obligations.SampleRequestsDecode : Prop :=
  decode Config.default .host [0x01#8, 0x2A#8, 0x8D#8] = .ok (.wrreg 0x2A#8 0x8D#8) ∧
  decode Config.default .host [0x10#8, 0x0C#8, 0x01#8, 0x26#8] = .ok (.xcv 0x0C#8 [0x26#8]) ∧
  decode Config.default .host [0x22#8, 0x05#8, 0x12#8, 0x34#8, 0x56#8, 0x78#8, 0x08#8] =
    .ok (.uidchk [0x12#8, 0x34#8, 0x56#8, 0x78#8, 0x08#8]) ∧
  decode Config.default .host [0x30#8, 0xDE#8, 0xAD#8, 0xBE#8, 0xEF#8, 0x22#8] = .ok (.select [0xDE#8, 0xAD#8, 0xBE#8, 0xEF#8, 0x22#8]) ∧
  decode Config.default .host [0x40#8, 0xFF#8] = .ok (.rdblk 0xFF#8) ∧
  decode Config.default .host [0x50#8, 0x02#8, 0x30#8, 0x04#8] = .ok (.crc [0x30#8, 0x04#8]) ∧
  decode Config.default .host [0x60#8, 0x00#8, 0x00#8, 0x00#8, 0x01#8, 0x00#8] = .ok (.acenc 0#8 0#8 0#8 1#8 0#8) ∧
  decode Config.default .chip [0x0E#8] = .ok .authent ∧
  decode Config.default .card [0x30#8, 0x04#8] = .ok (.read 0x04#8) ∧
  decode Config.default .host [0x05#8] = .error .unknownOp ∧
  decode Config.default .host [0x20#8, 0x00#8] = .error .badLength

/-- Every request of R91 with operands in range is decoded to the operation it encodes. -/
def Obligations.HostRequestsRoundTrip : Prop :=
  ∀ (cfg : Config) (i : Instr), i.format = .host → i.InRange → decode cfg .host (encode cfg i) = .ok i

/-- A decoded request is exactly the encoding of its operation: no byte is dropped and no two requests decode alike (R91, R106). -/
def Obligations.HostDecodingLosesNothing : Prop :=
  ∀ (cfg : Config) (bytes : List Byte) (i : Instr), decode cfg .host bytes = .ok i → encode cfg i = bytes ∧ i.format = .host

/-- Chip command bytes and card frames decode to what they encode, when the codes that must tell them apart are distinct (R92, R97 to R102). That they
are decoded at all is the model's (log 11), as are the frames without a CRC suffix (log 12) and the operands of AUTH_A, AUTH_B
and WRITE (log 27). -/
def Obligations.ChipAndCardCodesRoundTrip : Prop :=
  ∀ (cfg : Config) (i : Instr), i.InRange →
    (i.format = .chip → cfg.commands.Nodup → decode cfg .chip (encode cfg i) = .ok i) ∧
    (i.format = .card → [cfg.kAnticoll, cfg.kRead, cfg.kWrite].Nodup → cfg.kAuthA ≠ cfg.kAuthB →
      decode cfg .card (encode cfg i) = .ok i)

/-- Bytes that encode no operation of R91 with operands in range are refused when they are presented as a host request: an unknown `op`, a request of
the wrong length, an operand out of range. One step answers REFUSED and changes nothing else but the inbox (R115, R260). -/
def Obligations.BytesOfNoOperationAreRefused : Prop :=
  ∀ (s : State) (r : Request) (rest : List Request), s.pc = .idle → s.inbox = r :: rest → r.fmt = .host →
    (∀ i : Instr, i.format = .host → i.InRange → encode s.cfg i ≠ r.bytes) →
    ∃ cause, step s = .next { s with inbox := rest, reply := .refused cause }

/-! One step. -/

/-- Idle, with a request whose bytes decode: the step is `exec` of the operation, the request taken from the inbox (R24, R257). That one step runs a
whole operation (log 6), that requests stand in a queue (log 10), and that chip and card rows run as requests too (log 11) are the model's choices. -/
def Obligations.StepRunsTheDecodedRequest : Prop :=
  ∀ (s : State) (r : Request) (rest : List Request) (i : Instr), s.pc = .idle → s.inbox = r :: rest →
    decode s.cfg r.fmt r.bytes = .ok i → step s = exec i { s with inbox := rest }

/-- After reset the controller is idle and waits for the first host request (R265): a step with an empty inbox changes nothing. -/
def Obligations.ResetWaitsForTheHost : Prop :=
  State.reset.pc = .idle ∧ State.reset.inbox = [] ∧ State.reset.tx = [] ∧ State.reset.rx = [] ∧ State.reset.port.trace = [] ∧
  ∀ s : State, s.pc = .idle → s.inbox = [] → step s = .next s

/-- The chip holds the reset values of R267's last column (the family's, log 13: the model's own, no rule of the controller). -/
def Obligations.ResetChipHoldsTheFamilyValues : Prop :=
  let c := State.reset.port.chip
  let g := fun a => c.get Config.default a
  g 0x01#6 = 0x20#8 ∧ g 0x02#6 = 0x80#8 ∧ g 0x04#6 = 0x14#8 ∧ g 0x05#6 = 0x00#8 ∧ g 0x06#6 = 0x00#8 ∧ g 0x08#6 = 0x00#8 ∧
  g 0x0C#6 = 0x10#8 ∧ g 0x0D#6 = 0x00#8 ∧ g 0x22#6 = 0xFF#8 ∧ g 0x21#6 = 0xFF#8 ∧ c.fifo = [] ∧ State.reset.port.card.session = none

/-- A request that arrives while the controller is not idle is refused, and the running operation is not disturbed (R259); which requests arrive
so is told by their waits bit (log 10), and the cause told is the model's (log 9). -/
def Obligations.BusyRequestsAreRefused : Prop :=
  ∀ s : State, s.pc ≠ .idle →
    (∀ i : Instr, exec i s = .next { s with reply := .refused .busy }) ∧
    (∀ (r : Request) (rest : List Request), s.inbox = r :: rest → r.waits = false →
      step s = .next { s with inbox := rest, reply := .refused .busy })

/-- Inside POLL, with no request that breaks in, the next step is the next attempt (R164): what POLL does from the idle controller. That POLL is cut into
one attempt a step (log 7), and that a request's waits bit says whether it breaks in (log 10), are the model's choices. -/
def Obligations.PollGoesOn : Prop :=
  ∀ s : State, s.pc = .poll → s.cfg.valid = true → (∀ r rest, s.inbox = r :: rest → r.waits = true) →
    step s = exec .poll { s with pc := .idle }

/-- No step ends in a fault or a refusal of the model: `REFUSED` is a reply (R241, R260; log 8). -/
def Obligations.EveryStepAnswersANextState : Prop :=
  (∀ s : State, ∃ t, step s = .next t) ∧ ∀ (i : Instr) (s : State), ∃ t, exec i s = .next t

/-- An idle controller refuses a request exactly when the configuration is not valid or an operand is out of range; then nothing but the
reply changes (R76, R260). The model's are: the operand ranges of the card rows (logs 11, 27), and the refusal of a UIDCHK longer than its length byte
can say (log 22). -/
def Obligations.OutOfRangeRequestsChangeNothing : Prop :=
  ∀ (i : Instr) (s : State), s.pc = .idle →
    (s.cfg.valid = false ∨ ¬ i.InRange → ∃ cause, exec i s = .next { s with reply := .refused cause }) ∧
    (s.cfg.valid = true → i.InRange → ∃ t, exec i s = .next t ∧ ∀ cause, t.reply ≠ .refused cause)

/-! Reset and the whole machine. -/

/-- The reset state meets the invariant. -/
def Obligations.ResetMeetsTheInvariant : Prop := State.reset.Inv

/-- Every step keeps the invariant: buffers within their depth (R22), the chip's register space and the card's blocks in canonical form
and within their address ranges (R61, R69; logs 13 to 16), the FIFO within 64 bytes (R38, R80: general knowledge, log 14), the sequencer idle or
inside POLL with nothing called (logs 6, 7). -/
def Obligations.StepKeepsTheInvariant : Prop :=
  ∀ s t : State, s.Inv → step s = .next t → t.Inv

/-- No step changes the configuration record (R281) or what kind of environment and which card stands behind the port. The latter is the model's
environment: the switch of log 17, and the one card of log 15, which neither comes nor leaves during a run. -/
def Obligations.StepKeepsTheConfiguration : Prop :=
  ∀ s t : State, step s = .next t →
    t.cfg = s.cfg ∧ t.port.kind = s.port.kind ∧ t.port.card.present = s.port.card.present ∧ t.port.card.uid = s.port.card.uid ∧
    t.port.card.atqa = s.port.card.atqa ∧ t.port.card.sak = s.port.card.sak ∧ t.port.card.silent = s.port.card.silent

/-- Nothing that crossed the port is taken back, and the answers to the reads are the script's, in order, as long as it lasts (R12, R62, R71). -/
def Obligations.ReadsFollowTheScript : Prop :=
  ∀ s t : State, step s = .next t →
    ∃ events : List Event, t.port.trace = s.port.trace ++ events ∧
      t.port.answers = s.port.answers.drop (readValues events).length ∧
      s.port.answers.take (readValues events).length <+: readValues events

/-- The operations of the core touch no register but the twelve (R37): their transactions are at those addresses, and every other
register of the chip keeps its value. The host reaches the others: a write stores its byte, and a read of one changes none. That those registers keep
a byte is the model's chip (log 14, PRESUMED; R63 and U18 promise no such thing). -/
def Obligations.OnlyTheTwelveAddresses : Prop :=
  (∀ (i : Instr) (s t : State), i.ofCore = true → exec i s = .next t →
    ∃ events : List Event, t.port.trace = s.port.trace ++ events ∧ (∀ e ∈ events, e.within s.cfg.addresses) ∧
      ∀ a : RegAddr, a ∉ s.cfg.addresses → t.port.chip.get s.cfg a = s.port.chip.get s.cfg a) ∧
  (∀ (s : State) (addr value : Byte), s.Ready → s.Inv → addr.toNat ≤ 0x3F → toAddr addr ∉ s.cfg.addresses →
    (∃ t, exec (.wrreg addr value) s = .next t ∧ t.port.chip.get s.cfg (toAddr addr) = value) ∧
    (∃ t, exec (.rdreg addr) s = .next t ∧ t.port.chip = s.port.chip))

/-- Nothing the controller holds is read by a later operation (R20, R23): two states that agree on the configuration, on what lies beyond
the port and on being idle give the same reply and leave the same beyond the port, whatever their registers and buffers hold. -/
def Obligations.OldRegistersDoNotMatter : Prop :=
  ∀ (i : Instr) (s s' t t' : State), s.cfg = s'.cfg → s.port = s'.port → s.pc = s'.pc →
    exec i s = .next t → exec i s' = .next t' → t.reply = t'.reply ∧ t.port = t'.port ∧ t.pc = t'.pc

/-- Every operation but POLL ends in one step, with at most the transactions of R255's table (for chip commands and card frames, those of their own
actions: log 11); an attempt of POLL makes at most 4063 (log 7) and ends POLL only on success or when its one deadline draw answers true; on false
POLL goes on (R164). -/
def Obligations.OperationsAreBounded : Prop :=
  ∀ (i : Instr) (s : State), s.Ready → i.InRange →
    ∃ t, exec i s = .next t ∧
      (∃ events : List Event, t.port.trace = s.port.trace ++ events ∧ transactions events ≤ mostTransactions s.cfg i) ∧
      (i ≠ .poll → t.pc = .idle) ∧
      (i = .poll →
        (t.pc = .idle ∧ ∃ id, t.reply = .identifier id) ∨
        (t.pc = .idle ∧ t.reply = .noCard ∧ { s.port with draws := t.port.draws - 1 }.deadline = true) ∨
        (t.pc = .poll ∧ t.reply = .pending ∧ { s.port with draws := t.port.draws - 1 }.deadline = false))

/-- Which operation can end with which result (R239): a combination not in the table cannot occur. The rows of the chip commands and the card frames
are the model's (log 11). -/
def Obligations.ResultsAreThoseOfTheTable : Prop :=
  ∀ (i : Instr) (s t : State), s.Ready → i.InRange → exec i s = .next t → t.pc = .idle → TableAllows s.cfg i t

/-! Register port. -/

/-- RDREG (R131), `op` 0x00: one read transaction, its byte returned, no working register changed; address 0x40 and above refused.
A read of the FIFO port removes its oldest byte (R32, R67). -/
def Obligations.ReadRegister : Prop :=
  ∀ (s : State) (addr : Byte), s.Ready →
    decode s.cfg .host [0x00#8, addr] = .ok (.rdreg addr) ∧
    (addr.toNat ≤ 0x3F → ∃ t, exec (.rdreg addr) s = .next t ∧ (toAddr addr).toNat = addr.toNat ∧
      t.reply = .byte (s.answer (toAddr addr)) ∧
      t.port.trace = s.port.trace ++ [.read (toAddr addr) (s.answer (toAddr addr))] ∧
      (∀ v rest, s.port.answers = v :: rest → s.answer (toAddr addr) = v ∧ t.port.answers = rest) ∧
      (toAddr addr = s.cfg.aFifoData → t.port.chip.fifo = s.port.chip.fifo.tail) ∧
      (∀ v, wireBytes (.read (toAddr addr) v) = [0x80#8 ||| addr <<< 1]) ∧
      t.regs = s.regs ∧ t.tx = s.tx ∧ t.rx = s.rx ∧ t.pc = .idle) ∧
    (0x3F < addr.toNat → ∃ cause, exec (.rdreg addr) s = .next { s with reply := .refused cause })

/-- WRREG (R132), `op` 0x01: one write transaction; no working register changed; address 0x40 and above refused. Beyond the port (R67; the chip is the
model's, log 14): a byte written to the FIFO port is queued last, up to 64, or enters the running CRC while CALC-CRC is active (R36); M_FLUSH
empties the FIFO; status-2 written with the crypto1-on bit clear reads it clear, its read-only low bits as they were (R31). -/
def Obligations.WriteRegister : Prop :=
  ∀ (s : State) (addr value : Byte), s.Ready →
    decode s.cfg .host [0x01#8, addr, value] = .ok (.wrreg addr value) ∧
    (addr.toNat ≤ 0x3F → ∃ t, exec (.wrreg addr value) s = .next t ∧ (toAddr addr).toNat = addr.toNat ∧ t.reply = .done ∧
      t.port.trace = s.port.trace ++ [.write (toAddr addr) value] ∧ t.port.answers = s.port.answers ∧
      wireBytes (.write (toAddr addr) value) = [addr <<< 1, value] ∧
      t.regs = s.regs ∧ t.tx = s.tx ∧ t.rx = s.rx ∧ t.pc = .idle ∧
      (toAddr addr = s.cfg.aFifoData → s.port.chip.get s.cfg s.cfg.aCommand ≠ s.cfg.cmdCalcCrc →
        t.port.chip.fifo = if s.port.chip.fifo.length < 64 then s.port.chip.fifo ++ [value] else s.port.chip.fifo) ∧
      (toAddr addr = s.cfg.aFifoData → s.port.chip.get s.cfg s.cfg.aCommand = s.cfg.cmdCalcCrc →
        t.port.chip.fifo = s.port.chip.fifo ∧ t.port.chip.crc = crcByte s.port.chip.crc value) ∧
      (toAddr addr = s.cfg.aFifoLevel → value &&& s.cfg.mFlush ≠ 0#8 → t.port.chip.fifo = [] ∧ t.port.chip.crc = 0x6363#16) ∧
      (toAddr addr = s.cfg.aStatus2 → s.Inv →
        (value &&& s.cfg.mCrypto1On = 0#8 → t.port.chip.get s.cfg s.cfg.aStatus2 &&& s.cfg.mCrypto1On = 0#8) ∧
        ∀ k, k < 3 → s.cfg.mCrypto1On.getLsbD k = false →
          (t.port.chip.get s.cfg s.cfg.aStatus2).getLsbD k = (s.port.chip.get s.cfg s.cfg.aStatus2).getLsbD k)) ∧
    (0x3F < addr.toNat → ∃ cause, exec (.wrreg addr value) s = .next { s with reply := .refused cause })

/-- SETB and CLRB (R133, R134), `op` 0x02 and 0x03: always a read and then a write, of the byte read with the mask's bits set, or with them cleared. -/
def Obligations.SetAndClearBits : Prop :=
  ∀ (s : State) (addr mask : Byte), s.Ready → addr.toNat ≤ 0x3F →
    decode s.cfg .host [0x02#8, addr, mask] = .ok (.setb addr mask) ∧ decode s.cfg .host [0x03#8, addr, mask] = .ok (.clrb addr mask) ∧
    (∃ t v, exec (.setb addr mask) s = .next t ∧ t.reply = .done ∧
      t.port.trace = s.port.trace ++ [.read (toAddr addr) v, .write (toAddr addr) (v ||| mask)] ∧
      (∀ w rest, s.port.answers = w :: rest → v = w ∧ t.port.answers = rest) ∧
      t.regs = s.regs ∧ t.tx = s.tx ∧ t.rx = s.rx ∧ t.pc = .idle) ∧
    (∃ t v, exec (.clrb addr mask) s = .next t ∧ t.reply = .done ∧
      t.port.trace = s.port.trace ++ [.read (toAddr addr) v, .write (toAddr addr) (v &&& (0xFF#8 ^^^ mask))] ∧
      (∀ w rest, s.port.answers = w :: rest → v = w ∧ t.port.answers = rest) ∧
      t.regs = s.regs ∧ t.tx = s.tx ∧ t.rx = s.rx ∧ t.pc = .idle)

/-- RSTP (R135, R45): the line low, then high, no transaction; the chip as after reset, the card as it was, the buffers without a valid cell,
and in place of the working registers, which keep no value, the free value drawn (log 5). -/
def Obligations.ResetPulse : Prop :=
  ∀ s : State, s.Ready →
    ∃ t, exec .rstp s = .next t ∧ t.reply = .done ∧ t.pc = .idle ∧ t.port.line = .high ∧
      t.port.trace = s.port.trace ++ [.line .low, .line .high] ∧ transactions t.port.trace = transactions s.port.trace ∧
      t.port.chip = Chip.reset ∧ t.port.card = s.port.card ∧ t.port.answers = s.port.answers ∧
      t.tx = [] ∧ t.rx = [] ∧ t.regs = lostRegs s.port.draws ∧ t.port.draws = s.port.draws + 1

/-- What the four register operations leave alone: the working registers and buffers, the card's blocks but for a block that waits for its data
(and that only by a write of the bit-framing or of the command register), and, at an address outside the twelve, the card, the chip's other registers,
its FIFO, its running CRC and its flags still to appear. The controller assumes nothing about what a write does (R63): what is said of the chip and the card is the model's (logs 14, 15). -/
def Obligations.RegisterPortFrame : Prop :=
  ∀ (i : Instr) (addr : Byte) (s t : State),
    (i = .rdreg addr ∨ (∃ v, i = .wrreg addr v) ∨ (∃ m, i = .setb addr m) ∨ (∃ m, i = .clrb addr m)) → exec i s = .next t →
    t.regs = s.regs ∧ t.tx = s.tx ∧ t.rx = s.rx ∧ t.cfg = s.cfg ∧ t.inbox = s.inbox ∧ t.pc = s.pc ∧
    t.port.line = s.port.line ∧ t.port.deadlines = s.port.deadlines ∧
    (∀ a, (∀ b, toAddr addr = s.cfg.aBitFraming ∨ toAddr addr = s.cfg.aCommand → s.port.card.writing = some b →
        a < blockBase b ∨ blockBase b + 16 ≤ a) →
      t.port.card.get a = s.port.card.get a) ∧
    (∀ b, b ∉ s.cfg.addresses → b ≠ toAddr addr → t.port.chip.get s.cfg b = s.port.chip.get s.cfg b) ∧
    (toAddr addr ∉ s.cfg.addresses → t.port.card = s.port.card ∧ t.port.chip.fifo = s.port.chip.fifo ∧ t.port.chip.crc = s.port.chip.crc ∧
      t.port.chip.comFlags = s.port.chip.comFlags ∧ t.port.chip.divFlags = s.port.chip.divFlags ∧
      ∀ b, b ≠ toAddr addr → t.port.chip.get s.cfg b = s.port.chip.get s.cfg b)

/-! The transceiver, step by step. -/

/-- Step T1 (R141): the masks by the whole command byte, the result initialised, no transaction. -/
def Obligations.SelectsMasks : Prop :=
  ∀ (cmd : Byte) (s : State),
    let t := selectMasks cmd s
    (cmd = s.cfg.cmdAuthent → t.regs.irqen = 0x12#8 ∧ t.regs.wait = 0x10#8) ∧
    (cmd ≠ s.cfg.cmdAuthent → cmd = s.cfg.cmdTransceive → t.regs.irqen = 0x77#8 ∧ t.regs.wait = 0x30#8) ∧
    (cmd ≠ s.cfg.cmdAuthent → cmd ≠ s.cfg.cmdTransceive → t.regs.irqen = 0x00#8 ∧ t.regs.wait = 0x00#8) ∧
    t.regs.status = .error ∧ t.regs.cause = .exhausted ∧ t.rxCnt = 0#5 ∧ t.regs.bitLen = 0#12 ∧ t.port = s.port

/-- Step T2, first half (R142): arm, clear the pending flag, flush, idle, in that order, six transactions. -/
def Obligations.ArmsAndFlushes : Prop :=
  (∀ s : State, ∃ irq lvl : Byte,
    (armAndFlush s).port.trace = s.port.trace ++
      [.write s.cfg.aComIEn (s.regs.irqen ||| s.cfg.mIrqInv),
       .read s.cfg.aComIrq irq, .write s.cfg.aComIrq (irq &&& ~~~s.cfg.mIrqClr),
       .read s.cfg.aFifoLevel lvl, .write s.cfg.aFifoLevel (lvl ||| s.cfg.mFlush),
       .write s.cfg.aCommand s.cfg.cmdIdle] ∧
    (∀ v w rest, s.port.answers = v :: w :: rest → irq = v ∧ lvl = w ∧ (armAndFlush s).port.answers = rest) ∧
    (armAndFlush s).regs = s.regs ∧ (armAndFlush s).tx = s.tx ∧ (armAndFlush s).rx = s.rx) ∧
  (∀ s : State, s.cfg = Config.default →
    (selectMasks 0x0E#8 s).regs.irqen ||| s.cfg.mIrqInv = 0x92#8 ∧ (selectMasks 0x0C#8 s).regs.irqen ||| s.cfg.mIrqInv = 0xF7#8 ∧
    ∀ cmd, cmd ≠ 0x0E#8 → cmd ≠ 0x0C#8 → (selectMasks cmd s).regs.irqen ||| s.cfg.mIrqInv = 0x80#8)

/-- Step T2, second half (R143): the outgoing bytes in ascending order, the command, and for TRANSCEIVE the start-send bit set. -/
def Obligations.LoadsAndIssues : Prop :=
  ∀ (cmd : Byte) (s : State), ∃ frm : Byte,
    (issueCommand cmd s).port.trace = s.port.trace ++ s.tx.map (fun b => Event.write s.cfg.aFifoData b) ++ [.write s.cfg.aCommand cmd] ++
      (if cmd = s.cfg.cmdTransceive then [.read s.cfg.aBitFraming frm, .write s.cfg.aBitFraming (frm ||| s.cfg.mStartSend)] else []) ∧
    (∀ v rest, cmd = s.cfg.cmdTransceive → s.port.answers = v :: rest → frm = v ∧ (issueCommand cmd s).port.answers = rest) ∧
    (issueCommand cmd s).regs = s.regs ∧ (issueCommand cmd s).tx = s.tx ∧ (issueCommand cmd s).rx = s.rx

/-- Step T3 (R144): one read an iteration, at least 1 and at most 2000, until the counter is 0, the timer bit or a wait bit is set in the
sample; the counter leaves with 2000 less the number of reads. -/
def Obligations.PollsInterruptStatus : Prop :=
  ∀ s : State, ∃ (samples : List Byte) (last : Byte),
    samples.length + 1 ≤ 2000 ∧ (∀ v ∈ samples, v &&& 0x01#8 = 0#8 ∧ v &&& s.regs.wait = 0#8) ∧
    (samples.length + 1 = 2000 ∨ last &&& 0x01#8 ≠ 0#8 ∨ last &&& s.regs.wait ≠ 0#8) ∧
    (pollIrq s).regs.n = last ∧ (pollIrq s).regs.i.toNat = 2000 - (samples.length + 1) ∧
    (pollIrq s).regs = { s.regs with n := (pollIrq s).regs.n, i := (pollIrq s).regs.i } ∧ (pollIrq s).tx = s.tx ∧ (pollIrq s).rx = s.rx ∧
    (pollIrq s).port.trace = s.port.trace ++ (samples ++ [last]).map (fun v => Event.read s.cfg.aComIrq v) ∧
    (samples.length + 1 ≤ s.port.answers.length →
      samples ++ [last] = s.port.answers.take (samples.length + 1) ∧ (pollIrq s).port.answers = s.port.answers.drop (samples.length + 1))

/-- Step T4 (R145): the start-send bit is cleared, two transactions, nothing else. -/
def Obligations.ClearsStartSend : Prop :=
  ∀ s : State, ∃ frm : Byte,
    (stopSend s).port.trace = s.port.trace ++ [.read s.cfg.aBitFraming frm, .write s.cfg.aBitFraming (frm &&& ~~~s.cfg.mStartSend)] ∧
    (stopSend s).regs = s.regs ∧ (stopSend s).tx = s.tx ∧ (stopSend s).rx = s.rx

/-- Step T5 (R146): exhausted, nothing more is read and the initial status stands; else the error register under 0x1B, then the enabled timer bit
of the sample that ended the loop; on a masked error nothing is drained; with an enable mask of 0x12 or 0x00 never NO_TAG. -/
def Obligations.DecidesStatus : Prop :=
  ∀ (cmd : Byte) (s : State),
    (s.regs.i = 0#11 → concludeTransceive cmd s = s.goto 5) ∧
    (s.regs.irqen = 0x12#8 ∨ s.regs.irqen = 0x00#8 → s.regs.i ≠ 0#11 → (decideStatus s).regs.status ≠ .noTag) ∧
    (s.regs.i ≠ 0#11 → ∃ e : Byte,
      (decideStatus s).regs.e = e ∧ (decideStatus s).port.trace = s.port.trace ++ [.read s.cfg.aError e] ∧
      (∀ v rest, s.port.answers = v :: rest → e = v ∧ (decideStatus s).port.answers = rest) ∧
      (e &&& 0x1B#8 ≠ 0#8 → (decideStatus s).regs.status = .error ∧ (decideStatus s).regs.cause = .chipError ∧
        concludeTransceive cmd s = decideStatus (s.goto 5)) ∧
      (e &&& 0x1B#8 = 0#8 → s.regs.n &&& s.regs.irqen &&& 0x01#8 ≠ 0#8 →
        (decideStatus s).regs.status = .noTag ∧ (decideStatus s).regs.cause = .timer) ∧
      (e &&& 0x1B#8 = 0#8 → s.regs.n &&& s.regs.irqen &&& 0x01#8 = 0#8 →
        (decideStatus s).regs.status = .ok ∧ (decideStatus s).regs.cause = .none) ∧
      (cmd ≠ s.cfg.cmdTransceive → concludeTransceive cmd s = decideStatus (s.goto 5)) ∧
      (cmd = s.cfg.cmdTransceive → (decideStatus s).regs.status ≠ .error →
        concludeTransceive cmd s = receive ((decideStatus (s.goto 5)).goto 6)) ∧
      decideStatus (s.goto 5) = (decideStatus s).withPc (s.pc.goto 5))

/-- Step T6 (R147): the level, then the control register; the bit length on mathematical integers; then between 1 and 16 bytes drained in order. -/
def Obligations.MeasuresAndDrains : Prop :=
  ∀ s : State, s.rx = [] → ∃ (level control : Byte) (bytes : List Byte),
    (receive s).port.trace = s.port.trace ++ [.read s.cfg.aFifoLevel level, .read s.cfg.aControl control] ++
      bytes.map (fun b => Event.read s.cfg.aFifoData b) ∧
    (∀ v w rest, s.port.answers = v :: w :: rest → level = v ∧ control = w ∧
      (bytes.length ≤ rest.length → bytes = rest.take bytes.length ∧ (receive s).port.answers = rest.drop bytes.length)) ∧
    (receive s).regs.lvl = level ∧ (receive s).regs.lb.toNat = (control &&& 0x07#8).toNat ∧
    (control &&& 0x07#8 ≠ 0#8 → (receive s).regs.bitLen.toInt = ((level.toNat : Int) - 1) * 8 + (control &&& 0x07#8).toNat) ∧
    (control &&& 0x07#8 = 0#8 → (receive s).regs.bitLen.toInt = (level.toNat : Int) * 8) ∧
    bytes.length = (if level.toNat = 0 then 1 else if 16 < level.toNat then 16 else level.toNat) ∧
    (receive s).rx = bytes ∧ (receive s).rxCnt.toNat = bytes.length ∧ (receive s).tx = s.tx ∧
    (receive s).regs = { s.regs with lvl := (receive s).regs.lvl, lb := (receive s).regs.lb, bitLen := (receive s).regs.bitLen }

/-! The transceiver as a whole. -/

/-- XCV (R140): for every command byte, every frame of at most 64 bytes and whatever the environment answers, the operation ends, and its
transactions, status, cause, bytes and bit length are those of the six steps. -/
def Obligations.TransceiveTranscript : Prop :=
  ∀ (s : State) (cmd : Byte) (out : List Byte), s.Ready → out.length ≤ 64 →
    ∃ (t : State) (events : List Event) (bitLen : Int), exec (.xcv cmd out) s = .next t ∧ t.port.trace = s.port.trace ++ events ∧
      XcvTranscript s.cfg cmd out events t.regs.status t.regs.cause t.rx bitLen ∧
      t.reply = .transceive t.regs.status t.rx bitLen ∧ t.regs.bitLen.toInt = bitLen ∧ t.tx = out ∧ t.pc = .idle

/-- AUTHCMD (R148): XCV with AUTHENT, its status returned; no byte received, never NO_TAG, the count of transactions, `r` being the reads of the
interrupt-status register after the one of step T2, that is those of the poll loop. -/
def Obligations.AuthenticateCommand : Prop :=
  ∀ (s : State) (out : List Byte), s.Ready → out.length ≤ 64 →
    ∃ (t u : State) (events : List Event) (r : Nat), exec (.xcv s.cfg.cmdAuthent out) s = .next u ∧ exec (.authcmd out) s = .next t ∧
      t.port.trace = s.port.trace ++ events ∧ readsOf s.cfg.aComIrq events = r + 1 ∧
      t = { u with reply := .status u.regs.status } ∧ t.regs.status ≠ .noTag ∧ t.rx = [] ∧ t.regs.bitLen = 0#12 ∧
      1 ≤ r ∧ r ≤ 2000 ∧ (t.regs.cause = .exhausted ↔ r = 2000) ∧
      transactions t.port.trace = transactions s.port.trace + (6 + out.length + 1 + r + 2 + (if t.regs.cause = .exhausted then 0 else 1))

/-- The transaction counts of XCV and the drain bound (R150): `r` is how often the poll loop read the interrupt-status register, which step T2 also
reads once; bytes are drained under TRANSCEIVE without an error, at least 1 and exactly 16 when the level read is above 16. -/
def Obligations.TransactionCounts : Prop :=
  ∀ (s t : State) (cmd : Byte) (out : List Byte), s.Ready → out.length ≤ 64 → exec (.xcv cmd out) s = .next t →
    ∃ (events : List Event) (r : Nat), t.port.trace = s.port.trace ++ events ∧ readsOf s.cfg.aComIrq events = r + 1 ∧
      1 ≤ r ∧ r ≤ 2000 ∧ (t.regs.cause = .exhausted ↔ r = 2000) ∧
      (if cmd = s.cfg.cmdTransceive ∧ t.regs.cause ≠ .exhausted ∧ t.regs.cause ≠ .chipError then
        Event.read s.cfg.aFifoLevel t.regs.lvl ∈ events ∧ t.rx.length = max 1 (min t.regs.lvl.toNat 16)
      else t.rx = []) ∧
      transactions t.port.trace = transactions s.port.trace +
        (if cmd = s.cfg.cmdTransceive then
          if t.regs.cause = .exhausted then 2011 + out.length
          else if t.regs.cause = .chipError then 12 + out.length + r
          else 14 + out.length + r + t.rx.length
        else if t.regs.cause = .exhausted then 2009 + out.length else 10 + out.length + r)

/-- What the operations of the core leave alone in the controller, grouped by what they run (R21's column "written by"). The chip commands and the
card frames as requests of their own are the model's (log 11). -/
def Obligations.CoreRegistersFrame : Prop :=
  ∀ (i : Instr) (s t : State), exec i s = .next t →
    (match i with
     | .uidchk _ | .acenc _ _ _ _ _ | .acdec _ _ _ _ | .acsetb _ _ _ _ _ _ _ _ | .acchk _ _ _ _ | .trpack _ _ _ _ _ _ _ | .trunpk _ =>
       t = { s with reply := t.reply }
     | .stopc | .idle | .calccrc | .transceive | .authent => t.regs = s.regs ∧ t.tx = s.tx ∧ t.rx = s.rx
     | .xcv _ _ | .reqp | .acoll | .poll | .request | .anticollision _ =>
       t.regs.crcLo = s.regs.crcLo ∧ t.regs.crcHi = s.regs.crcHi ∧ t.regs.crcTo = s.regs.crcTo ∧ t.regs.s2 = s.regs.s2
     | .authcmd _ | .authA _ _ _ | .authB _ _ _ =>
       t.regs.crcLo = s.regs.crcLo ∧ t.regs.crcHi = s.regs.crcHi ∧ t.regs.crcTo = s.regs.crcTo ∧ t.regs.s2 = s.regs.s2 ∧
       t.regs.lvl = s.regs.lvl ∧ t.regs.lb = s.regs.lb
     | .auth _ _ _ _ =>
       t.regs.crcLo = s.regs.crcLo ∧ t.regs.crcHi = s.regs.crcHi ∧ t.regs.crcTo = s.regs.crcTo ∧
       t.regs.lvl = s.regs.lvl ∧ t.regs.lb = s.regs.lb
     | .crc _ =>
       t.rx = s.rx ∧ t.regs = { s.regs with
         n := t.regs.n, i := t.regs.i, crcLo := t.regs.crcLo, crcHi := t.regs.crcHi, crcTo := t.regs.crcTo }
     | .select _ | .rdblk _ | .wrblk _ _ | .selectCard _ | .read _ | .write _ => t.regs.s2 = s.regs.s2
     | .authsec _ _ _ _ | .rdsec _ _ _ _ | .rdreg _ | .wrreg _ _ | .setb _ _ | .clrb _ _ | .rstp => True) ∧
    t.cfg = s.cfg ∧ t.inbox = s.inbox ∧ (i ≠ .rstp → t.port.line = s.port.line) ∧ (i ≠ .poll → t.port.deadlines = s.port.deadlines)

/-- What the operations of the core leave alone in the card's blocks, when the flush bit is not zero and neither framing byte starts a transmission:
those that send no frame, every byte; WRBLK, every byte outside its block and the block that waits for its data; any other, every byte outside the
block that waits (a frame or handshake given to a waiting card is its data or a failed write: U13, log 30; the card is the model's, log 15). -/
def Obligations.CardMemoryFrame : Prop :=
  ∀ (i : Instr) (s t : State), s.Inv → i.ofCore = true → s.cfg.mFlush ≠ 0#8 → s.cfg.framingShort &&& s.cfg.mStartSend = 0#8 →
    s.cfg.framingByte &&& s.cfg.mStartSend = 0#8 → exec i s = .next t →
    ∀ a : Nat,
      (match i with
       | .uidchk _ | .acenc _ _ _ _ _ | .acdec _ _ _ _ | .acsetb _ _ _ _ _ _ _ _ | .acchk _ _ _ _ | .trpack _ _ _ _ _ _ _ | .trunpk _
       | .crc _ | .stopc | .idle | .calccrc => True
       | .wrblk block _ => (a < blockBase block ∨ blockBase block + 16 ≤ a) ∧
           ∀ b, s.port.card.writing = some b → a < blockBase b ∨ blockBase b + 16 ≤ a
       | _ => ∀ b, s.port.card.writing = some b → a < blockBase b ∨ blockBase b + 16 ≤ a) →
      t.port.card.get a = s.port.card.get a

/-! Anti-collision and presence. -/

/-- REQP (R161): the short framing written whole, then XCV of the REQUEST code; OK only with exactly 16 bits, another length is NO_TAG, any
other status stands. -/
def Obligations.RequestPresence : Prop :=
  ∀ s : State, s.Ready →
    ∃ (u t : State) (st : Status) (ca : Cause),
      exec (.xcv s.cfg.cmdTransceive [s.cfg.kRequest]) (s.write s.cfg.aBitFraming s.cfg.framingShort) = .next u ∧
      (s.write s.cfg.aBitFraming s.cfg.framingShort).port.trace = s.port.trace ++ [.write s.cfg.aBitFraming s.cfg.framingShort] ∧
      exec .reqp s = .next t ∧ t = { u with regs := { u.regs with status := st, cause := ca }, reply := .status st } ∧
      (u.regs.status ≠ .ok → st = u.regs.status ∧ ca = u.regs.cause) ∧
      (u.regs.status = .ok → u.regs.bitLen.toInt = 16 → st = .ok ∧ ca = .none) ∧
      (u.regs.status = .ok → u.regs.bitLen.toInt ≠ 16 → st = .noTag ∧ ca = .lengthMismatch)

/-- ACOLL (R162), `op` 0x21: byte framing, then XCV of the ANTICOLLISION frame; OK only with exactly 5 bytes of which the last is the exclusive or of the
first four; the bytes returned as drained whatever the status. -/
def Obligations.ResolveUid : Prop :=
  ∀ s : State, s.Ready →
    decode s.cfg .host [0x21#8] = .ok .acoll ∧
    ∃ (u t : State) (st : Status) (ca : Cause),
      exec (.xcv s.cfg.cmdTransceive [s.cfg.kAnticoll, s.cfg.kCascade]) (s.write s.cfg.aBitFraming s.cfg.framingByte) = .next u ∧
      (s.write s.cfg.aBitFraming s.cfg.framingByte).port.trace = s.port.trace ++ [.write s.cfg.aBitFraming s.cfg.framingByte] ∧
      exec .acoll s = .next t ∧ t = { u with regs := { u.regs with status := st, cause := ca }, reply := .statusBytes st u.rx } ∧
      (u.regs.status ≠ .ok → st = u.regs.status ∧ ca = u.regs.cause) ∧
      (u.regs.status = .ok → u.rx.length ≠ 5 → st = .error ∧ ca = .lengthMismatch) ∧
      (u.regs.status = .ok → ∀ a b c d e, u.rx = [a, b, c, d, e] → a ^^^ b ^^^ c ^^^ d = e → st = .ok ∧ ca = .none) ∧
      (u.regs.status = .ok → ∀ a b c d e, u.rx = [a, b, c, d, e] → a ^^^ b ^^^ c ^^^ d ≠ e → st = .error ∧ ca = .checksumMismatch)

/-- UIDCHK (R163), `op` 0x22: an identifier exactly for 5 or 8 bytes of which the last is the exclusive or of the others; no transaction, no register. -/
def Obligations.ConstructIdentifier : Prop :=
  ∀ (s : State) (raw : List Byte), s.Ready → raw.length ≤ 255 →
    decode s.cfg .host (0x22#8 :: BitVec.ofNat 8 raw.length :: raw) = .ok (.uidchk raw) ∧
    (raw.length ≠ 5 → raw.length ≠ 8 → exec (.uidchk raw) s = .next { s with reply := .fail .badLength }) ∧
    (∀ uid x, raw = uid ++ [x] → (uid.length = 4 ∨ uid.length = 7) →
      (xorAll uid = x → exec (.uidchk raw) s = .next { s with reply := .identifier raw }) ∧
      (xorAll uid ≠ x → exec (.uidchk raw) s = .next { s with reply := .fail .checksumMismatch }))

/-- One attempt of POLL (R164): REQP, then ACOLL if it succeeded, then the identifier of its bytes; a failed attempt asks the deadline once,
and ends with "no card" or stays in POLL. That a step of POLL ends after one attempt, the sequencer in POLL and the reply pending, is the
model's cut (log 7). -/
def Obligations.PollAttempt : Prop :=
  ∀ s : State, s.Ready →
    ∃ (u t : State), exec .reqp s = .next u ∧ exec .poll s = .next t ∧
      (u.regs.status = .ok → ∃ v, exec .acoll u = .next v ∧
        (v.regs.status = .ok → t = { v with reply := .identifier v.rx }) ∧
        (v.regs.status ≠ .ok → t = { v with
          pc := if v.port.deadline then .idle else .poll, reply := if v.port.deadline then .noCard else .pending,
          port := { v.port with deadlines := v.port.deadlines.tail, draws := v.port.draws + 1 } })) ∧
      (u.regs.status ≠ .ok → t = { u with
        pc := if u.port.deadline then .idle else .poll, reply := if u.port.deadline then .noCard else .pending,
        port := { u.port with deadlines := u.port.deadlines.tail, draws := u.port.draws + 1 } }) ∧
      (∀ d rest, u.port.deadlines = d :: rest → u.port.deadline = d)

/-! Authentication. -/

/-- SELECT (R176): CRC over the seven bytes, XCV of the nine; the first byte received only with status OK and exactly 24 bits, else 0. -/
def Obligations.SelectCard : Prop :=
  ∀ (s : State) (id : List Byte), s.Ready → IdentifierOk id →
    ∃ (u v t : State) (low high ack : Byte) (ca : Cause),
      exec (.crc ([s.cfg.kSelect, 0x70#8] ++ id)) s = .next u ∧ u.reply = .pair low high ∧
      exec (.xcv s.cfg.cmdTransceive ([s.cfg.kSelect, 0x70#8] ++ id ++ [low, high])) u = .next v ∧
      exec (.select id) s = .next t ∧ t = { v with regs := { v.regs with cause := ca }, reply := .byte ack } ∧
      (v.regs.status = .ok → v.regs.bitLen.toInt = 24 → v.rx.head? = some ack ∧ ca = .none) ∧
      (v.regs.status = .ok → v.regs.bitLen.toInt ≠ 24 → ack = 0x00#8 ∧ ca = .lengthMismatch) ∧
      (v.regs.status ≠ .ok → ack = 0x00#8 ∧ ca = v.regs.cause)

/-- AUTH (R178): AUTHCMD of the twelve-byte frame, then the status-2 register read on every path; OK with the crypto1-on bit clear becomes ERROR. -/
def Obligations.Authenticate : Prop :=
  ∀ (s : State) (id : List Byte) (slot block : Byte) (key : List Byte), s.Ready → IdentifierOk id → (slot = 0#8 ∨ slot = 1#8) → key.length = 6 →
    ∃ (u t : State) (s2 : Byte),
      exec (.authcmd ([if slot = 0#8 then s.cfg.kAuthA else s.cfg.kAuthB, block] ++ key ++ id.take 4)) s = .next u ∧
      exec (.auth id slot block key) s = .next t ∧ s2 = u.answer s.cfg.aStatus2 ∧ t.port = (u.afterRead s.cfg.aStatus2).port ∧
      t.port.trace = u.port.trace ++ [.read s.cfg.aStatus2 s2] ∧ t.reply = .status t.regs.status ∧ t.rx = u.rx ∧ t.tx = u.tx ∧ t.pc = .idle ∧
      t.regs = { u.regs with s2 := s2, status := t.regs.status, cause := t.regs.cause } ∧
      (u.regs.status = .ok → s2 &&& s.cfg.mCrypto1On = 0#8 → t.regs.status = .error ∧ t.regs.cause = .notAuthenticated) ∧
      (u.regs.status ≠ .ok ∨ s2 &&& s.cfg.mCrypto1On ≠ 0#8 → t.regs.status = u.regs.status ∧ t.regs.cause = u.regs.cause)

/-- STOPC (R180), `op` 0x32: the crypto1-on bit is read and written back clear, always two transactions, no flag changed; in the chip, which is the
model's (log 14), the bit is clear afterwards (R31). -/
def Obligations.StopCrypto : Prop :=
  ∀ s : State, s.Ready →
    decode s.cfg .host [0x32#8] = .ok .stopc ∧
    ∃ t v, exec .stopc s = .next t ∧ t.reply = .done ∧
      t.port.trace = s.port.trace ++ [.read s.cfg.aStatus2 v, .write s.cfg.aStatus2 (v &&& ~~~s.cfg.mCrypto1On)] ∧
      (∀ w rest, s.port.answers = w :: rest → v = w ∧ t.port.answers = rest) ∧
      t.regs = s.regs ∧ t.tx = s.tx ∧ t.rx = s.rx ∧ t.pc = .idle ∧
      (s.Inv → t.port.chip.get s.cfg s.cfg.aStatus2 &&& s.cfg.mCrypto1On = 0#8)

/-- AUTHSEC (R181): SELECT; an acknowledge of 0 is ERROR and AUTH is not attempted; else AUTH. -/
def Obligations.AuthenticateSector : Prop :=
  ∀ (s : State) (id : List Byte) (slot block : Byte) (key : List Byte), s.Ready → IdentifierOk id → (slot = 0#8 ∨ slot = 1#8) → key.length = 6 →
    ∃ (u t : State) (ack : Byte), exec (.select id) s = .next u ∧ u.reply = .byte ack ∧ exec (.authsec id slot block key) s = .next t ∧
      (ack = 0x00#8 → t = { u with regs := { u.regs with status := .error, cause := .notAuthenticated }, reply := .status .error }) ∧
      (ack ≠ 0x00#8 → exec (.auth id slot block key) u = .next t)

/-! Blocks. -/

/-- RDBLK (R191): CRC over the two bytes, XCV of the four; the sixteen bytes only with status OK and exactly 16 drained, else absent. -/
def Obligations.ReadBlock : Prop :=
  ∀ (s : State) (block : Byte), s.Ready →
    ∃ (u v t : State) (low high : Byte),
      exec (.crc [s.cfg.kRead, block]) s = .next u ∧ u.reply = .pair low high ∧
      exec (.xcv s.cfg.cmdTransceive [s.cfg.kRead, block, low, high]) u = .next v ∧ exec (.rdblk block) s = .next t ∧
      (v.regs.status = .ok → v.rx.length = 16 → t = { v with reply := .block v.rx } ∧ t.regs.cause = .none) ∧
      (v.regs.status = .ok → v.rx.length ≠ 16 → t = { v with regs := { v.regs with cause := .lengthMismatch }, reply := .absent }) ∧
      (v.regs.status ≠ .ok → t = { v with reply := .absent })

/-- WRBLK with its acknowledge test (R192, R193): phase 1, and phase 2 only when phase 1 was acknowledged; OK only when both were. -/
def Obligations.WriteBlock : Prop :=
  ∀ (s : State) (block : Byte) (data : List Byte), s.Ready → data.length = 16 →
    let acknowledged := fun (v : State) =>
      v.regs.status = .ok ∧ v.regs.bitLen.toInt = 4 ∧ ∃ b, v.rx.head? = some b ∧ b &&& 0x0F#8 = 0x0A#8
    let failed := fun (v : State) =>
      { v with
        regs := { v.regs with status := .error, cause := if v.regs.status = .ok then Cause.ackMismatch else v.regs.cause }
        reply := .status .error : State }
    ∃ (u v t : State) (low high : Byte),
      exec (.crc [s.cfg.kWrite, block]) s = .next u ∧ u.reply = .pair low high ∧
      exec (.xcv s.cfg.cmdTransceive [s.cfg.kWrite, block, low, high]) u = .next v ∧ exec (.wrblk block data) s = .next t ∧
      (¬ acknowledged v → t = failed v) ∧
      (acknowledged v → ∃ (w x : State) (low' high' : Byte),
        exec (.crc data) v = .next w ∧ w.reply = .pair low' high' ∧
        exec (.xcv s.cfg.cmdTransceive (data ++ [low', high'])) w = .next x ∧
        (acknowledged x → t = { x with reply := .status .ok } ∧ t.regs.cause = .none) ∧ (¬ acknowledged x → t = failed x))

/-- RDSEC (R194): AUTHSEC on the trailer's address; on OK the blocks base, base + 1, base + 2, an absent one skipped; STOPC on every path. -/
def Obligations.ReadSector : Prop :=
  ∀ (s : State) (id : List Byte) (slot base : Byte) (key : List Byte), s.Ready → IdentifierOk id → (slot = 0#8 ∨ slot = 1#8) → key.length = 6 →
    base.toNat + 3 ≤ 255 →
    ∃ (u t : State), exec (.authsec id slot (base + 3#8) key) s = .next u ∧ exec (.rdsec id slot base key) s = .next t ∧
      (u.regs.status ≠ .ok → ∃ z, exec .stopc u = .next z ∧ t = { z with reply := .bytes [] }) ∧
      (u.regs.status = .ok → ∃ (v w x z : State), exec (.rdblk base) u = .next v ∧ exec (.rdblk (base + 1#8)) v = .next w ∧
        exec (.rdblk (base + 2#8)) w = .next x ∧ exec .stopc x = .next z ∧
        t = { z with reply := .bytes (blockOf v.reply ++ blockOf w.reply ++ blockOf x.reply) })

/-! CRC. -/

/-- CRC: its transactions in order (R206, R208), at most 255 polls, the pair the two result registers answered, the timeout signal; status and
cause are not touched (R205, R207). -/
def Obligations.CrcTranscripts : Prop :=
  ∀ (s : State) (bytes : List Byte), s.Ready → bytes.length ≤ 64 →
    ∃ (t : State) (events : List Event) (low high : Byte), exec (.crc bytes) s = .next t ∧ t.port.trace = s.port.trace ++ events ∧
      CrcTranscript s.cfg bytes events low high t.regs.crcTo ∧ t.reply = .pair low high ∧ t.regs.crcLo = low ∧ t.regs.crcHi = high ∧
      t.regs.status = s.regs.status ∧ t.regs.cause = s.regs.cause ∧ t.tx = bytes ∧ t.pc = .idle

/-- Appending its own CRC to a byte sequence and running CRC_A over the whole gives 0 (R210; the definition is general knowledge, log 25). -/
def Obligations.CrcResidueIsZero : Prop :=
  (∀ bytes : List Byte, crcState (bytes ++ [(crcA bytes).1, (crcA bytes).2]) = 0#16) ∧
  crcA [0x31#8, 0x32#8, 0x33#8, 0x34#8, 0x35#8, 0x36#8, 0x37#8, 0x38#8, 0x39#8] = (0x05#8, 0xBF#8)

/-- In the reference environment, with BOOT_CONFIG applied (R268, D24) and no entry of it at one of the twelve addresses, CRC returns CRC_A of exactly
the bytes given (R80's ENV-CRC; the environment is the model's, logs 13, 14 and 29). -/
def Obligations.ReferenceCrcIsCrcA : Prop :=
  ∀ (s : State) (bytes : List Byte), s.Ready → s.Inv → s.port.kind = .reference → s.port.answers = [] → bytes.length ≤ 64 →
    s.cfg.mFlush ≠ 0#8 → s.port.chip.booted s.cfg = true → (∀ e ∈ s.cfg.bootConfig, e.addr ∉ s.cfg.addresses) →
    ∃ t, exec (.crc bytes) s = .next t ∧ t.reply = .pair (crcA bytes).1 (crcA bytes).2

/-! Access bits. -/

/-- ACENC (R216 to R218): every bit of the four access bytes, each plane once plain and once inverted. -/
def Obligations.EncodesAccessWord : Prop :=
  ∀ (s : State) (c0 c1 c2 c3 user : Byte), s.Ready → c0.toNat ≤ 7 → c1.toNat ≤ 7 → c2.toNat ≤ 7 → c3.toNat ≤ 7 →
    ∃ b0 b1 b2 : Byte, exec (.acenc c0 c1 c2 c3 user) s = .next { s with reply := .bytes [b0, b1, b2, user] } ∧
      ∀ (k : Nat) (c : Byte), [c0, c1, c2, c3][k]? = some c →
        b0.getLsbD (k + 4) = !c.getLsbD 1 ∧ b0.getLsbD k = !c.getLsbD 2 ∧ b1.getLsbD (k + 4) = c.getLsbD 2 ∧
        b1.getLsbD k = !c.getLsbD 0 ∧ b2.getLsbD (k + 4) = c.getLsbD 0 ∧ b2.getLsbD k = c.getLsbD 1

/-- ACDEC (R219), `op` 0x61: the codes from the plain copies alone; byte 0 and the low nibble of byte 1 are not read. -/
def Obligations.DecodesAccessWord : Prop :=
  ∀ (s : State) (b0 b1 b2 b3 : Byte), s.Ready →
    decode s.cfg .host [0x61#8, b0, b1, b2, b3] = .ok (.acdec b0 b1 b2 b3) ∧
    ∃ w : AccessWord, exec (.acdec b0 b1 b2 b3) s = .next { s with reply := .word w } ∧ w.user = b3 ∧
      ∀ (k : Nat) (c : BitVec 3), [w.c0, w.c1, w.c2, w.c3][k]? = some c →
        c.getLsbD 2 = b1.getLsbD (k + 4) ∧ c.getLsbD 1 = b2.getLsbD k ∧ c.getLsbD 0 = b2.getLsbD (k + 4)

/-- ACCHK (R220): true exactly when every bit and its stored complement agree, and then exactly for an output of ACENC. -/
def Obligations.ChecksAccessBytes : Prop :=
  ∀ (s : State) (b0 b1 b2 b3 : Byte), s.Ready →
    ∃ v : Bool, exec (.acchk b0 b1 b2 b3) s = .next { s with reply := .bit v } ∧
      (v = true ↔ ∀ k, k < 4 → b0.getLsbD (k + 4) = !b2.getLsbD k ∧ b0.getLsbD k = !b1.getLsbD (k + 4) ∧ b1.getLsbD k = !b2.getLsbD (k + 4)) ∧
      (v = true ↔ ∃ c0 c1 c2 c3 : Byte, c0.toNat ≤ 7 ∧ c1.toNat ≤ 7 ∧ c2.toNat ≤ 7 ∧ c3.toNat ≤ 7 ∧
        exec (.acenc c0 c1 c2 c3 b3) s = .next { s with reply := .bytes [b0, b1, b2, b3] })

/-- ACSETB (R221), `op` 0x62: one bit of one block's code, published index 1, 2, 3 being bit 2, 1, 0; everything else of the word as it was;
operands out of range are refused. -/
def Obligations.SetsAccessBit : Prop :=
  ∀ (s : State) (c0 c1 c2 c3 user block bitIndex value : Byte), s.Ready →
    decode s.cfg .host [0x62#8, c0, c1, c2, c3, user, block, bitIndex, value] = .ok (.acsetb c0 c1 c2 c3 user block bitIndex value) ∧
    (¬ (Instr.acsetb c0 c1 c2 c3 user block bitIndex value).InRange →
      ∃ cause, exec (.acsetb c0 c1 c2 c3 user block bitIndex value) s = .next { s with reply := .refused cause }) ∧
    ((Instr.acsetb c0 c1 c2 c3 user block bitIndex value).InRange →
      ∃ w : AccessWord, exec (.acsetb c0 c1 c2 c3 user block bitIndex value) s = .next { s with reply := .word w } ∧ w.user = user ∧
        ∀ (k : Nat) (c : Byte) (d : BitVec 3), [c0, c1, c2, c3][k]? = some c → [w.c0, w.c1, w.c2, w.c3][k]? = some d →
          ∀ j, j < 3 → d.getLsbD j = if k = block.toNat ∧ j = 3 - bitIndex.toNat then value.getLsbD 0 else c.getLsbD j)

/-- TRPACK and TRUNPK (R222, R223, R113): key A, the four access bytes, key B; unpacking takes any 16 bytes, the access bytes as ACDEC takes them. -/
def Obligations.PacksAndUnpacksTrailers : Prop :=
  (∀ (s : State) (keyA : List Byte) (c0 c1 c2 c3 user : Byte) (keyB : List Byte), s.Ready →
    (Instr.trpack keyA c0 c1 c2 c3 user keyB).InRange →
    ∃ access : List Byte, exec (.acenc c0 c1 c2 c3 user) s = .next { s with reply := .bytes access } ∧
      exec (.trpack keyA c0 c1 c2 c3 user keyB) s = .next { s with reply := .bytes (keyA ++ access ++ keyB) } ∧
      (keyA ++ access ++ keyB).length = 16) ∧
  (∀ (s : State) (keyA keyB : List Byte) (b0 b1 b2 b3 : Byte), s.Ready → keyA.length = 6 → keyB.length = 6 →
    ∃ w : AccessWord, exec (.acdec b0 b1 b2 b3) s = .next { s with reply := .word w } ∧
      exec (.trunpk (keyA ++ [b0, b1, b2, b3] ++ keyB)) s = .next { s with reply := .trailer ⟨⟨.a, keyA⟩, w, ⟨.b, keyB⟩⟩ })

/-- The laws of the codec (R224): decoding gives back the word encoded, so encoding is injective; encoded words are well-formed; well-formed
bytes are what their word encodes to; unpacking gives back the trailer packed. -/
def Obligations.CodecLaws : Prop :=
  (∀ w : AccessWord, ∃ b0 b1 b2 b3, encodeWord w = [b0, b1, b2, b3] ∧ decodeWord b0 b1 b2 b3 = w ∧ wordConsistent b0 b1 b2 = true) ∧
  (∀ w w' : AccessWord, encodeWord w = encodeWord w' → w = w') ∧
  (∀ b0 b1 b2 b3 : Byte, wordConsistent b0 b1 b2 = true → encodeWord (decodeWord b0 b1 b2 b3) = [b0, b1, b2, b3]) ∧
  (∀ t : SectorTrailer, t.keyA.slot = .a → t.keyB.slot = .b → t.keyA.bytes.length = 6 → t.keyB.bytes.length = 6 →
    unpackTrailer (packTrailer t) = some t)

/-! Chip commands and card frames. -/

/-- The four chip commands (R92): the code written whole to the command register; TRANSCEIVE also sets the start-send bit (R143; log 11: that
the rows run as requests of their own is the model's). -/
def Obligations.ChipCommands : Prop :=
  ∀ s : State, s.Ready →
    (∃ t, exec .idle s = .next t ∧ t.port.trace = s.port.trace ++ [.write s.cfg.aCommand s.cfg.cmdIdle] ∧ t.reply = .done ∧ t.pc = .idle) ∧
    (∃ t, exec .calccrc s = .next t ∧ t.port.trace = s.port.trace ++ [.write s.cfg.aCommand s.cfg.cmdCalcCrc] ∧ t.reply = .done ∧ t.pc = .idle) ∧
    (∃ t, exec .authent s = .next t ∧ t.port.trace = s.port.trace ++ [.write s.cfg.aCommand s.cfg.cmdAuthent] ∧ t.reply = .done ∧ t.pc = .idle) ∧
    (∃ t v, exec .transceive s = .next t ∧
      t.port.trace = s.port.trace ++ [.write s.cfg.aCommand s.cfg.cmdTransceive, .read s.cfg.aBitFraming v,
        .write s.cfg.aBitFraming (v ||| s.cfg.mStartSend)] ∧ t.reply = .done ∧ t.pc = .idle)

/-- The card frames without a CRC suffix (R97, R98, R100): the frame is exchanged as XCV or AUTHCMD exchanges it, byte by byte as the rule's
table gives it, REQUEST after the write of the short framing and ANTICOLLISION after that of the byte framing (log 11). -/
def Obligations.PlainCardFrames : Prop :=
  ∀ s : State, s.Ready →
    (∃ t, exec .request s = .next t ∧
      exec (.xcv s.cfg.cmdTransceive [s.cfg.kRequest]) (s.write s.cfg.aBitFraming s.cfg.framingShort) = .next t) ∧
    (∀ level, ∃ t, exec (.anticollision level) s = .next t ∧
      exec (.xcv s.cfg.cmdTransceive [s.cfg.kAnticoll, s.cfg.kCascade]) (s.write s.cfg.aBitFraming s.cfg.framingByte) = .next t) ∧
    (∀ block key uid, key.length = 6 → uid.length = 4 →
      (∃ t, exec (.authA block key uid) s = .next t ∧ exec (.authcmd ([s.cfg.kAuthA, block] ++ key ++ uid)) s = .next t) ∧
      (∃ t, exec (.authB block key uid) s = .next t ∧ exec (.authcmd ([s.cfg.kAuthB, block] ++ key ++ uid)) s = .next t))

/-- The card frames with a CRC suffix (R99, R101, R102, R105): CRC over the bytes so far, then XCV of them with the pair appended, low first (log 11). -/
def Obligations.SuffixedCardFrames : Prop :=
  ∀ (s : State) (i : Instr) (frame : List Byte), s.Ready →
    ((∃ id, IdentifierOk id ∧ i = .selectCard id ∧ frame = [s.cfg.kSelect, 0x70#8] ++ id) ∨
     (∃ block, i = .read block ∧ frame = [s.cfg.kRead, block]) ∨ (∃ block, i = .write block ∧ frame = [s.cfg.kWrite, block])) →
    ∃ (u t : State) (low high : Byte), exec (.crc frame) s = .next u ∧ u.reply = .pair low high ∧ exec i s = .next t ∧
      exec (.xcv s.cfg.cmdTransceive (frame ++ [low, high])) u = .next t
end

