-- ==== Sys2Proof/Laws/State.lean ====
section
/-! SUPPORT. What each update of the state, and each register-port transaction, does to each field. -/
namespace Sys2Proof.Machine

variable (s : State)

@[simp] theorem State.withPc_cfg (v : Pc) : (s.withPc v).cfg = s.cfg := rfl
@[simp] theorem State.withPc_pc (v : Pc) : (s.withPc v).pc = v := rfl
@[simp] theorem State.withPc_regs (v : Pc) : (s.withPc v).regs = s.regs := rfl
@[simp] theorem State.withPc_tx (v : Pc) : (s.withPc v).tx = s.tx := rfl
@[simp] theorem State.withPc_rx (v : Pc) : (s.withPc v).rx = s.rx := rfl
@[simp] theorem State.withPc_reply (v : Pc) : (s.withPc v).reply = s.reply := rfl
@[simp] theorem State.withPc_inbox (v : Pc) : (s.withPc v).inbox = s.inbox := rfl
@[simp] theorem State.withPc_port (v : Pc) : (s.withPc v).port = s.port := rfl

@[simp] theorem State.withRegs_cfg (v : Regs) : (s.withRegs v).cfg = s.cfg := rfl
@[simp] theorem State.withRegs_pc (v : Regs) : (s.withRegs v).pc = s.pc := rfl
@[simp] theorem State.withRegs_regs (v : Regs) : (s.withRegs v).regs = v := rfl
@[simp] theorem State.withRegs_tx (v : Regs) : (s.withRegs v).tx = s.tx := rfl
@[simp] theorem State.withRegs_rx (v : Regs) : (s.withRegs v).rx = s.rx := rfl
@[simp] theorem State.withRegs_reply (v : Regs) : (s.withRegs v).reply = s.reply := rfl
@[simp] theorem State.withRegs_inbox (v : Regs) : (s.withRegs v).inbox = s.inbox := rfl
@[simp] theorem State.withRegs_port (v : Regs) : (s.withRegs v).port = s.port := rfl

@[simp] theorem State.withTx_cfg (v : List Byte) : (s.withTx v).cfg = s.cfg := rfl
@[simp] theorem State.withTx_pc (v : List Byte) : (s.withTx v).pc = s.pc := rfl
@[simp] theorem State.withTx_regs (v : List Byte) : (s.withTx v).regs = s.regs := rfl
@[simp] theorem State.withTx_tx (v : List Byte) : (s.withTx v).tx = v := rfl
@[simp] theorem State.withTx_rx (v : List Byte) : (s.withTx v).rx = s.rx := rfl
@[simp] theorem State.withTx_reply (v : List Byte) : (s.withTx v).reply = s.reply := rfl
@[simp] theorem State.withTx_inbox (v : List Byte) : (s.withTx v).inbox = s.inbox := rfl
@[simp] theorem State.withTx_port (v : List Byte) : (s.withTx v).port = s.port := rfl

@[simp] theorem State.withRx_cfg (v : List Byte) : (s.withRx v).cfg = s.cfg := rfl
@[simp] theorem State.withRx_pc (v : List Byte) : (s.withRx v).pc = s.pc := rfl
@[simp] theorem State.withRx_regs (v : List Byte) : (s.withRx v).regs = s.regs := rfl
@[simp] theorem State.withRx_tx (v : List Byte) : (s.withRx v).tx = s.tx := rfl
@[simp] theorem State.withRx_rx (v : List Byte) : (s.withRx v).rx = v := rfl
@[simp] theorem State.withRx_reply (v : List Byte) : (s.withRx v).reply = s.reply := rfl
@[simp] theorem State.withRx_inbox (v : List Byte) : (s.withRx v).inbox = s.inbox := rfl
@[simp] theorem State.withRx_port (v : List Byte) : (s.withRx v).port = s.port := rfl

@[simp] theorem State.withReply_cfg (v : Reply) : (s.withReply v).cfg = s.cfg := rfl
@[simp] theorem State.withReply_pc (v : Reply) : (s.withReply v).pc = s.pc := rfl
@[simp] theorem State.withReply_regs (v : Reply) : (s.withReply v).regs = s.regs := rfl
@[simp] theorem State.withReply_tx (v : Reply) : (s.withReply v).tx = s.tx := rfl
@[simp] theorem State.withReply_rx (v : Reply) : (s.withReply v).rx = s.rx := rfl
@[simp] theorem State.withReply_reply (v : Reply) : (s.withReply v).reply = v := rfl
@[simp] theorem State.withReply_inbox (v : Reply) : (s.withReply v).inbox = s.inbox := rfl
@[simp] theorem State.withReply_port (v : Reply) : (s.withReply v).port = s.port := rfl

@[simp] theorem State.withInbox_cfg (v : List Request) : (s.withInbox v).cfg = s.cfg := rfl
@[simp] theorem State.withInbox_pc (v : List Request) : (s.withInbox v).pc = s.pc := rfl
@[simp] theorem State.withInbox_regs (v : List Request) : (s.withInbox v).regs = s.regs := rfl
@[simp] theorem State.withInbox_tx (v : List Request) : (s.withInbox v).tx = s.tx := rfl
@[simp] theorem State.withInbox_rx (v : List Request) : (s.withInbox v).rx = s.rx := rfl
@[simp] theorem State.withInbox_reply (v : List Request) : (s.withInbox v).reply = s.reply := rfl
@[simp] theorem State.withInbox_inbox (v : List Request) : (s.withInbox v).inbox = v := rfl
@[simp] theorem State.withInbox_port (v : List Request) : (s.withInbox v).port = s.port := rfl

@[simp] theorem State.withPort_cfg (v : Port) : (s.withPort v).cfg = s.cfg := rfl
@[simp] theorem State.withPort_pc (v : Port) : (s.withPort v).pc = s.pc := rfl
@[simp] theorem State.withPort_regs (v : Port) : (s.withPort v).regs = s.regs := rfl
@[simp] theorem State.withPort_tx (v : Port) : (s.withPort v).tx = s.tx := rfl
@[simp] theorem State.withPort_rx (v : Port) : (s.withPort v).rx = s.rx := rfl
@[simp] theorem State.withPort_reply (v : Port) : (s.withPort v).reply = s.reply := rfl
@[simp] theorem State.withPort_inbox (v : Port) : (s.withPort v).inbox = s.inbox := rfl
@[simp] theorem State.withPort_port (v : Port) : (s.withPort v).port = v := rfl

@[simp] theorem State.afterRead_cfg (a : RegAddr) : (s.afterRead a).cfg = s.cfg := rfl
@[simp] theorem State.afterRead_pc (a : RegAddr) : (s.afterRead a).pc = s.pc := rfl
@[simp] theorem State.afterRead_regs (a : RegAddr) : (s.afterRead a).regs = s.regs := rfl
@[simp] theorem State.afterRead_tx (a : RegAddr) : (s.afterRead a).tx = s.tx := rfl
@[simp] theorem State.afterRead_rx (a : RegAddr) : (s.afterRead a).rx = s.rx := rfl
@[simp] theorem State.afterRead_reply (a : RegAddr) : (s.afterRead a).reply = s.reply := rfl
@[simp] theorem State.afterRead_inbox (a : RegAddr) : (s.afterRead a).inbox = s.inbox := rfl

@[simp] theorem State.write_cfg (a : RegAddr) (v : Byte) : (s.write a v).cfg = s.cfg := rfl
@[simp] theorem State.write_pc (a : RegAddr) (v : Byte) : (s.write a v).pc = s.pc := rfl
@[simp] theorem State.write_regs (a : RegAddr) (v : Byte) : (s.write a v).regs = s.regs := rfl
@[simp] theorem State.write_tx (a : RegAddr) (v : Byte) : (s.write a v).tx = s.tx := rfl
@[simp] theorem State.write_rx (a : RegAddr) (v : Byte) : (s.write a v).rx = s.rx := rfl
@[simp] theorem State.write_reply (a : RegAddr) (v : Byte) : (s.write a v).reply = s.reply := rfl
@[simp] theorem State.write_inbox (a : RegAddr) (v : Byte) : (s.write a v).inbox = s.inbox := rfl

@[simp] theorem State.setBits_cfg (a : RegAddr) (m : Byte) : (s.setBits a m).cfg = s.cfg := rfl
@[simp] theorem State.setBits_pc (a : RegAddr) (m : Byte) : (s.setBits a m).pc = s.pc := rfl
@[simp] theorem State.setBits_regs (a : RegAddr) (m : Byte) : (s.setBits a m).regs = s.regs := rfl
@[simp] theorem State.setBits_tx (a : RegAddr) (m : Byte) : (s.setBits a m).tx = s.tx := rfl
@[simp] theorem State.setBits_rx (a : RegAddr) (m : Byte) : (s.setBits a m).rx = s.rx := rfl
@[simp] theorem State.setBits_reply (a : RegAddr) (m : Byte) : (s.setBits a m).reply = s.reply := rfl
@[simp] theorem State.setBits_inbox (a : RegAddr) (m : Byte) : (s.setBits a m).inbox = s.inbox := rfl

@[simp] theorem State.clearBits_cfg (a : RegAddr) (m : Byte) : (s.clearBits a m).cfg = s.cfg := rfl
@[simp] theorem State.clearBits_pc (a : RegAddr) (m : Byte) : (s.clearBits a m).pc = s.pc := rfl
@[simp] theorem State.clearBits_regs (a : RegAddr) (m : Byte) : (s.clearBits a m).regs = s.regs := rfl
@[simp] theorem State.clearBits_tx (a : RegAddr) (m : Byte) : (s.clearBits a m).tx = s.tx := rfl
@[simp] theorem State.clearBits_rx (a : RegAddr) (m : Byte) : (s.clearBits a m).rx = s.rx := rfl
@[simp] theorem State.clearBits_reply (a : RegAddr) (m : Byte) : (s.clearBits a m).reply = s.reply := rfl
@[simp] theorem State.clearBits_inbox (a : RegAddr) (m : Byte) : (s.clearBits a m).inbox = s.inbox := rfl

@[simp] theorem State.finish_cfg (r : Reply) : (s.finish r).cfg = s.cfg := rfl
@[simp] theorem State.finish_regs (r : Reply) : (s.finish r).regs = s.regs := rfl
@[simp] theorem State.finish_tx (r : Reply) : (s.finish r).tx = s.tx := rfl
@[simp] theorem State.finish_rx (r : Reply) : (s.finish r).rx = s.rx := rfl
@[simp] theorem State.finish_inbox (r : Reply) : (s.finish r).inbox = s.inbox := rfl
@[simp] theorem State.finish_port (r : Reply) : (s.finish r).port = s.port := rfl
@[simp] theorem State.finish_pc (r : Reply) : (s.finish r).pc = .idle := rfl
@[simp] theorem State.finish_reply (r : Reply) : (s.finish r).reply = r := rfl

@[simp] theorem State.refuse_cfg (c : RefuseCause) : (s.refuse c).cfg = s.cfg := rfl
@[simp] theorem State.refuse_pc (c : RefuseCause) : (s.refuse c).pc = s.pc := rfl
@[simp] theorem State.refuse_regs (c : RefuseCause) : (s.refuse c).regs = s.regs := rfl
@[simp] theorem State.refuse_tx (c : RefuseCause) : (s.refuse c).tx = s.tx := rfl
@[simp] theorem State.refuse_rx (c : RefuseCause) : (s.refuse c).rx = s.rx := rfl
@[simp] theorem State.refuse_inbox (c : RefuseCause) : (s.refuse c).inbox = s.inbox := rfl
@[simp] theorem State.refuse_port (c : RefuseCause) : (s.refuse c).port = s.port := rfl
@[simp] theorem State.refuse_reply (c : RefuseCause) : (s.refuse c).reply = .refused c := rfl

@[simp] theorem State.raise_cfg (st : Status) (c : Cause) : (s.raise st c).cfg = s.cfg := rfl
@[simp] theorem State.raise_pc (st : Status) (c : Cause) : (s.raise st c).pc = s.pc := rfl
@[simp] theorem State.raise_tx (st : Status) (c : Cause) : (s.raise st c).tx = s.tx := rfl
@[simp] theorem State.raise_rx (st : Status) (c : Cause) : (s.raise st c).rx = s.rx := rfl
@[simp] theorem State.raise_reply (st : Status) (c : Cause) : (s.raise st c).reply = s.reply := rfl
@[simp] theorem State.raise_inbox (st : Status) (c : Cause) : (s.raise st c).inbox = s.inbox := rfl
@[simp] theorem State.raise_port (st : Status) (c : Cause) : (s.raise st c).port = s.port := rfl
@[simp] theorem State.raise_status (st : Status) (c : Cause) : (s.raise st c).regs.status = st := rfl
@[simp] theorem State.raise_cause (st : Status) (c : Cause) : (s.raise st c).regs.cause = c := rfl
@[simp] theorem State.raise_bitLen (st : Status) (c : Cause) : (s.raise st c).regs.bitLen = s.regs.bitLen := rfl

/-! The port. -/

@[simp] theorem State.afterRead_trace (a : RegAddr) :
    (s.afterRead a).port.trace = s.port.trace ++ [.read a (s.answer a)] := rfl
@[simp] theorem State.write_trace (a : RegAddr) (v : Byte) : (s.write a v).port.trace = s.port.trace ++ [.write a v] := rfl
@[simp] theorem State.afterRead_answers (a : RegAddr) : (s.afterRead a).port.answers = s.port.answers.tail := rfl
@[simp] theorem State.write_answers (a : RegAddr) (v : Byte) : (s.write a v).port.answers = s.port.answers := rfl
@[simp] theorem State.afterRead_card (a : RegAddr) : (s.afterRead a).port.card = s.port.card := rfl
@[simp] theorem State.afterRead_kind (a : RegAddr) : (s.afterRead a).port.kind = s.port.kind := rfl
@[simp] theorem State.write_kind (a : RegAddr) (v : Byte) : (s.write a v).port.kind = s.port.kind := rfl
@[simp] theorem State.afterRead_line (a : RegAddr) : (s.afterRead a).port.line = s.port.line := rfl
@[simp] theorem State.write_line (a : RegAddr) (v : Byte) : (s.write a v).port.line = s.port.line := rfl
@[simp] theorem State.afterRead_deadlines (a : RegAddr) : (s.afterRead a).port.deadlines = s.port.deadlines := rfl
@[simp] theorem State.write_deadlines (a : RegAddr) (v : Byte) : (s.write a v).port.deadlines = s.port.deadlines := rfl

/-- `setBits` makes a read and then a write (R133). -/
theorem State.setBits_trace (a : RegAddr) (m : Byte) :
    (s.setBits a m).port.trace = s.port.trace ++ [.read a (s.answer a), .write a (s.answer a ||| m)] := by
  simp [State.setBits]

/-- `clearBits` makes a read and then a write (R134). -/
theorem State.clearBits_trace (a : RegAddr) (m : Byte) :
    (s.clearBits a m).port.trace = s.port.trace ++ [.read a (s.answer a), .write a (s.answer a &&& ~~~m)] := by
  simp [State.clearBits]

@[simp] theorem State.setBits_answers (a : RegAddr) (m : Byte) : (s.setBits a m).port.answers = s.port.answers.tail := rfl
@[simp] theorem State.clearBits_answers (a : RegAddr) (m : Byte) : (s.clearBits a m).port.answers = s.port.answers.tail := rfl

/-- A scripted answer is the one read (R62). -/
theorem State.answer_of_script (a : RegAddr) {v : Byte} {rest : List Byte} (h : s.port.answers = v :: rest) : s.answer a = v := by
  simp [State.answer, Port.answer, h]

/-- What an answer depends on: the configuration and the port. -/
theorem State.answer_congr {s t : State} (a : RegAddr) (hc : s.cfg = t.cfg) (hp : s.port = t.port) : s.answer a = t.answer a := by
  simp [State.answer, hc, hp]

@[simp] theorem State.withRegs_answer (r : Regs) (a : RegAddr) : (s.withRegs r).answer a = s.answer a := rfl
@[simp] theorem State.withTx_answer (r : List Byte) (a : RegAddr) : (s.withTx r).answer a = s.answer a := rfl
@[simp] theorem State.withRx_answer (r : List Byte) (a : RegAddr) : (s.withRx r).answer a = s.answer a := rfl
@[simp] theorem State.withPc_answer (r : Pc) (a : RegAddr) : (s.withPc r).answer a = s.answer a := rfl
@[simp] theorem State.withReply_answer (r : Reply) (a : RegAddr) : (s.withReply r).answer a = s.answer a := rfl
@[simp] theorem State.withInbox_answer (r : List Request) (a : RegAddr) : (s.withInbox r).answer a = s.answer a := rfl

/-! Serving a request. -/

/-- The gate is open exactly for an idle controller, a valid configuration and operands in range. -/
theorem State.gate_eq_none {i : Instr} : s.gate i = none ↔ s.pc = .idle ∧ s.cfg.valid = true ∧ refusal i = none := by
  unfold State.gate
  split
  · simp_all
  · split <;> simp_all

/-- A request the gate lets through runs its operation. -/
theorem State.serve_open {i : Instr} {body : State → State} (h : s.gate i = none) : s.serve i body = body s := by
  simp [State.serve, h]

/-- A request the gate stops is refused and nothing else happens (R260). -/
theorem State.serve_stopped {i : Instr} {c : RefuseCause} {body : State → State} (h : s.gate i = some c) :
    s.serve i body = s.refuse c := by
  simp [State.serve, h]

end Sys2Proof.Machine
end

