-- ==== Sys2Proof/Laws/Sequencer.lean ====
section
/-! SUPPORT. The sequencer's labels and calls decide nothing: the engines read neither the sequencer nor the reply, so each operation is what it
would be without them, and every later proof is about that. What was told before commutes with all of them. -/
namespace Sys2Proof.Machine

/-- A state with a reply and a sequencer position set. -/
def State.told (s : State) (r : Reply) (p : Pc) : State := (s.withReply r).withPc p

variable (s : State) (r : Reply) (p : Pc)

theorem State.told_self : s.told s.reply s.pc = s := rfl
theorem State.finish_eq_told : s.finish r = s.told r .idle := rfl
theorem State.withPc_eq_told : s.withPc p = s.told s.reply p := rfl
@[simp] theorem State.told_told (r' : Reply) (p' : Pc) : (s.told r p).told r' p' = s.told r' p' := rfl
@[simp] theorem State.told_cfg : (s.told r p).cfg = s.cfg := rfl
@[simp] theorem State.told_port : (s.told r p).port = s.port := rfl
@[simp] theorem State.told_regs : (s.told r p).regs = s.regs := rfl
@[simp] theorem State.told_tx : (s.told r p).tx = s.tx := rfl
@[simp] theorem State.told_rx : (s.told r p).rx = s.rx := rfl
@[simp] theorem State.told_inbox : (s.told r p).inbox = s.inbox := rfl
@[simp] theorem State.told_reply : (s.told r p).reply = r := rfl
@[simp] theorem State.told_pc : (s.told r p).pc = p := rfl
@[simp] theorem State.told_answer (a : RegAddr) : (s.told r p).answer a = s.answer a := rfl
theorem State.told_afterRead (a : RegAddr) : (s.told r p).afterRead a = (s.afterRead a).told r p := rfl
theorem State.told_write (a : RegAddr) (v : Byte) : (s.told r p).write a v = (s.write a v).told r p := rfl
theorem State.told_setBits (a : RegAddr) (v : Byte) : (s.told r p).setBits a v = (s.setBits a v).told r p := rfl
theorem State.told_clearBits (a : RegAddr) (v : Byte) : (s.told r p).clearBits a v = (s.clearBits a v).told r p := rfl
theorem State.told_withRegs (g : Regs) : (s.told r p).withRegs g = (s.withRegs g).told r p := rfl
theorem State.told_withTx (b : List Byte) : (s.told r p).withTx b = (s.withTx b).told r p := rfl
theorem State.told_withRx (b : List Byte) : (s.told r p).withRx b = (s.withRx b).told r p := rfl
theorem State.goto_eq_told (k : Nat) : s.goto k = s.told s.reply (s.pc.goto k) := rfl
theorem State.told_raise (st : Status) (c : Cause) : (s.told r p).raise st c = (s.raise st c).told r p := rfl

theorem State.told_loadFifo (bytes : List Byte) : (s.told r p).loadFifo bytes = (s.loadFifo bytes).told r p := by
  induction bytes generalizing s with
  | nil => rfl
  | cons b bs ih => exact ih (s.write s.cfg.aFifoData b)

theorem State.told_drainFifo (n : Nat) : (s.told r p).drainFifo n = (s.drainFifo n).told r p := by
  induction n generalizing s with
  | zero => rfl
  | succ n ih => exact ih ((s.afterRead s.cfg.aFifoData).withRx (s.rx ++ [s.answer s.cfg.aFifoData]))

theorem pollIrqLoop_told (k : Nat) : pollIrqLoop k (s.told r p) = (pollIrqLoop k s).told r p := by
  induction k generalizing s with
  | zero => rfl
  | succ k ih =>
    have h : pollIrqOnce (s.told r p) = (pollIrqOnce s).told r p := rfl
    simp only [pollIrqLoop, h, State.told_regs, ih]
    split <;> rfl

theorem pollCrcLoop_told (k : Nat) : pollCrcLoop k (s.told r p) = (pollCrcLoop k s).told r p := by
  induction k generalizing s with
  | zero => rfl
  | succ k ih =>
    have h : pollCrcOnce (s.told r p) = (pollCrcOnce s).told r p := rfl
    simp only [pollCrcLoop, h, State.told_regs, State.told_cfg, ih]
    split <;> rfl

/-! `transceive` and `computeCRC` without their labels. -/

/-- T1 to T4 without the labels. -/
def runPlain (cmd : Byte) (out : List Byte) (s : State) : State :=
  stopSend (pollIrq (issueCommand cmd (armAndFlush (selectMasks cmd (s.withTx out)))))

/-- T5 and T6 without the labels. -/
def concludePlain (cmd : Byte) (s : State) : State :=
  if s.regs.i = 0#11 then s
  else
    let s := decideStatus s
    if s.regs.status ≠ .error ∧ cmd = s.cfg.cmdTransceive then receive s else s

/-- C1 to C4 without the labels. -/
def startPlain (s : State) : State :=
  let s := (s.clearBits s.cfg.aDivIrq s.cfg.mCrcDone).setBits s.cfg.aFifoLevel s.cfg.mFlush
  (s.loadFifo s.tx).write s.cfg.aCommand s.cfg.cmdCalcCrc

theorem armAndFlush_told : armAndFlush (s.told r p) = (armAndFlush s).told r p := by
  simp only [armAndFlush, State.told_write, State.told_clearBits, State.told_setBits, State.told_cfg, State.told_regs]

theorem issueCommand_told (cmd : Byte) : issueCommand cmd (s.told r p) = (issueCommand cmd s).told r p := by
  simp only [issueCommand, State.told_loadFifo, State.told_tx, State.told_write, State.told_setBits, State.told_cfg]
  split <;> rfl

theorem pollIrq_told : pollIrq (s.told r p) = (pollIrq s).told r p := by
  simp only [pollIrq, State.told_withRegs, State.told_regs, pollIrqLoop_told]

theorem selectMasks_told (cmd : Byte) : selectMasks cmd (s.told r p) = (selectMasks cmd s).told r p := rfl

theorem stopSend_told : stopSend (s.told r p) = (stopSend s).told r p := by simp only [stopSend, State.told_clearBits, State.told_cfg]

theorem runPlain_told (cmd : Byte) (out : List Byte) : runPlain cmd out (s.told r p) = (runPlain cmd out s).told r p := by
  simp only [runPlain, State.told_withTx, selectMasks_told, armAndFlush_told, issueCommand_told, pollIrq_told, stopSend_told]

theorem decideStatus_told : decideStatus (s.told r p) = (decideStatus s).told r p := rfl

theorem receive_told : receive (s.told r p) = (receive s).told r p := by
  have hs : sampleLengths (s.told r p) = (sampleLengths s).told r p := rfl
  simp only [receive, hs, State.told_regs, State.told_drainFifo]

theorem concludePlain_told (cmd : Byte) : concludePlain cmd (s.told r p) = (concludePlain cmd s).told r p := by
  simp only [concludePlain, State.told_regs, decideStatus_told, State.told_cfg, receive_told]
  split
  · rfl
  · split <;> rfl

theorem startPlain_told : startPlain (s.told r p) = (startPlain s).told r p := by
  simp only [startPlain, State.told_clearBits, State.told_setBits, State.told_loadFifo, State.told_tx, State.told_write, State.told_cfg]

theorem pollCrc_told : pollCrc (s.told r p) = (pollCrc s).told r p := by
  simp only [pollCrc, State.told_withRegs, State.told_regs, pollCrcLoop_told, State.told_cfg]

theorem readCrc_told : readCrc (s.told r p) = (readCrc s).told r p := rfl

/-! The labels decide nothing. -/

/-- The labels of T1 to T4. -/
theorem runCommand_eq (cmd : Byte) (out : List Byte) : runCommand cmd out s = (runPlain cmd out s).told s.reply (s.pc.goto 4) := by
  have hg : ∀ p : Pc, (((p.goto 1).goto 2).goto 3).goto 4 = p.goto 4 := by intro p; cases p <;> rfl
  rw [← hg s.pc]
  simp only [runCommand, runPlain, State.goto_eq_told, selectMasks_told, armAndFlush_told, issueCommand_told, pollIrq_told, stopSend_told,
    State.told_told, State.told_reply, State.told_pc, State.withTx_reply, State.withTx_pc]

/-- Wherever T5 and T6 leave the sequencer, the rest is as without the labels. -/
theorem concludeTransceive_withPc (cmd : Byte) : (concludeTransceive cmd s).withPc p = (concludePlain cmd s).withPc p := by
  have hd : decideStatus (s.goto 5) = (decideStatus s).told s.reply (s.pc.goto 5) := rfl
  have hr : ∀ (s : State) (r : Reply) (q : Pc), receive ((s.told r q).goto 6) = (receive s).told r (q.goto 6) := fun s r q => receive_told s r _
  unfold concludeTransceive concludePlain
  simp only [hd, hr, State.told_regs, State.told_cfg]
  have hi : (s.goto 5).regs = s.regs := rfl
  have hrep : (decideStatus s).reply = s.reply := rfl
  have hrr : (receive (decideStatus s)).reply = s.reply := by
    have := receive_told (decideStatus s) s.reply (decideStatus s).pc
    rw [show (decideStatus s).told s.reply (decideStatus s).pc = decideStatus s from rfl] at this
    rw [this]
    rfl
  rw [hi]
  split
  · rfl
  · split
    · rw [State.withPc_eq_told, State.withPc_eq_told, State.told_told, State.told_reply, hrr]
    · rfl

/-- The labels of C1 to C4. -/
theorem startCrc_eq : startCrc s = (startPlain s).told s.reply (s.pc.goto 4) := by
  have hg : ∀ p : Pc, ((p.goto 2).goto 3).goto 4 = p.goto 4 := by intro p; cases p <;> rfl
  rw [← hg s.pc]
  simp only [startCrc, startPlain, State.goto_eq_told, State.told_setBits, State.told_loadFifo, State.told_write, State.told_told,
    State.told_reply, State.told_pc, State.told_cfg, State.told_tx, State.clearBits_reply, State.clearBits_pc, State.clearBits_cfg]

variable {s}

/-- A call of an operation is the operation, when the operation does not read the sequencer. -/
theorem State.call_of_withPc {op : Instr} {body plain : State → State} (h : ∀ (s : State) (p : Pc), (body s).withPc p = (plain s).withPc p)
    (ht : ∀ (s : State) (r : Reply) (p : Pc), plain (s.told r p) = (plain s).told r p) : s.call op body = plain s := by
  have h1 := ht s s.reply (s.pc.enter op)
  have h2 := ht s s.reply s.pc
  rw [State.told_self] at h2
  unfold State.call
  rw [h]
  show (plain (s.told s.reply (s.pc.enter op))).withPc s.pc = _
  rw [h1]
  conv => rhs; rw [h2]
  rfl

theorem State.call_eq {op : Instr} {body : State → State}
    (ht : ∀ (s : State) (r : Reply) (p : Pc), body (s.told r p) = (body s).told r p) : s.call op body = body s :=
  State.call_of_withPc (fun _ _ => rfl) ht

/-- A call does not read what was told. -/
theorem State.call_told {op : Instr} {body : State → State} (ht : ∀ (s : State) (r : Reply) (p : Pc), body (s.told r p) = (body s).told r p)
    (r : Reply) (p : Pc) : (s.told r p).call op body = (s.call op body).told r p := by
  rw [State.call_eq ht, State.call_eq ht, ht]

variable (s)

/-- Wherever the labels leave the sequencer, the six steps are as without them. -/
theorem steps_withPc (cmd : Byte) (out : List Byte) :
    (concludeTransceive cmd (runCommand cmd out s)).withPc p = (concludePlain cmd (runPlain cmd out s)).withPc p := by
  rw [concludeTransceive_withPc, runCommand_eq, concludePlain_told]
  have h := concludePlain_told (runPlain cmd out s) s.reply (runPlain cmd out s).pc cmd
  have h0 := runPlain_told s s.reply s.pc cmd out
  rw [State.told_self] at h0
  have hr : (runPlain cmd out s).reply = s.reply := by rw [h0]; rfl
  rw [← hr, State.told_self] at h
  conv => rhs; rw [h]
  rw [hr]
  rfl

/-- `transceive` as it is without its labels. -/
theorem transceive_eq (cmd : Byte) (out : List Byte) : transceive cmd out s = concludePlain cmd (runPlain cmd out s) :=
  State.call_of_withPc (plain := fun s => concludePlain cmd (runPlain cmd out s)) (fun s p => steps_withPc s p cmd out)
    (fun s r p => by rw [runPlain_told, concludePlain_told])

/-- `authenticateCommand` is `transceive` with the chip command AUTHENT (R148). -/
theorem authenticateCommand_eq (out : List Byte) : authenticateCommand out s = transceive s.cfg.cmdAuthent out s := by
  rw [transceive_eq]
  exact State.call_of_withPc (plain := fun s => concludePlain s.cfg.cmdAuthent (runPlain s.cfg.cmdAuthent out s))
    (fun s p => steps_withPc s p _ out) (fun s r p => by rw [State.told_cfg, runPlain_told, concludePlain_told])

/-- `computeCRC` as it is without its labels. -/
theorem computeCrc_eq (bytes : List Byte) :
    computeCrc bytes s = readCrc (pollCrc (startPlain ((s.withTx bytes).withRegs { s.regs with crcTo := false }))) := by
  refine State.call_of_withPc (plain := fun s => readCrc (pollCrc (startPlain ((s.withTx bytes).withRegs { s.regs with crcTo := false }))))
    (fun s p => ?_) (fun s r p => ?_)
  · simp only [startCrc_eq, State.goto_eq_told, pollCrc_told, readCrc_told, State.told_told, State.told_reply, State.told_pc]
    rw [State.withPc_eq_told, State.withPc_eq_told, State.told_told, State.told_reply]
    congr 1
    have h0 := readCrc_told (pollCrc (startPlain ((s.withTx bytes).withRegs { s.regs with crcTo := false }))) s.reply s.pc
    have h1 := pollCrc_told (startPlain ((s.withTx bytes).withRegs { s.regs with crcTo := false })) s.reply s.pc
    have h2 := startPlain_told ((s.withTx bytes).withRegs { s.regs with crcTo := false }) s.reply s.pc
    rw [show ((s.withTx bytes).withRegs { s.regs with crcTo := false }).told s.reply s.pc =
      (s.withTx bytes).withRegs { s.regs with crcTo := false } from rfl] at h2
    rw [← h2] at h1
    rw [← h1] at h0
    rw [h0]
    rfl
  · simp only [State.told_withTx, State.told_withRegs, State.told_regs, startPlain_told, pollCrc_told, readCrc_told]

/-- `transceive` commutes with what was told. -/
theorem transceive_told (cmd : Byte) (out : List Byte) : transceive cmd out (s.told r p) = (transceive cmd out s).told r p := by
  simp only [transceive_eq, runPlain_told, concludePlain_told]

/-- `computeCRC` commutes with what was told. -/
theorem computeCrc_told (bytes : List Byte) : computeCrc bytes (s.told r p) = (computeCrc bytes s).told r p := by
  simp only [computeCrc_eq, State.told_withTx, State.told_withRegs, State.told_regs, startPlain_told, pollCrc_told, readCrc_told]

theorem demoteUnless_told (test : Bool) (st : Status) (c : Cause) :
    (s.told r p).demoteUnless test st c = (s.demoteUnless test st c).told r p := by
  by_cases h : s.regs.status = .ok ∧ test = false
  · have h1 : (s.told r p).demoteUnless test st c = (s.told r p).raise st c := if_pos h
    have h2 : s.demoteUnless test st c = s.raise st c := if_pos h
    rw [h1, h2]
    rfl
  · have h1 : (s.told r p).demoteUnless test st c = s.told r p := if_neg h
    have h2 : s.demoteUnless test st c = s := if_neg h
    rw [h1, h2]

theorem exchangeWithCrc_told (frame : List Byte) : exchangeWithCrc frame (s.told r p) = (exchangeWithCrc frame s).told r p := by
  simp only [exchangeWithCrc, computeCrc_told, State.told_cfg, crcSuffix, State.told_regs, transceive_told]

/-! The operations of the layers above, each as it is without the call. -/

theorem requestPresence_eq : requestPresence s =
    let t := transceive s.cfg.cmdTransceive (requestFrame s.cfg) (s.write s.cfg.aBitFraming s.cfg.framingShort)
    t.demoteUnless (t.regs.bitLen == atqaBits) .noTag .lengthMismatch :=
  State.call_eq fun s r p => by simp only [State.told_write, State.told_cfg, transceive_told, State.told_regs, demoteUnless_told]

theorem requestPresence_told : requestPresence (s.told r p) = (requestPresence s).told r p := by
  simp only [requestPresence_eq, State.told_write, State.told_cfg, transceive_told, State.told_regs, demoteUnless_told]

theorem resolveUid_eq : resolveUid s =
    let t := transceive s.cfg.cmdTransceive (anticollisionFrame s.cfg .one) (s.write s.cfg.aBitFraming s.cfg.framingByte)
    let t := t.demoteUnless (t.rx.length == uidRespBytes) .error .lengthMismatch
    t.demoteUnless (checksumOk t.rx) .error .checksumMismatch :=
  State.call_eq fun s r p => by simp only [State.told_write, State.told_cfg, transceive_told, State.told_rx, demoteUnless_told]

theorem resolveUid_told : resolveUid (s.told r p) = (resolveUid s).told r p := by
  simp only [resolveUid_eq, State.told_write, State.told_cfg, transceive_told, State.told_rx, demoteUnless_told]

theorem selectCard_eq (id : List Byte) : selectCard id s =
    let t := exchangeWithCrc (selectFrame s.cfg id) s
    t.demoteUnless (t.regs.bitLen == sakBits) .ok .lengthMismatch :=
  State.call_eq fun s r p => by simp only [State.told_cfg, exchangeWithCrc_told, State.told_regs, demoteUnless_told]

theorem selectCard_told (id : List Byte) : selectCard id (s.told r p) = (selectCard id s).told r p := by
  simp only [selectCard_eq, State.told_cfg, exchangeWithCrc_told, State.told_regs, demoteUnless_told]

theorem authenticate_eq (id : List Byte) (slot : Slot) (block : Byte) (key : List Byte) : authenticate id slot block key s =
    let t := authenticateCommand (authFrame s.cfg slot block key (id.take 4)) s
    let s2 := t.answer t.cfg.aStatus2
    let t := (t.afterRead t.cfg.aStatus2).withRegs { t.regs with s2 := s2 }
    t.demoteUnless (anyBit s2 t.cfg.mCrypto1On) .error .notAuthenticated :=
  State.call_eq fun s r p => by
    simp only [authenticateCommand_eq, State.told_cfg, transceive_told, State.told_answer, State.told_afterRead, State.told_regs,
      State.told_withRegs, demoteUnless_told]

theorem authenticate_told (id : List Byte) (slot : Slot) (block : Byte) (key : List Byte) :
    authenticate id slot block key (s.told r p) = (authenticate id slot block key s).told r p := by
  simp only [authenticate_eq, authenticateCommand_eq, State.told_cfg, transceive_told, State.told_answer, State.told_afterRead,
    State.told_regs, State.told_withRegs, demoteUnless_told]

theorem stopCrypto_eq : stopCrypto s = s.clearBits s.cfg.aStatus2 s.cfg.mCrypto1On := rfl

theorem selectAck_told : selectAck (s.told r p) = selectAck s := rfl

theorem authenticateSector_eq (id : List Byte) (slot : Slot) (block : Byte) (key : List Byte) : authenticateSector id slot block key s =
    let t := selectCard id s
    if selectAck t = 0x00#8 then t.raise .error .notAuthenticated else authenticate id slot block key t :=
  State.call_eq fun s r p => by
    simp only [selectCard_told, selectAck_told, State.told_raise, authenticate_told]
    split <;> rfl

theorem authenticateSector_told (id : List Byte) (slot : Slot) (block : Byte) (key : List Byte) :
    authenticateSector id slot block key (s.told r p) = (authenticateSector id slot block key s).told r p := by
  simp only [authenticateSector_eq, selectCard_told, selectAck_told, State.told_raise, authenticate_told]
  split <;> rfl

theorem readBlock_eq (block : Byte) : readBlock block s =
    let t := exchangeWithCrc (readFrame s.cfg block) s
    t.demoteUnless (t.rx.length == blockBytes) .ok .lengthMismatch :=
  State.call_eq fun s r p => by simp only [State.told_cfg, exchangeWithCrc_told, State.told_rx, demoteUnless_told]

theorem readBlock_told (block : Byte) : readBlock block (s.told r p) = (readBlock block s).told r p := by
  simp only [readBlock_eq, State.told_cfg, exchangeWithCrc_told, State.told_rx, demoteUnless_told]

theorem writeBlock_eq (block : Byte) (data : List Byte) : writeBlock block data s =
    let t := exchangeWithCrc (writeFrame s.cfg block) s
    if t.isAcked then
      let u := exchangeWithCrc data t
      if u.isAcked then u else failWrite u
    else failWrite t :=
  State.call_eq fun s r p => by
    have hk : ∀ s : State, (s.told r p).isAcked = s.isAcked := fun _ => rfl
    have hf : ∀ s : State, failWrite (s.told r p) = (failWrite s).told r p := fun _ => rfl
    simp only [State.told_cfg, exchangeWithCrc_told, hk, hf]
    split
    · split <;> rfl
    · rfl

theorem readBlocks_told (blocks : List Byte) (out : List Byte) :
    readBlocks blocks out (s.told r p) = ((readBlocks blocks out s).1, (readBlocks blocks out s).2.told r p) := by
  induction blocks generalizing s out with
  | nil => rfl
  | cons b bs ih =>
    have hb : ∀ s : State, blockRead (s.told r p) = blockRead s := fun _ => rfl
    simp only [readBlocks, readBlock_told, hb, ih]

/-- A call that also returns a value. -/
theorem State.call_pair {f : State → List Byte × State} (s : State) (q : Pc)
    (hf : ∀ (s : State) (r : Reply) (p : Pc), f (s.told r p) = ((f s).1, (f s).2.told r p)) :
    ((f (s.withPc q)).1, (f (s.withPc q)).2.withPc s.pc) = f s := by
  have h2 := hf s s.reply s.pc
  rw [State.told_self] at h2
  rw [State.withPc_eq_told, hf]
  conv => rhs; rw [h2]
  rfl

theorem readSector_eq (id : List Byte) (slot : Slot) (base : Byte) (key : List Byte) : readSector id slot base key s =
    let t := authenticateSector id slot (base + 3#8) key s
    let r := if t.regs.status = .ok then readBlocks [base, base + 1#8, base + 2#8] [] t else ([], t)
    (r.1, stopCrypto r.2) := by
  have h := State.call_pair (f := fun s =>
    let t := authenticateSector id slot (base + 3#8) key s
    let r := if t.regs.status = .ok then readBlocks [base, base + 1#8, base + 2#8] [] t else ([], t)
    (r.1, stopCrypto r.2)) s (s.pc.enter (.rdsec id (slotByte slot) base key)) fun s r p => by
      simp only [authenticateSector_told, State.told_regs, readBlocks_told, stopCrypto_eq]
      generalize readBlocks [base, base + 1#8, base + 2#8] [] (authenticateSector id slot (base + 3#8) key s) = r'
      split <;> rfl
  simp only at h
  simp only [readSector]
  exact h

/-! POLL. -/

/-- What POLL does with a failed attempt does not look at the sequencer or the last reply. -/
theorem retryOrEnd_told : retryOrEnd (s.told r p) = retryOrEnd s := by
  by_cases h : s.port.deadline = true
  · have h1 : retryOrEnd (s.told r p) = ((s.told r p).withPort s.port.afterDeadline).finish .noCard := if_pos h
    have h2 : retryOrEnd s = (s.withPort s.port.afterDeadline).finish .noCard := if_pos h
    rw [h1, h2]
    rfl
  · have h1 : retryOrEnd (s.told r p) = (((s.told r p).withPort s.port.afterDeadline).withReply .pending).withPc .poll := if_neg h
    have h2 : retryOrEnd s = ((s.withPort s.port.afterDeadline).withReply .pending).withPc .poll := if_neg h
    rw [h1, h2]
    rfl

theorem State.finish_told (r' : Reply) : (s.told r p).finish r' = s.finish r' := rfl

theorem pollAttempt_eq : pollAttempt s =
    let t := requestPresence s
    if t.regs.status = .ok then
      let u := resolveUid t
      if u.regs.status = .ok then u.finish (identifierReply u.rx) else retryOrEnd u
    else retryOrEnd t := by
  simp only [pollAttempt, State.withPc_eq_told, requestPresence_told, State.told_regs, resolveUid_told, State.finish_told, retryOrEnd_told,
    State.told_rx]

/-- An attempt of POLL does not look at the sequencer or the last reply. -/
theorem pollAttempt_told : pollAttempt (s.told r p) = pollAttempt s := by
  simp only [pollAttempt_eq, requestPresence_told, State.told_regs, resolveUid_told, State.finish_told, retryOrEnd_told, State.told_rx]

/-! The other operations. -/

theorem sendFrame_eq (op : Instr) (framing : Byte) (frame : List Byte) : sendFrame op framing frame s =
    let t := transceive s.cfg.cmdTransceive frame (s.write s.cfg.aBitFraming framing)
    t.finish (transceiveResult t) := by
  unfold sendFrame
  rw [State.call_eq fun s r p => by simp only [State.told_write, State.told_cfg, transceive_told]]

theorem sendFrameWithCrc_eq (op : Instr) (frame : List Byte) : sendFrameWithCrc op frame s =
    let t := exchangeWithCrc frame s
    t.finish (transceiveResult t) := by
  unfold sendFrameWithCrc
  rw [State.call_eq fun s r p => exchangeWithCrc_told s r p frame]

theorem sendAuthFrame_eq (op : Instr) (frame : List Byte) : sendAuthFrame op frame s =
    let t := authenticateCommand frame s
    t.finish (.status t.regs.status) := by
  unfold sendAuthFrame
  rw [State.call_eq fun s r p => by simp only [authenticateCommand_eq, State.told_cfg, transceive_told]]

end Sys2Proof.Machine
end

