-- ==== Sys2Proof/Laws/Memory.lean ====
section
/-! SUPPORT. The laws of a byte memory: a read after a write, the canonical form, the bound on addresses. -/
namespace Sys2Proof.Machine

variable (rest : Nat → Byte)

/-- A write leaves every other address alone. -/
theorem memoryRead_memoryWrite_ne (m : Memory) {a b : Nat} (v : Byte) (h : b ≠ a) :
    memoryRead rest (memoryWrite rest m a v) b = memoryRead rest m b := by
  induction m with
  | nil => unfold memoryWrite; split <;> simp [memoryRead, h]
  | cons c m ih =>
    obtain ⟨d, w⟩ := c
    unfold memoryWrite
    repeat' split
    all_goals simp_all [memoryRead]

/-- An address below every listed one reads as unlisted. -/
theorem memoryRead_of_lt (m : Memory) (a : Nat) (h : ∀ c ∈ m, a < c.1) : memoryRead rest m a = rest a := by
  induction m with
  | nil => rfl
  | cons c m ih =>
    have hc := h c (by simp)
    rw [memoryRead, if_neg (by omega)]
    exact ih fun d hd => h d (by simp [hd])

/-- A read after a write to the same address gives the byte written. -/
theorem memoryRead_memoryWrite_self (m : Memory) (a : Nat) (v : Byte) (h : Memory.wf rest m) :
    memoryRead rest (memoryWrite rest m a v) a = v := by
  induction m with
  | nil => unfold memoryWrite; split <;> simp_all [memoryRead]
  | cons c m ih =>
    obtain ⟨d, w⟩ := c
    obtain ⟨hp, hr⟩ := h
    rw [List.pairwise_cons] at hp
    unfold memoryWrite
    split
    · rename_i hlt
      split
      · rename_i hv
        rw [memoryRead, if_neg (by omega), memoryRead_of_lt, hv]
        intro e he
        have := hp.1 e he
        simp at this
        omega
      · simp [memoryRead]
    · split
      · split
        · rename_i heq hv
          subst heq
          rw [memoryRead_of_lt _ _ _ (fun e he => hp.1 e he), hv]
        · simp [memoryRead]
      · rename_i hne
        rw [memoryRead, if_neg hne]
        exact ih ⟨hp.2, fun e he => hr e (by simp [he])⟩

/-- Every cell after a write was there before, or is the one written. -/
theorem mem_memoryWrite {m : Memory} {a : Nat} {v : Byte} {c : Host.Cell} (h : c ∈ memoryWrite rest m a v) :
    c ∈ m ∨ (c = (a, v) ∧ v ≠ rest a) := by
  induction m with
  | nil => unfold memoryWrite at h; split at h <;> simp_all
  | cons d m ih =>
    obtain ⟨b, w⟩ := d
    unfold memoryWrite at h
    repeat' split at h
    all_goals simp_all
    · rcases h with h | h | h <;> simp_all
    · rcases h with h | h <;> simp_all
    · rcases h with h | h
      · simp_all
      · rcases ih h with h | h <;> simp_all

/-- A write keeps the canonical form. -/
theorem memoryWrite_wf (m : Memory) (a : Nat) (v : Byte) (h : Memory.wf rest m) : Memory.wf rest (memoryWrite rest m a v) := by
  induction m with
  | nil => unfold memoryWrite; split <;> simp_all [Memory.wf]
  | cons c m ih =>
    obtain ⟨d, w⟩ := c
    obtain ⟨hp, hr⟩ := h
    rw [List.pairwise_cons] at hp
    have hm : Memory.wf rest m := ⟨hp.2, fun e he => hr e (by simp [he])⟩
    refine ⟨?_, ?_⟩
    · unfold memoryWrite
      repeat' split
      · exact List.pairwise_cons.2 hp
      · refine List.pairwise_cons.2 ⟨?_, List.pairwise_cons.2 hp⟩
        intro e he
        rcases List.mem_cons.1 he with rfl | he
        · assumption
        · have := hp.1 e he
          simp at this ⊢
          omega
      · exact hp.2
      · rename_i heq _
        subst heq
        exact List.pairwise_cons.2 hp
      · refine List.pairwise_cons.2 ⟨?_, (ih hm).1⟩
        intro e he
        rcases mem_memoryWrite rest he with he | ⟨rfl, -⟩
        · exact hp.1 e he
        · simp
          omega
    · intro e he
      rcases mem_memoryWrite rest he with he | ⟨rfl, hv⟩
      · exact hr e he
      · exact hv

/-- A write below a bound keeps every listed address below it. -/
theorem memoryWrite_below {bound : Nat} (m : Memory) (a : Nat) (v : Byte) (h : Memory.below bound m) (ha : a < bound) :
    Memory.below bound (memoryWrite rest m a v) := by
  intro e he
  rcases mem_memoryWrite rest he with he | ⟨rfl, -⟩
  · exact h e he
  · exact ha

/-- Consecutive writes keep the canonical form. -/
theorem memoryWriteAll_wf (m : Memory) (a : Nat) (vs : List Byte) (h : Memory.wf rest m) :
    Memory.wf rest (memoryWriteAll rest m a vs) := by
  induction vs generalizing m a with
  | nil => exact h
  | cons v vs ih => exact ih _ _ (memoryWrite_wf rest m a v h)

/-- Consecutive writes below a bound stay below it. -/
theorem memoryWriteAll_below {bound : Nat} (m : Memory) (a : Nat) (vs : List Byte) (h : Memory.below bound m)
    (ha : a + vs.length ≤ bound) : Memory.below bound (memoryWriteAll rest m a vs) := by
  induction vs generalizing m a with
  | nil => exact h
  | cons v vs ih =>
    simp only [List.length_cons] at ha
    exact ih _ _ (memoryWrite_below rest m a v h (by omega)) (by omega)

/-- Consecutive writes leave every address outside theirs alone. -/
theorem memoryRead_memoryWriteAll_ne (m : Memory) (a b : Nat) (vs : List Byte) (h : b < a ∨ a + vs.length ≤ b) :
    memoryRead rest (memoryWriteAll rest m a vs) b = memoryRead rest m b := by
  induction vs generalizing m a with
  | nil => rfl
  | cons v vs ih =>
    simp only [List.length_cons] at h
    rw [memoryWriteAll, ih _ _ (by omega), memoryRead_memoryWrite_ne rest m v (by omega)]

end Sys2Proof.Machine
end

