-- ==== Sys2Proof/Laws/Chip.lean ====
section
/-! SUPPORT. What lies beyond the port keeps its form under every transaction, and which registers and which card bytes a transaction can
change. -/
namespace Sys2Proof.Machine

variable (cfg : Config)

/-! The chip's registers. -/

theorem Chip.put_inv (a : RegAddr) (v : Byte) {c : Chip} (h : c.Inv cfg) : (c.put cfg a v).Inv cfg :=
  ⟨memoryWrite_wf _ _ _ _ h.1, memoryWrite_below _ _ _ _ h.2.1 a.isLt, h.2.2⟩

@[simp] theorem Chip.put_fifo (a : RegAddr) (v : Byte) (c : Chip) : (c.put cfg a v).fifo = c.fifo := rfl

/-- A register reads the byte put into it. -/
theorem Chip.get_put_self (a : RegAddr) (v : Byte) {c : Chip} (h : c.Inv cfg) : (c.put cfg a v).get cfg a = v :=
  memoryRead_memoryWrite_self _ _ _ _ h.1

/-- A put leaves every other register alone. -/
theorem Chip.get_put_ne {a b : RegAddr} (v : Byte) (c : Chip) (h : b ≠ a) : (c.put cfg a v).get cfg b = c.get cfg b :=
  memoryRead_memoryWrite_ne _ _ _ fun e => h (BitVec.eq_of_toNat_eq e)

/-- The register space and FIFO bound do not depend on the flags about to appear. -/
theorem Chip.inv_of_eq {c d : Chip} (h : c.Inv cfg) (hr : d.regs = c.regs) (hf : d.fifo.length ≤ 64) : d.Inv cfg := by
  refine ⟨?_, ?_, hf⟩
  · rw [hr]; exact h.1
  · rw [hr]; exact h.2.1

theorem Chip.get_of_eq {c d : Chip} (a : RegAddr) (hr : d.regs = c.regs) : d.get cfg a = c.get cfg a := by
  simp [Chip.get, hr]

theorem Chip.absorb_inv (n : Nat) (bytes : List Byte) {c : Chip} (h : c.Inv cfg) : (c.absorb cfg n bytes).Inv cfg :=
  Chip.put_inv cfg _ _ (Chip.put_inv cfg _ _ (Chip.inv_of_eq cfg h rfl h.2.2))

@[simp] theorem Chip.absorb_fifo (n : Nat) (bytes : List Byte) (c : Chip) : (c.absorb cfg n bytes).fifo = c.fifo := rfl

@[simp] theorem Chip.absorb_crc (n : Nat) (bytes : List Byte) (c : Chip) : (c.absorb cfg n bytes).crc = bytes.foldl crcByte c.crc := rfl

/-- Taking bytes in writes the two result registers only. -/
theorem Chip.absorb_get (n : Nat) (bytes : List Byte) (c : Chip) {b : RegAddr} (h : b ≠ cfg.aCrcResultH) (h' : b ≠ cfg.aCrcResultL) :
    (c.absorb cfg n bytes).get cfg b = c.get cfg b := by
  unfold Chip.absorb
  simp only
  rw [Chip.get_put_ne cfg _ _ h, Chip.get_put_ne cfg _ _ h']
  rfl

theorem Chip.push_inv (n : Nat) (v : Byte) {c : Chip} (h : c.Inv cfg) : (c.push cfg n v).Inv cfg := by
  unfold Chip.push
  split
  · exact Chip.absorb_inv cfg n _ h
  · split
    · rename_i hlt
      exact Chip.inv_of_eq cfg h rfl (by simp only [fifoCapacity] at hlt; simp; omega)
    · exact Chip.put_inv cfg _ _ h

theorem Chip.flush_inv {c : Chip} (h : c.Inv cfg) : (c.flush cfg).Inv cfg :=
  Chip.put_inv cfg _ _ (Chip.inv_of_eq cfg h rfl (by simp))

theorem Chip.calcCrc_inv (n : Nat) {c : Chip} (h : c.Inv cfg) : (c.calcCrc cfg n).Inv cfg :=
  Chip.absorb_inv cfg n _ (Chip.inv_of_eq cfg h rfl (by simp))

/-! The card. -/

/-- A byte address outside the 16 bytes of a block. -/
def Outside (block : Byte) (a : Nat) : Prop := a < blockBase block ∨ blockBase block + 16 ≤ a

/-- Storing a block's 16 bytes keeps the card's form. -/
theorem Card.store_inv {block : Byte} {bytes : List Byte} {c : Card} (hl : bytes.length = 16) (h : c.Inv) : (c.store block bytes).Inv := by
  have hb := block.isLt
  refine ⟨memoryWriteAll_wf _ _ _ _ h.1, memoryWriteAll_below _ _ _ _ h.2 ?_⟩
  rw [hl, blockBase]
  omega

/-- It changes no byte outside the block. -/
theorem Card.store_get {block : Byte} {bytes : List Byte} {c : Card} {a : Nat} (hl : bytes.length = 16) (h : Outside block a) :
    (c.store block bytes).get a = c.get a := by
  unfold Card.get Card.store
  exact memoryRead_memoryWriteAll_ne _ _ _ _ _ (by rw [hl]; exact h)

/-- What a frame or a handshake can do to a card: its form is kept, only the block that waits for its data changes, its identity stays, and
afterwards no block waits but the one that waited already, or one of a WRITE command. -/
structure Card.Moves (cfg : Config) (frame : List Byte) (c d : Card) : Prop where
  inv : c.Inv → d.Inv
  get : ∀ a, (∀ b, c.writing = some b → Outside b a) → d.get a = c.get a
  present : d.present = c.present
  uid : d.uid = c.uid
  atqa : d.atqa = c.atqa
  sak : d.sak = c.sak
  silent : d.silent = c.silent
  writing : d.writing = none ∨ d.writing = c.writing ∨
    ∃ block x y, frame = [cfg.kWrite, block, x, y] ∧ cfg.kWrite ≠ cfg.kRead ∧ d.writing = some block

variable {frame : List Byte}

theorem Card.Moves.refl (c : Card) : Card.Moves cfg frame c c :=
  ⟨id, fun _ _ => rfl, rfl, rfl, rfl, rfl, rfl, .inr (.inl rfl)⟩

/-- Changes of the selection state and the session alone. -/
theorem Card.Moves.of_eq {c d : Card} (hm : d.mem = c.mem) (hp : d.present = c.present) (hu : d.uid = c.uid) (ha : d.atqa = c.atqa)
    (hs : d.sak = c.sak) (hq : d.silent = c.silent) (hw : d.writing = none ∨ d.writing = c.writing) : Card.Moves cfg frame c d :=
  ⟨fun h => by unfold Card.Inv; rw [hm]; exact h, fun _ _ => by simp [Card.get, hm], hp, hu, ha, hs, hq, hw.imp id .inl⟩

theorem Card.fail_moves (n : Nat) (c : Card) : Card.Moves cfg frame c (c.fail n) := by
  have hl : ((List.range 16).map (Config.freeBlockByte n)).length = 16 := by simp
  unfold Card.fail
  generalize (List.range 16).map (Config.freeBlockByte n) = bytes at hl
  cases hw : c.writing with
  | none => exact Card.Moves.of_eq cfg rfl rfl rfl rfl rfl rfl (.inl rfl)
  | some block => exact ⟨fun h => Card.store_inv hl h, fun a h => Card.store_get hl (h block hw), rfl, rfl, rfl, rfl, rfl, .inl rfl⟩

theorem Card.halt_moves (c : Card) : Card.Moves cfg frame c c.halt := Card.Moves.of_eq cfg rfl rfl rfl rfl rfl rfl (.inr rfl)

theorem Card.wake_moves (c : Card) : Card.Moves cfg frame c c.wake.2 := Card.Moves.of_eq cfg rfl rfl rfl rfl rfl rfl (.inr rfl)

theorem Card.takeData_moves (n : Nat) (crypto : Bool) (bits : BitVec 3) {block : Byte} {c : Card} (hw : c.writing = some block) :
    Card.Moves cfg frame c (c.takeData n crypto bits block frame).2 := by
  unfold Card.takeData
  split
  · rename_i hc
    have hl : (frame.take 16).length = 16 := by rw [List.length_take, hc.2.2.2.1]; rfl
    exact ⟨fun h => Card.store_inv hl h, fun a h => Card.store_get hl (h block hw), rfl, rfl, rfl, rfl, rfl, .inl rfl⟩
  · exact Card.fail_moves cfg n c

theorem Card.takeSession_moves (n : Nat) (bits : BitVec 3) (c : Card) : Card.Moves cfg frame c (c.takeSession cfg n bits frame).2 := by
  unfold Card.takeSession
  split
  · exact Card.halt_moves cfg c
  split
  · rename_i code block x y _
    split
    · unfold Card.takeBlock
      split
      · exact Card.fail_moves cfg n c
      · split
        · split <;> exact Card.Moves.refl cfg c
        · rename_i hr
          split
          · rename_i hk
            subst hk
            exact ⟨id, fun _ _ => rfl, rfl, rfl, rfl, rfl, rfl, .inr (.inr ⟨block, x, y, rfl, hr, rfl⟩)⟩
          · exact Card.fail_moves cfg n c
    · exact Card.fail_moves cfg n c
  · exact Card.fail_moves cfg n c

theorem Card.takePlain_moves (n : Nat) (bits : BitVec 3) (c : Card) : Card.Moves cfg frame c (c.takePlain cfg n bits frame).2 := by
  unfold Card.takePlain
  simp only
  repeat' split
  all_goals first
    | exact Card.fail_moves cfg n c
    | exact Card.halt_moves cfg c
    | exact Card.wake_moves cfg c
    | exact Card.Moves.of_eq cfg rfl rfl rfl rfl rfl rfl (.inr rfl)

/-- Everything an answer to a frame can do to a card. -/
theorem Card.respond_moves (n : Nat) (crypto : Bool) (bits : BitVec 3) (frame : List Byte) (c : Card) :
    Card.Moves cfg frame c (c.respond cfg n crypto bits frame).2 := by
  unfold Card.respond
  split
  · exact Card.Moves.refl cfg c
  · split
    · rename_i hw
      exact Card.takeData_moves cfg n crypto bits hw
    · split
      · exact Card.fail_moves cfg n c
      · split
        · exact Card.takeSession_moves cfg n bits c
        · exact Card.takePlain_moves cfg n bits c

/-! Commands, exchanges and whole transactions. -/

theorem authent_inv (n : Nat) {chip : Chip} (card : Card) (h : chip.Inv cfg) : (authent cfg n chip card).1.Inv cfg := by
  unfold authent
  simp only
  split
  · exact Chip.put_inv cfg _ _ (Chip.inv_of_eq cfg h rfl (by simp))
  · exact Chip.inv_of_eq cfg h rfl (by simp)

/-- Everything AUTHENT can do to a card. -/
theorem authent_moves (n : Nat) (chip : Chip) (card : Card) : Card.Moves cfg [] card (authent cfg n chip card).2 := by
  unfold authent
  simp only
  split
  · exact Card.Moves.of_eq cfg rfl rfl rfl rfl rfl rfl (.inr rfl)
  · split
    · exact Card.fail_moves cfg n card
    · exact Card.Moves.refl cfg card

/-- Everything a transmission can do to a card: nothing, or what its answer to the queued frame does. -/
theorem exchange_card (n : Nat) (chip : Chip) (card : Card) :
    (exchange cfg n chip card).2 = card ∨
    ∃ (crypto : Bool) (bits : BitVec 3), (exchange cfg n chip card).2 = (card.respond cfg n crypto bits chip.fifo).2 := by
  unfold exchange
  simp only
  by_cases h : chip.heard cfg n = true
  · right
    refine ⟨chip.inSession cfg, lastBits (chip.get cfg cfg.aBitFraming), ?_⟩
    rw [if_pos h]
    split <;> rfl
  · left
    rw [if_neg h]

theorem exchange_moves (n : Nat) (chip : Chip) (card : Card) : Card.Moves cfg chip.fifo card (exchange cfg n chip card).2 := by
  rcases exchange_card cfg n chip card with e | ⟨crypto, bits, e⟩
  · rw [e]
    exact Card.Moves.refl cfg card
  · rw [e]
    exact Card.respond_moves cfg n crypto bits _ card

theorem exchange_inv (n : Nat) {chip : Chip} (card : Card) (h : chip.Inv cfg) : (exchange cfg n chip card).1.Inv cfg := by
  unfold exchange
  simp only
  generalize (if chip.heard cfg n = true then _ else ((none : Answer), card)) = r
  split
  · exact Chip.put_inv cfg _ _ (Chip.inv_of_eq cfg h rfl (by simp [fifoCapacity]))
  · exact Chip.put_inv cfg _ _ (Chip.inv_of_eq cfg h rfl (by simp))

theorem startCommand_inv (n : Nat) (code : Byte) {chip : Chip} (card : Card) (h : chip.Inv cfg) :
    (startCommand cfg n code chip card).1.Inv cfg := by
  have h' : (({ chip with comFlags := [] } : Chip).put cfg cfg.aCommand code).Inv cfg :=
    Chip.put_inv cfg _ _ (Chip.inv_of_eq cfg h rfl h.2.2)
  unfold startCommand
  simp only
  split
  · exact Chip.calcCrc_inv cfg n h'
  · split
    · exact authent_inv cfg n card h'
    · exact h'

/-- Everything a command write can do to a card: nothing, unless the command is AUTHENT. -/
theorem startCommand_moves (n : Nat) (code : Byte) (chip : Chip) (card : Card) :
    Card.Moves cfg [] card (startCommand cfg n code chip card).2 ∧
    (code ≠ cfg.cmdAuthent → (startCommand cfg n code chip card).2 = card) := by
  unfold startCommand
  simp only
  split
  · exact ⟨Card.Moves.refl cfg card, fun _ => rfl⟩
  · split
    · rename_i h
      exact ⟨authent_moves cfg n _ card, fun e => absurd h e⟩
    · exact ⟨Card.Moves.refl cfg card, fun _ => rfl⟩

theorem writeFraming_inv (n : Nat) (v : Byte) {chip : Chip} (card : Card) (h : chip.Inv cfg) :
    (writeFraming cfg n v chip card).1.Inv cfg := by
  unfold writeFraming
  simp only
  split
  · exact exchange_inv cfg n card (Chip.put_inv cfg _ _ h)
  · exact Chip.put_inv cfg _ _ h

/-- Everything a framing write can do to a card: nothing without the start-send bit. -/
theorem writeFraming_moves (n : Nat) (v : Byte) (chip : Chip) (card : Card) :
    Card.Moves cfg chip.fifo card (writeFraming cfg n v chip card).2 ∧
    (anyBit v cfg.mStartSend = false → (writeFraming cfg n v chip card).2 = card) := by
  unfold writeFraming
  simp only
  split
  · rename_i h
    exact ⟨exchange_moves cfg n (chip.put cfg cfg.aBitFraming v) card, fun e => by rw [e] at h; exact absurd h.1 (by simp)⟩
  · exact ⟨Card.Moves.refl cfg card, fun _ => rfl⟩

/-- A write transaction keeps the chip's form. -/
theorem afterWrite_inv (n : Nat) (a : RegAddr) (v : Byte) {chip : Chip} (card : Card) (h : chip.Inv cfg) :
    (afterWrite cfg n a v chip card).1.Inv cfg := by
  unfold afterWrite
  repeat' split
  · exact Chip.push_inv cfg n v h
  · exact Chip.flush_inv cfg h
  · exact h
  · exact Chip.put_inv cfg _ _ h
  · exact Chip.put_inv cfg _ _ h
  · exact Chip.put_inv cfg _ _ h
  · exact startCommand_inv cfg n v card h
  · exact writeFraming_inv cfg n v card h
  · exact Chip.put_inv cfg _ _ h

/-- Only a write to the command register or to the bit-framing register reaches the card (R67). -/
theorem afterWrite_card (n : Nat) {a : RegAddr} (v : Byte) (chip : Chip) (card : Card) (h : a ≠ cfg.aCommand) (h' : a ≠ cfg.aBitFraming) :
    (afterWrite cfg n a v chip card).2 = card := by
  unfold afterWrite
  repeat' split
  all_goals rfl

/-- What holds of no frame at all holds of any. -/
theorem Card.Moves.of_nil {c d : Card} (h : Card.Moves cfg [] c d) : Card.Moves cfg frame c d := by
  refine ⟨h.inv, h.get, h.present, h.uid, h.atqa, h.sak, h.silent, ?_⟩
  rcases h.writing with e | e | ⟨_, _, _, e, _⟩
  · exact .inl e
  · exact .inr (.inl e)
  · simp at e

/-- Everything a write transaction can do to a card; the frame is what the chip has queued. -/
theorem afterWrite_moves (n : Nat) (a : RegAddr) (v : Byte) (chip : Chip) (card : Card) :
    Card.Moves cfg chip.fifo card (afterWrite cfg n a v chip card).2 := by
  unfold afterWrite
  repeat' split
  all_goals first
    | exact Card.Moves.refl cfg card
    | exact (startCommand_moves cfg n v chip card).1.of_nil
    | exact (writeFraming_moves cfg n v chip card).1

/-- A read transaction keeps the chip's form. -/
theorem Chip.afterRead_inv (a : RegAddr) {c : Chip} (h : c.Inv cfg) : (c.afterRead cfg a).Inv cfg := by
  unfold Chip.afterRead
  repeat' split
  · have := h.2.2
    exact Chip.inv_of_eq cfg h rfl (by simp; omega)
  · exact Chip.put_inv cfg _ _ (Chip.inv_of_eq cfg h rfl h.2.2)
  · exact Chip.put_inv cfg _ _ (Chip.inv_of_eq cfg h rfl h.2.2)
  · exact h

/-! Frames: a transaction at one of the twelve addresses of the core changes registers at those addresses only (R37). -/

theorem Chip.afterRead_get (a b : RegAddr) (c : Chip) (h : b ≠ a) : (c.afterRead cfg a).get cfg b = c.get cfg b := by
  unfold Chip.afterRead
  repeat' split
  · rfl
  · rw [Chip.get_put_ne cfg _ _ h]; rfl
  · rw [Chip.get_put_ne cfg _ _ h]; rfl
  · rfl

/-- A read of a register other than the two flag registers leaves the register space as it is (R67). -/
theorem Chip.afterRead_regs (a : RegAddr) (c : Chip) (h : a ≠ cfg.aComIrq) (h' : a ≠ cfg.aDivIrq) :
    (c.afterRead cfg a).regs = c.regs := by
  unfold Chip.afterRead
  split
  · rfl
  · rfl

theorem exchange_get (n : Nat) {b : RegAddr} (chip : Chip) (card : Card) (h : b ≠ cfg.aControl) :
    (exchange cfg n chip card).1.get cfg b = chip.get cfg b := by
  unfold exchange
  simp only
  generalize (if chip.heard cfg n = true then _ else ((none : Answer), card)) = r
  split
  all_goals rw [Chip.get_put_ne cfg _ _ h]; rfl

/-- A write at `a` changes no register but `a` and those of the twelve. -/
theorem afterWrite_get (n : Nat) {a b : RegAddr} (v : Byte) (chip : Chip) (card : Card) (hb : b ∉ cfg.addresses) (h : b ≠ a) :
    (afterWrite cfg n a v chip card).1.get cfg b = chip.get cfg b := by
  simp only [Config.addresses, List.mem_cons, List.not_mem_nil, or_false, not_or] at hb
  obtain ⟨h1, h2, h3, h4, h5, h6, h7, h8, h9, h10, h11, h12⟩ := hb
  unfold afterWrite
  repeat' split
  · unfold Chip.push
    split
    · rw [Chip.absorb_get cfg _ _ _ h11 h12]
    · split
      · rfl
      · rw [Chip.get_put_ne cfg _ _ h5]
  · unfold Chip.flush
    rw [Chip.get_put_ne cfg _ _ h5]
    rfl
  · rfl
  · rw [Chip.get_put_ne cfg _ _ h]
  · rw [Chip.get_put_ne cfg _ _ h]
  · rw [Chip.get_put_ne cfg _ _ h]
  · unfold startCommand
    simp only
    split
    · unfold Chip.calcCrc
      rw [Chip.absorb_get cfg _ _ _ h11 h12]
      exact Chip.get_put_ne cfg _ _ h1
    · split
      · unfold authent
        simp only
        split
        · simp only
          rw [Chip.get_put_ne cfg _ _ h6]
          exact Chip.get_put_ne cfg _ _ h1
        · exact Chip.get_put_ne cfg _ _ h1
      · exact Chip.get_put_ne cfg _ _ h1
  · unfold writeFraming
    simp only
    split
    · rw [exchange_get cfg _ _ _ h9, Chip.get_put_ne cfg _ _ h10]
    · rw [Chip.get_put_ne cfg _ _ h10]
  · rw [Chip.get_put_ne cfg _ _ h]

end Sys2Proof.Machine
end

