-- ==== Sys2Proof/Laws/Via.lean ====
section
/-! SUPPORT. One way to say everything a sequence of register-port transactions can do: `Via`, with what follows from it for the trace, the
script, the chip, the card and the invariant. Every operation of the engine has one `Via` lemma, and no later proof unfolds it for these. -/
namespace Sys2Proof.Machine

/-- A register-port access as the controller makes it; what a read answers is the port's. -/
inductive Access where
  | read (addr : RegAddr)
  | write (addr : RegAddr) (value : Byte)

/-- The address of an access. -/
def Access.addr : Access → RegAddr
  | .read a => a
  | .write a _ => a

/-- The port after one access. -/
def Port.access (cfg : Config) (p : Port) : Access → Port
  | .read a => p.afterRead cfg a
  | .write a v => p.afterWrite cfg a v

/-- The port after a sequence of accesses. -/
def Port.run (cfg : Config) (p : Port) (accesses : List Access) : Port := accesses.foldl (Port.access cfg) p

/-- `t` comes from `s` by at most `n` accesses, all at addresses of `A`, and changes of the controller's own registers. -/
def Via (A : List RegAddr) (n : Nat) (s t : State) : Prop :=
  t.cfg = s.cfg ∧ t.inbox = s.inbox ∧
  ∃ accesses : List Access, accesses.length ≤ n ∧ (∀ x ∈ accesses, x.addr ∈ A) ∧ t.port = s.port.run s.cfg accesses

theorem readValues_append (es fs : List Event) : readValues (es ++ fs) = readValues es ++ readValues fs := by
  induction es with
  | nil => rfl
  | cons e es ih => cases e <;> simp [readValues, ih]

/-! What a run of accesses does to the port. -/

variable (cfg : Config)

theorem Port.run_append (p : Port) (xs ys : List Access) : p.run cfg (xs ++ ys) = (p.run cfg xs).run cfg ys := by
  simp [Port.run]

/-- Fields no access touches. -/
theorem Port.run_static (p : Port) (xs : List Access) :
    (p.run cfg xs).deadlines = p.deadlines ∧ (p.run cfg xs).kind = p.kind ∧ (p.run cfg xs).line = p.line := by
  induction xs generalizing p with
  | nil => exact ⟨rfl, rfl, rfl⟩
  | cons x xs ih =>
    cases x with
    | read a => exact ih (p.afterRead cfg a)
    | write a v => exact ih (p.afterWrite cfg a v)

/-- A run appends one transaction for each access; its reads take the script's answers in order (R12, R62, R71). -/
theorem Port.run_trace (p : Port) (A : List RegAddr) (xs : List Access) (h : ∀ x ∈ xs, x.addr ∈ A) :
    ∃ events : List Event, (p.run cfg xs).trace = p.trace ++ events ∧ transactions events = xs.length ∧
      (∀ e ∈ events, e.within A) ∧ (p.run cfg xs).answers = p.answers.drop (readValues events).length ∧
      p.answers.take (readValues events).length <+: readValues events := by
  induction xs generalizing p with
  | nil => exact ⟨[], by simp [Port.run], rfl, by simp, by simp [Port.run, readValues], by simp [readValues]⟩
  | cons x xs ih =>
    have hx := h x (by simp)
    have hxs : ∀ y ∈ xs, y.addr ∈ A := fun y hy => h y (by simp [hy])
    cases x with
    | read a =>
      obtain ⟨es, ht, hn, hw, ha, hp⟩ := ih (p.afterRead cfg a) hxs
      refine ⟨.read a (p.answer cfg a) :: es, ?_, ?_, ?_, ?_, ?_⟩
      · rw [show p.run cfg (.read a :: xs) = (p.afterRead cfg a).run cfg xs from rfl, ht]
        simp [Port.afterRead]
      · simp only [transactions, List.countP_cons, Event.isTransaction] at hn ⊢
        simp [hn]
      · intro e he
        rcases List.mem_cons.1 he with rfl | he
        · exact hx
        · exact hw e he
      · rw [show p.run cfg (.read a :: xs) = (p.afterRead cfg a).run cfg xs from rfl, ha]
        cases hq : p.answers <;> simp [Port.afterRead, readValues, hq]
      · cases hq : p.answers with
        | nil => simp
        | cons v vs =>
          have hv : p.answer cfg a = v := by simp [Port.answer, hq]
          simp only [Port.afterRead, hq, List.tail_cons] at hp
          simpa [readValues, hv] using hp
    | write a v =>
      obtain ⟨es, ht, hn, hw, ha, hp⟩ := ih (p.afterWrite cfg a v) hxs
      refine ⟨.write a v :: es, ?_, ?_, ?_, ?_, ?_⟩
      · rw [show p.run cfg (.write a v :: xs) = (p.afterWrite cfg a v).run cfg xs from rfl, ht]
        simp [Port.afterWrite]
      · simp only [transactions, List.countP_cons, Event.isTransaction] at hn ⊢
        simp [hn]
      · intro e he
        rcases List.mem_cons.1 he with rfl | he
        · exact hx
        · exact hw e he
      · exact ha
      · exact hp

/-- A run keeps the chip's and the card's form. -/
theorem Port.run_inv (p : Port) (xs : List Access) (h : p.chip.Inv cfg ∧ p.card.Inv) :
    (p.run cfg xs).chip.Inv cfg ∧ (p.run cfg xs).card.Inv := by
  induction xs generalizing p with
  | nil => exact h
  | cons x xs ih =>
    cases x with
    | read a => exact ih (p.afterRead cfg a) ⟨Chip.afterRead_inv cfg a h.1, h.2⟩
    | write a v => exact ih (p.afterWrite cfg a v) ⟨afterWrite_inv cfg _ a v _ h.1, (afterWrite_moves cfg _ a v _ _).inv h.2⟩

/-- Accesses at the twelve addresses leave every other register of the chip alone (R37). -/
theorem Port.run_get (p : Port) (xs : List Access) (h : ∀ x ∈ xs, x.addr ∈ cfg.addresses) (b : RegAddr) (hb : b ∉ cfg.addresses) :
    (p.run cfg xs).chip.get cfg b = p.chip.get cfg b := by
  induction xs generalizing p with
  | nil => rfl
  | cons x xs ih =>
    have hx := h x (by simp)
    have hne : b ≠ x.addr := fun e => hb (e ▸ hx)
    have hxs : ∀ y ∈ xs, y.addr ∈ cfg.addresses := fun y hy => h y (by simp [hy])
    cases x with
    | read a => exact (ih (p.afterRead cfg a) hxs).trans (Chip.afterRead_get cfg a b p.chip hne)
    | write a v => exact (ih (p.afterWrite cfg a v) hxs).trans (afterWrite_get cfg _ v p.chip p.card hb hne)

/-! The relation. -/

variable {A : List RegAddr} {n m : Nat} {s t u : State}

theorem Via.refl (s : State) : Via A 0 s s := ⟨rfl, rfl, [], by simp, by simp, rfl⟩

theorem Via.trans (h : Via A n s t) (g : Via A m t u) : Via A (n + m) s u := by
  obtain ⟨hc, hi, xs, hl, ha, hp⟩ := h
  obtain ⟨gc, gi, ys, gl, ga, gp⟩ := g
  refine ⟨gc.trans hc, gi.trans hi, xs ++ ys, by simp; omega, ?_, ?_⟩
  · intro x hx
    rcases List.mem_append.1 hx with hx | hx
    · exact ha x hx
    · exact ga x hx
  · rw [gp, hp, hc, Port.run_append]

theorem Via.mono (h : Via A n s t) (hn : n ≤ m) : Via A m s t := by
  obtain ⟨hc, hi, xs, hl, ha, hp⟩ := h
  exact ⟨hc, hi, xs, by omega, ha, hp⟩

/-- Changes of the controller's own registers, buffers, sequencer and reply are no access. -/
theorem Via.local (hc : t.cfg = s.cfg) (hi : t.inbox = s.inbox) (hp : t.port = s.port) : Via A 0 s t :=
  ⟨hc, hi, [], by simp, by simp, hp⟩

/-- A step that touches only the controller, after a `Via`. -/
theorem Via.andLocal (h : Via A n s t) (hc : u.cfg = t.cfg) (hi : u.inbox = t.inbox) (hp : u.port = t.port) : Via A n s u :=
  (h.trans (Via.local (A := A) hc hi hp)).mono (by omega)

theorem Via.read (s : State) {a : RegAddr} (ha : a ∈ A) : Via A 1 s (s.afterRead a) :=
  ⟨rfl, rfl, [.read a], by simp, by simpa [Access.addr] using ha, rfl⟩

theorem Via.write (s : State) {a : RegAddr} (v : Byte) (ha : a ∈ A) : Via A 1 s (s.write a v) :=
  ⟨rfl, rfl, [.write a v], by simp, by simpa [Access.addr] using ha, rfl⟩

theorem Via.setBits (s : State) {a : RegAddr} (v : Byte) (ha : a ∈ A) : Via A 2 s (s.setBits a v) :=
  (Via.read s ha).trans (Via.write _ _ ha)

theorem Via.clearBits (s : State) {a : RegAddr} (v : Byte) (ha : a ∈ A) : Via A 2 s (s.clearBits a v) :=
  (Via.read s ha).trans (Via.write _ _ ha)

theorem Via.cfg_eq (h : Via A n s t) : t.cfg = s.cfg := h.1
theorem Via.inbox_eq (h : Via A n s t) : t.inbox = s.inbox := h.2.1

/-- What a `Via` says of the trace and the script. -/
theorem Via.trace (h : Via A n s t) :
    ∃ events : List Event, t.port.trace = s.port.trace ++ events ∧ transactions events ≤ n ∧
      (∀ e ∈ events, e.within A) ∧ t.port.answers = s.port.answers.drop (readValues events).length ∧
      s.port.answers.take (readValues events).length <+: readValues events := by
  obtain ⟨hc, hi, xs, hl, ha, hp⟩ := h
  obtain ⟨es, ht, hn, hw, hd, hk⟩ := Port.run_trace s.cfg s.port A xs ha
  exact ⟨es, by rw [hp, ht], by omega, hw, by rw [hp, hd], hk⟩

theorem Via.static (h : Via A n s t) :
    t.port.deadlines = s.port.deadlines ∧ t.port.kind = s.port.kind ∧ t.port.line = s.port.line := by
  obtain ⟨hc, hi, xs, hl, ha, hp⟩ := h
  rw [hp]
  exact Port.run_static s.cfg s.port xs

theorem Via.port_inv (h : Via A n s t) (hs : s.port.chip.Inv s.cfg ∧ s.port.card.Inv) : t.port.chip.Inv t.cfg ∧ t.port.card.Inv := by
  obtain ⟨hc, hi, xs, hl, ha, hp⟩ := h
  rw [hp, hc]
  exact Port.run_inv s.cfg s.port xs hs

theorem Via.get (h : Via s.cfg.addresses n s t) (b : RegAddr) (hb : b ∉ s.cfg.addresses) :
    t.port.chip.get s.cfg b = s.port.chip.get s.cfg b := by
  obtain ⟨hc, hi, xs, hl, ha, hp⟩ := h
  rw [hp]
  exact Port.run_get s.cfg s.port xs ha b hb

end Sys2Proof.Machine
end

