-- ==== Sys2Proof/Laws/Transceiver.lean ====
section
/-! SUPPORT. What each step of the transceiver engine can do: its accesses (`Via`), its trace, and the registers it leaves alone. -/
namespace Sys2Proof.Machine

variable (cfg : Config)

@[simp] theorem Config.aCommand_mem : cfg.aCommand ∈ cfg.addresses := by simp [Config.addresses]
@[simp] theorem Config.aComIEn_mem : cfg.aComIEn ∈ cfg.addresses := by simp [Config.addresses]
@[simp] theorem Config.aComIrq_mem : cfg.aComIrq ∈ cfg.addresses := by simp [Config.addresses]
@[simp] theorem Config.aDivIrq_mem : cfg.aDivIrq ∈ cfg.addresses := by simp [Config.addresses]
@[simp] theorem Config.aError_mem : cfg.aError ∈ cfg.addresses := by simp [Config.addresses]
@[simp] theorem Config.aStatus2_mem : cfg.aStatus2 ∈ cfg.addresses := by simp [Config.addresses]
@[simp] theorem Config.aFifoData_mem : cfg.aFifoData ∈ cfg.addresses := by simp [Config.addresses]
@[simp] theorem Config.aFifoLevel_mem : cfg.aFifoLevel ∈ cfg.addresses := by simp [Config.addresses]
@[simp] theorem Config.aControl_mem : cfg.aControl ∈ cfg.addresses := by simp [Config.addresses]
@[simp] theorem Config.aBitFraming_mem : cfg.aBitFraming ∈ cfg.addresses := by simp [Config.addresses]
@[simp] theorem Config.aCrcResultH_mem : cfg.aCrcResultH ∈ cfg.addresses := by simp [Config.addresses]
@[simp] theorem Config.aCrcResultL_mem : cfg.aCrcResultL ∈ cfg.addresses := by simp [Config.addresses]

/-- The controller's own part is as it was, but for the fields a lemma names: sequencer, reply, outgoing bytes, and the registers
only `computeCRC` and AUTH write. -/
structure Quiet (s t : State) : Prop where
  pc : t.pc = s.pc
  reply : t.reply = s.reply
  tx : t.tx = s.tx
  crcLo : t.regs.crcLo = s.regs.crcLo
  crcHi : t.regs.crcHi = s.regs.crcHi
  crcTo : t.regs.crcTo = s.regs.crcTo
  s2 : t.regs.s2 = s.regs.s2

theorem Quiet.refl (s : State) : Quiet s s := ⟨rfl, rfl, rfl, rfl, rfl, rfl, rfl⟩

theorem Quiet.trans {s t u : State} (h : Quiet s t) (g : Quiet t u) : Quiet s u :=
  ⟨g.pc.trans h.pc, g.reply.trans h.reply, g.tx.trans h.tx, g.crcLo.trans h.crcLo, g.crcHi.trans h.crcHi,
   g.crcTo.trans h.crcTo, g.s2.trans h.s2⟩

variable (s : State)

/-! Loading and draining the FIFO. -/

/-- Loading writes the bytes in order and does nothing else (R143). -/
theorem State.loadFifo_spec (bytes : List Byte) :
    Via s.cfg.addresses bytes.length s (s.loadFifo bytes) ∧ Quiet s (s.loadFifo bytes) ∧
    (s.loadFifo bytes).regs = s.regs ∧ (s.loadFifo bytes).rx = s.rx ∧
    (s.loadFifo bytes).port.trace = s.port.trace ++ bytes.map (fun b => Event.write s.cfg.aFifoData b) := by
  induction bytes generalizing s with
  | nil => exact ⟨Via.refl s, Quiet.refl s, rfl, rfl, by simp [State.loadFifo]⟩
  | cons b bs ih =>
    obtain ⟨hv, hq, hr, hx, ht⟩ := ih (s.write s.cfg.aFifoData b)
    refine ⟨?_, ⟨hq.pc, hq.reply, hq.tx, hq.crcLo, hq.crcHi, hq.crcTo, hq.s2⟩, hr, hx, ?_⟩
    · exact ((Via.write s b (by simp)).trans hv).mono (by simp; omega)
    · rw [State.loadFifo, ht]
      simp

/-- Draining reads that many bytes into `RX` and does nothing else (R147). -/
theorem State.drainFifo_spec (n : Nat) :
    ∃ bytes : List Byte, bytes.length = n ∧ (s.drainFifo n).rx = s.rx ++ bytes ∧
    (s.drainFifo n).port.trace = s.port.trace ++ bytes.map (fun b => Event.read s.cfg.aFifoData b) ∧
    Via s.cfg.addresses n s (s.drainFifo n) ∧ Quiet s (s.drainFifo n) ∧ (s.drainFifo n).regs = s.regs := by
  induction n generalizing s with
  | zero => exact ⟨[], rfl, by simp [State.drainFifo], by simp [State.drainFifo], Via.refl s, Quiet.refl s, rfl⟩
  | succ n ih =>
    obtain ⟨bs, hl, hx, ht, hv, hq, hr⟩ :=
      ih ((s.afterRead s.cfg.aFifoData).withRx (s.rx ++ [s.answer s.cfg.aFifoData]))
    refine ⟨s.answer s.cfg.aFifoData :: bs, by simp [hl], ?_, ?_, ?_, ?_, hr⟩
    · rw [State.drainFifo, hx]
      simp
    · rw [State.drainFifo, ht]
      simp
    · exact (((Via.read s (by simp)).andLocal rfl rfl rfl).trans hv).mono (by omega)
    · exact ⟨hq.pc, hq.reply, hq.tx, hq.crcLo, hq.crcHi, hq.crcTo, hq.s2⟩

/-! The poll loop. -/

/-- The loop from a counter of `k` (R144): samples that do not end it, then the last one; the counter went down once a sample. -/
theorem pollIrqLoop_spec (k : Nat) (hk : 1 ≤ k) (hk' : k ≤ pollBudget) (hi : s.regs.i = BitVec.ofNat 11 k) :
    ∃ (samples : List Byte) (last : Byte), samples.length + 1 ≤ k ∧
    (∀ v ∈ samples, endsPoll v s.regs.wait = false) ∧ (samples.length + 1 = k ∨ endsPoll last s.regs.wait = true) ∧
    (pollIrqLoop k s).regs = { s.regs with n := last, i := BitVec.ofNat 11 (k - (samples.length + 1)) } ∧
    (pollIrqLoop k s).port.trace = s.port.trace ++ (samples ++ [last]).map (fun v => Event.read s.cfg.aComIrq v) ∧
    Via s.cfg.addresses (samples.length + 1) s (pollIrqLoop k s) ∧ Quiet s (pollIrqLoop k s) ∧ (pollIrqLoop k s).rx = s.rx := by
  induction k generalizing s with
  | zero => omega
  | succ k ih =>
    have hb : pollBudget = 2000 := rfl
    have hdec : s.regs.i - 1#11 = BitVec.ofNat 11 k := by
      rw [hi]; apply BitVec.eq_of_toNat_eq; simp [BitVec.toNat_sub]; omega
    have hz : (BitVec.ofNat 11 k = 0#11) ↔ k = 0 := by
      constructor
      · intro h
        have := congrArg BitVec.toNat h
        simp at this
        omega
      · rintro rfl
        rfl
    have hvia : Via s.cfg.addresses 1 s (pollIrqOnce s) := (Via.read s (by simp)).andLocal rfl rfl rfl
    rw [pollIrqLoop]
    by_cases hend : (pollIrqOnce s).regs.i = 0#11 ∨ endsPoll (pollIrqOnce s).regs.n (pollIrqOnce s).regs.wait
    · rw [if_pos hend]
      refine ⟨[], s.answer s.cfg.aComIrq, by simp, by simp, ?_, ?_, ?_, hvia, ⟨rfl, rfl, rfl, rfl, rfl, rfl, rfl⟩, rfl⟩
      · rcases hend with h | h
        · left
          have := hz.1 (hdec ▸ h)
          simp [this]
        · exact .inr h
      · have hd : (pollIrqOnce s).regs = { s.regs with n := s.answer s.cfg.aComIrq, i := s.regs.i - 1#11 } := rfl
        rw [hd, hdec]
        simp
      · simp [pollIrqOnce]
    · rw [if_neg hend]
      obtain ⟨hne, hcont⟩ := not_or.1 hend
      have hkpos : 1 ≤ k := by
        by_contra hc
        exact hne (by show s.regs.i - 1#11 = 0#11; rw [hdec, hz]; omega)
      obtain ⟨samples, last, hl, hs, hlast, hr, ht, hv, hq, hx⟩ := ih (pollIrqOnce s) hkpos (by omega) hdec
      refine ⟨s.answer s.cfg.aComIrq :: samples, last, by simp; omega, ?_, ?_, ?_, ?_, ?_, ?_, hx⟩
      · intro v hv
        rcases List.mem_cons.1 hv with rfl | hv
        · exact Bool.eq_false_iff.2 hcont
        · exact hs v hv
      · rcases hlast with h | h
        · left; simp; omega
        · exact .inr h
      · rw [hr]
        have : k + 1 - ((s.answer s.cfg.aComIrq :: samples).length + 1) = k - (samples.length + 1) := by simp
        rw [this]
        rfl
      · rw [ht]
        simp [pollIrqOnce]
      · exact (hvia.trans hv).mono (by simp; omega)
      · exact ⟨hq.pc, hq.reply, hq.tx, hq.crcLo, hq.crcHi, hq.crcTo, hq.s2⟩

/-! Accesses and frames of the steps. -/

theorem selectMasks_via (cmd : Byte) : Via s.cfg.addresses 0 s (selectMasks cmd s) := Via.local rfl rfl rfl

theorem armAndFlush_via : Via s.cfg.addresses 6 s (armAndFlush s) :=
  (((Via.write s _ (by simp)).trans (Via.clearBits _ _ (by simp))).trans (Via.setBits _ _ (by simp))).trans (Via.write _ _ (by simp))

theorem armAndFlush_quiet : Quiet s (armAndFlush s) ∧ (armAndFlush s).regs = s.regs ∧ (armAndFlush s).rx = s.rx := by
  refine ⟨⟨?_, ?_, ?_, ?_, ?_, ?_, ?_⟩, ?_, ?_⟩ <;> simp [armAndFlush]

theorem issueCommand_via (cmd : Byte) :
    Via s.cfg.addresses (s.tx.length + (if cmd = s.cfg.cmdTransceive then 3 else 1)) s (issueCommand cmd s) := by
  obtain ⟨hv, -, -, -, -⟩ := s.loadFifo_spec s.tx
  have hw : Via s.cfg.addresses (s.tx.length + 1) s ((s.loadFifo s.tx).write s.cfg.aCommand cmd) := hv.trans (Via.write _ _ (by simp))
  have hc : ((s.loadFifo s.tx).write s.cfg.aCommand cmd).cfg = s.cfg := hw.cfg_eq
  unfold issueCommand
  split
  · rename_i h
    rw [if_pos (h.trans (by rw [hc]))]
    exact (hw.trans (Via.setBits _ _ (by rw [hc]; simp))).mono (by omega)
  · rename_i h
    rw [if_neg (fun e => h (e.trans (by rw [hc])))]
    exact hw

theorem issueCommand_quiet (cmd : Byte) :
    Quiet s (issueCommand cmd s) ∧ (issueCommand cmd s).regs = s.regs ∧ (issueCommand cmd s).rx = s.rx := by
  obtain ⟨-, hq, hr, hx, -⟩ := s.loadFifo_spec s.tx
  unfold issueCommand
  simp only
  split
  · exact ⟨⟨hq.pc, hq.reply, hq.tx, hq.crcLo, hq.crcHi, hq.crcTo, hq.s2⟩, hr, hx⟩
  · exact ⟨⟨hq.pc, hq.reply, hq.tx, hq.crcLo, hq.crcHi, hq.crcTo, hq.s2⟩, hr, hx⟩

theorem stopSend_via : Via s.cfg.addresses 2 s (stopSend s) := Via.clearBits s _ (by simp)

theorem decideStatus_via : Via s.cfg.addresses 1 s (decideStatus s) := (Via.read s (by simp)).andLocal rfl rfl rfl

theorem decideStatus_quiet : Quiet s (decideStatus s) := ⟨rfl, rfl, rfl, rfl, rfl, rfl, rfl⟩

theorem sampleLengths_via : Via s.cfg.addresses 2 s (sampleLengths s) :=
  ((Via.read s (by simp)).trans (Via.read _ (by simp))).andLocal rfl rfl rfl

theorem sampleLengths_quiet : Quiet s (sampleLengths s) := ⟨rfl, rfl, rfl, rfl, rfl, rfl, rfl⟩

/-- The drain takes between 1 and 16 bytes (R147). -/
theorem drainCount_bounds (lvl : Byte) : 1 ≤ drainCount lvl ∧ drainCount lvl ≤ 16 := by
  simp only [drainCount, maxLen]
  omega

end Sys2Proof.Machine
end

