-- ==== Sys2Proof/Laws/Engine.lean ====
section
/-! SUPPORT. What the engines of the controller can do as a whole: `transceive`, `computeCRC` and the operations built of them. -/
namespace Sys2Proof.Machine

variable (s : State)

/-! T1 to T4. -/

theorem armAndFlush_trace : ∃ irq lvl : Byte,
    (armAndFlush s).port.trace = s.port.trace ++
      [.write s.cfg.aComIEn (s.regs.irqen ||| s.cfg.mIrqInv), .read s.cfg.aComIrq irq, .write s.cfg.aComIrq (irq &&& ~~~s.cfg.mIrqClr),
       .read s.cfg.aFifoLevel lvl, .write s.cfg.aFifoLevel (lvl ||| s.cfg.mFlush), .write s.cfg.aCommand s.cfg.cmdIdle] := by
  unfold armAndFlush
  rw [State.write_trace, State.setBits_trace, State.clearBits_trace, State.write_trace]
  refine ⟨(s.write s.cfg.aComIEn (s.regs.irqen ||| s.cfg.mIrqInv)).answer s.cfg.aComIrq,
    ((s.write s.cfg.aComIEn (s.regs.irqen ||| s.cfg.mIrqInv)).clearBits s.cfg.aComIrq s.cfg.mIrqClr).answer s.cfg.aFifoLevel, ?_⟩
  simp only [List.append_assoc, List.cons_append, List.nil_append]

theorem issueCommand_trace (cmd : Byte) : ∃ frm : Byte,
    (issueCommand cmd s).port.trace = s.port.trace ++ s.tx.map (fun b => Event.write s.cfg.aFifoData b) ++
      [.write s.cfg.aCommand cmd] ++
      (if cmd = s.cfg.cmdTransceive then [.read s.cfg.aBitFraming frm, .write s.cfg.aBitFraming (frm ||| s.cfg.mStartSend)] else []) := by
  obtain ⟨hv, -, -, -, ht⟩ := s.loadFifo_spec s.tx
  have hc := hv.cfg_eq
  unfold issueCommand
  by_cases h : cmd = s.cfg.cmdTransceive
  · refine ⟨((s.loadFifo s.tx).write s.cfg.aCommand cmd).answer s.cfg.aBitFraming, ?_⟩
    rw [if_pos (by rw [State.write_cfg, hc]; exact h), if_pos h, State.setBits_trace, State.write_trace, ht, State.write_cfg, hc]
  · refine ⟨0#8, ?_⟩
    rw [if_neg (by rw [State.write_cfg, hc]; exact h), if_neg h, State.write_trace, ht]
    simp

/-- The registers after T1 to T4 when the last of `r` samples was `last`. -/
def commandRegs (regs : Regs) (cfg : Config) (cmd last : Byte) (r : Nat) : Regs :=
  { regs with
    irqen := enableMask cfg cmd
    wait := waitMask cfg cmd
    status := .error
    cause := .exhausted
    bitLen := 0#12
    n := last
    i := BitVec.ofNat 11 (pollBudget - r) }

/-- Everything T1 to T4 can do (R141 to R145). -/
theorem runPlain_spec (cmd : Byte) (out : List Byte) :
    ∃ (irq lvl frm : Byte) (samples : List Byte) (last frm' : Byte),
      samples.length + 1 ≤ pollBudget ∧ (∀ v ∈ samples, endsPoll v (waitMask s.cfg cmd) = false) ∧
      (samples.length + 1 = pollBudget ∨ endsPoll last (waitMask s.cfg cmd) = true) ∧
      (runPlain cmd out s).port.trace = s.port.trace ++
        (openingTrace s.cfg cmd out irq lvl frm ++ pollTrace s.cfg (samples ++ [last]) frm') ∧
      Via s.cfg.addresses (out.length + (if cmd = s.cfg.cmdTransceive then 3 else 1) + samples.length + 9) s (runPlain cmd out s) ∧
      (runPlain cmd out s).regs = commandRegs s.regs s.cfg cmd last (samples.length + 1) ∧
      (runPlain cmd out s).rx = [] ∧ (runPlain cmd out s).tx = out ∧
      (runPlain cmd out s).pc = s.pc ∧ (runPlain cmd out s).reply = s.reply := by
  unfold runPlain
  generalize ha : selectMasks cmd (s.withTx out) = a
  have hav : Via s.cfg.addresses 0 s a := by rw [← ha]; exact Via.local rfl rfl rfl
  have hat : a.port.trace = s.port.trace := by rw [← ha]; rfl
  have hac : a.cfg = s.cfg := hav.cfg_eq
  generalize hb : armAndFlush a = b
  have hbv : Via a.cfg.addresses 6 a b := by rw [← hb]; exact armAndFlush_via a
  obtain ⟨hbq, hbr, hbx⟩ : Quiet a b ∧ b.regs = a.regs ∧ b.rx = a.rx := by rw [← hb]; exact armAndFlush_quiet a
  obtain ⟨irq, lvl, hbt⟩ := armAndFlush_trace a
  rw [hb, hac] at hbt
  have hbc : b.cfg = s.cfg := hbv.cfg_eq.trans hac
  generalize hd : issueCommand cmd b = d
  have hdv := issueCommand_via b cmd
  obtain ⟨hdq, hdr, hdx⟩ := issueCommand_quiet b cmd
  obtain ⟨frm, hdt⟩ := issueCommand_trace b cmd
  rw [hd] at hdv hdq hdr hdx hdt
  rw [hbc] at hdv hdt
  have hdc : d.cfg = s.cfg := hdv.cfg_eq.trans hbc
  have hbtx : b.tx = out := hbq.tx.trans (by rw [← ha]; rfl)
  have har : a.regs = { s.regs with
      irqen := enableMask s.cfg cmd, wait := waitMask s.cfg cmd, status := .error, cause := .exhausted, bitLen := 0#12 } := by
    rw [← ha]; rfl
  obtain ⟨samples, last, hl, hs, hlast, hr, ht, hv, hq, hx⟩ :=
    pollIrqLoop_spec (d.withRegs { d.regs with i := BitVec.ofNat 11 pollBudget }) pollBudget (by decide) (by omega) rfl
  have hwait : d.regs.wait = waitMask s.cfg cmd := by rw [hdr, hbr, har]
  refine ⟨irq, lvl, frm, samples, last, (pollIrq d).answer s.cfg.aBitFraming, hl, ?_, ?_, ?_, ?_, ?_, ?_, ?_, ?_, ?_⟩
  · intro v hv; rw [← hwait]; exact hs v hv
  · rw [← hwait]; exact hlast
  · have hpc : (pollIrq d).cfg = s.cfg := by
      show (pollIrqLoop _ _).cfg = s.cfg
      rw [hv.cfg_eq]; exact hdc
    have hpt : (pollIrq d).port.trace = d.port.trace ++ (samples ++ [last]).map (fun v => Event.read s.cfg.aComIrq v) := by
      show (pollIrqLoop _ _).port.trace = _
      rw [ht, State.withRegs_port, State.withRegs_cfg, hdc]
    rw [stopSend, State.clearBits_trace, hpc, hpt, hdt, hbt, hat, hbtx, har]
    simp only [openingTrace, pollTrace, List.append_assoc]
  · have hp : Via s.cfg.addresses (samples.length + 1) d (pollIrq d) := by
      have := hv
      rw [State.withRegs_cfg, hdc] at this
      exact ((Via.local rfl rfl rfl).trans this).mono (by omega)
    rw [hac] at hbv
    have hss := stopSend_via (pollIrq d)
    rw [hp.cfg_eq, hdc] at hss
    rw [hbtx] at hdv
    exact ((((hav.trans hbv).trans hdv).trans hp).trans hss).mono (by omega)
  · show (pollIrqLoop _ _).regs = _
    rw [hr]
    simp only [State.withRegs_regs]
    rw [hdr, hbr, har]
    rfl
  · show (pollIrqLoop _ _).rx = _
    rw [hx, State.withRegs_rx, hdx, hbx, ← ha]
    rfl
  · show (pollIrqLoop _ _).tx = _
    rw [hq.tx, State.withRegs_tx, hdq.tx, hbtx]
  · show (pollIrqLoop _ _).pc = _
    rw [hq.pc, State.withRegs_pc, hdq.pc, hbq.pc, ← ha]
    rfl
  · show (pollIrqLoop _ _).reply = _
    rw [hq.reply, State.withRegs_reply, hdq.reply, hbq.reply, ← ha]
    rfl

/-! T5 and T6. -/

theorem answerBits_eq (lvl control : Byte) : answerBits lvl (lastBits control) = bitLength lvl control := by
  have h : ∀ c : Byte, (lastBits c ≠ 0#3 ↔ c &&& 0x07#8 ≠ 0#8) ∧ (lastBits c).toNat = (c &&& 0x07#8).toNat := by decide
  unfold answerBits bitLength
  rw [(h control).2]
  by_cases hb : control &&& 0x07#8 ≠ 0#8
  · rw [if_pos hb, if_pos ((h control).1.2 hb)]
  · rw [if_neg hb, if_neg (fun e => hb ((h control).1.1 e))]

/-- The bit length fits the 12-bit register (R147, R225). -/
theorem bitLength_toInt (lvl control : Byte) :
    (BitVec.ofInt 12 (answerBits lvl (lastBits control))).toInt = bitLength lvl control := by
  rw [answerBits_eq]
  have h1 := lvl.isLt
  have h2 : (control &&& 0x07#8).toNat < 8 := by
    have : ∀ c : Byte, (c &&& 0x07#8).toNat < 8 := by decide
    exact this control
  rw [BitVec.toInt_ofInt]
  unfold bitLength
  split
  · rw [Int.bmod_eq_of_le] <;> omega
  · rw [Int.bmod_eq_of_le] <;> omega

/-- Everything T6 can do (R147). -/
theorem receive_spec : ∃ (level control : Byte) (bytes : List Byte),
    bytes.length = max 1 (min level.toNat 16) ∧ (receive s).rx = s.rx ++ bytes ∧ (receive s).regs.bitLen.toInt = bitLength level control ∧
    (receive s).port.trace = s.port.trace ++ ([.read s.cfg.aFifoLevel level, .read s.cfg.aControl control]
      ++ bytes.map (fun b => Event.read s.cfg.aFifoData b)) ∧
    Via s.cfg.addresses (2 + bytes.length) s (receive s) ∧ Quiet s (receive s) ∧
    (receive s).regs.status = s.regs.status ∧ (receive s).regs.cause = s.regs.cause := by
  obtain ⟨bytes, hl, hx, ht, hv, hq, hr⟩ := (sampleLengths s).drainFifo_spec (drainCount (sampleLengths s).regs.lvl)
  have hr' : (receive s).regs = (sampleLengths s).regs := hr
  refine ⟨s.answer s.cfg.aFifoLevel, (s.afterRead s.cfg.aFifoLevel).answer s.cfg.aControl, bytes, hl, hx, ?_, ?_, ?_, ?_, ?_, ?_⟩
  · rw [hr']
    exact bitLength_toInt _ _
  · show (State.drainFifo _ _).port.trace = _
    rw [ht]
    simp [sampleLengths]
  · exact ((sampleLengths_via s).trans hv).mono (by omega)
  · exact (sampleLengths_quiet s).trans hq
  · rw [hr']; rfl
  · rw [hr']; rfl

/-- The number of transactions a `transceive` can make at most (R150). -/
def xcvBound (cfg : Config) (cmd : Byte) (len : Nat) : Nat := (if cmd = cfg.cmdTransceive then 2029 else 2009) + len

theorem anyBit_eq_false {v m : Byte} : anyBit v m = false ↔ v &&& m = 0#8 := by simp [anyBit]

theorem anyBit_eq_true {v m : Byte} : anyBit v m = true ↔ v &&& m ≠ 0#8 := by simp [anyBit]

/-- Everything `transceive` can do (R140). -/
theorem transceive_spec (cmd : Byte) (out : List Byte) :
    (∃ events : List Event, (transceive cmd out s).port.trace = s.port.trace ++ events ∧
      XcvTranscript s.cfg cmd out events (transceive cmd out s).regs.status (transceive cmd out s).regs.cause
        (transceive cmd out s).rx (transceive cmd out s).regs.bitLen.toInt) ∧
    Via s.cfg.addresses (xcvBound s.cfg cmd out.length) s (transceive cmd out s) ∧
    Quiet (s.withTx out) (transceive cmd out s) ∧ (transceive cmd out s).rx.length ≤ 16 := by
  obtain ⟨irq, lvl, frm, samples, last, frm', hl, hs, hlast, ht, hv, hr, hx, htx, hpc, hrep⟩ := runPlain_spec s cmd out
  rw [transceive_eq]
  generalize runPlain cmd out s = t at ht hv hr hx htx hpc hrep ⊢
  have hq : Quiet (s.withTx out) t := ⟨hpc, hrep, htx, by rw [hr]; rfl, by rw [hr]; rfl, by rw [hr]; rfl, by rw [hr]; rfl⟩
  have htc : t.cfg = s.cfg := hv.cfg_eq
  have hb : pollBudget = 2000 := rfl
  have hi : t.regs.i = BitVec.ofNat 11 (pollBudget - (samples.length + 1)) := by rw [hr]; rfl
  have hi0 : t.regs.i = 0#11 ↔ samples.length + 1 = pollBudget := by
    rw [hi]
    constructor
    · intro h
      have := congrArg BitVec.toNat h
      simp at this
      omega
    · intro h
      rw [h]
      rfl
  have hst : t.regs.status = .error ∧ t.regs.cause = .exhausted ∧ t.regs.bitLen = 0#12 ∧ t.regs.n = last
      ∧ t.regs.irqen = enableMask s.cfg cmd := by
    rw [hr]; exact ⟨rfl, rfl, rfl, rfl, rfl⟩
  obtain ⟨hstatus, hcause, hbl, hn, hen⟩ := hst
  unfold concludePlain
  by_cases hex : t.regs.i = 0#11
  · rw [if_pos hex]
    refine ⟨⟨_, ht, irq, lvl, frm, samples, last, frm', [], by simp, hs, .inl ⟨?_, rfl, hstatus, hcause, hx, ?_⟩⟩, ?_, hq, by simp [hx]⟩
    · rw [hi0.1 hex, hb]
    · rw [hbl]; rfl
    · exact hv.mono (by unfold xcvBound; split <;> omega)
  rw [if_neg hex]
  simp only
  have hlt : samples.length + 1 < 2000 := by
    have hne : samples.length + 1 ≠ pollBudget := fun h => hex (hi0.2 h)
    omega
  have hend : endsPoll last (waitMask s.cfg cmd) = true := hlast.resolve_left (fun h => hex (hi0.2 h))
  generalize he : t.answer t.cfg.aError = e
  generalize hd : decideStatus t = d
  have hdq : Quiet (s.withTx out) d := hq.trans (by rw [← hd]; exact decideStatus_quiet t)
  have hdv : Via s.cfg.addresses 1 t d := by rw [← hd, ← htc]; exact decideStatus_via t
  have hdc : d.cfg = s.cfg := hdv.cfg_eq.trans htc
  have hdx : d.rx = [] := by rw [← hd]; exact hx
  have hdb : d.regs.bitLen = 0#12 := by rw [← hd]; exact hbl
  have hdt : d.port.trace = s.port.trace ++ (openingTrace s.cfg cmd out irq lvl frm ++ pollTrace s.cfg (samples ++ [last]) frm' ++
      [.read s.cfg.aError e]) := by
    rw [← hd, ← he]
    simp only [decideStatus, State.withRegs_port, State.afterRead_trace, ht, htc, List.append_assoc]
  have hdo : (d.regs.status, d.regs.cause) = transceiveOutcome last (enableMask s.cfg cmd) e := by
    rw [← hd, ← he, ← hn, ← hen]; rfl
  unfold transceiveOutcome at hdo
  by_cases hbad : anyBit e mErr = true
  · rw [if_pos hbad] at hdo
    obtain ⟨h1, h2⟩ := Prod.mk.inj hdo
    rw [if_neg (fun h => h.1 h1)]
    refine ⟨⟨_, hdt, irq, lvl, frm, samples, last, frm', _, rfl, hs, .inr ⟨hlt, hend, e, .inl ⟨?_, rfl, h1, h2, hdx, ?_⟩⟩⟩, ?_, hdq, by simp [hdx]⟩
    · exact anyBit_eq_true.1 hbad
    · rw [hdb]; rfl
    · exact (hv.trans hdv).mono (by unfold xcvBound; split <;> omega)
  rw [if_neg hbad] at hdo
  have hgood : e &&& 0x1B#8 = 0#8 := anyBit_eq_false.1 (Bool.eq_false_iff.2 hbad)
  have hout : d.regs.status ≠ .error ∧
      (if last &&& enableMask s.cfg cmd &&& 0x01#8 ≠ 0#8 then d.regs.status = .noTag ∧ d.regs.cause = .timer
       else d.regs.status = .ok ∧ d.regs.cause = .none) := by
    by_cases htm : anyBit (last &&& enableMask s.cfg cmd) mTimer = true
    · rw [if_pos htm] at hdo
      obtain ⟨h1, h2⟩ := Prod.mk.inj hdo
      exact ⟨by rw [h1]; decide, (if_pos (c := last &&& enableMask s.cfg cmd &&& 0x01#8 ≠ 0#8) (anyBit_eq_true.1 htm)).mpr ⟨h1, h2⟩⟩
    · rw [if_neg htm] at hdo
      obtain ⟨h1, h2⟩ := Prod.mk.inj hdo
      exact ⟨by rw [h1]; decide, (if_neg (c := last &&& enableMask s.cfg cmd &&& 0x01#8 ≠ 0#8) (fun h => htm (anyBit_eq_true.2 h))).mpr ⟨h1, h2⟩⟩
  by_cases hT : cmd = s.cfg.cmdTransceive
  · rw [if_pos ⟨hout.1, by rw [hdc]; exact hT⟩]
    obtain ⟨level, control, bytes, hlen, hrx, hlenb, htr, hvr, hqr, hsr, hcr⟩ := receive_spec d
    rw [hdc] at htr hvr
    rw [hdx, List.nil_append] at hrx
    refine ⟨⟨_, htr.trans (by rw [hdt, List.append_assoc]), irq, lvl, frm, samples, last, frm',
      [.read s.cfg.aError e] ++ ([.read s.cfg.aFifoLevel level, .read s.cfg.aControl control]
        ++ bytes.map (fun b => Event.read s.cfg.aFifoData b)), ?_, hs,
      .inr ⟨hlt, hend, e, .inr ⟨hgood, ?_, .inr ⟨hT, level, control, ?_, ?_, hlenb⟩⟩⟩⟩, ?_, hdq.trans hqr, ?_⟩
    · simp only [List.append_assoc]
    · rw [hsr, hcr]; exact hout.2
    · rw [hrx]; simp
    · rw [hrx]; exact hlen
    · exact ((hv.trans hdv).trans hvr).mono (by unfold xcvBound; rw [if_pos hT, if_pos hT]; omega)
    · rw [hrx]; omega
  · rw [if_neg (fun h => hT (by rw [← hdc]; exact h.2))]
    refine ⟨⟨_, hdt, irq, lvl, frm, samples, last, frm', _, rfl, hs,
      .inr ⟨hlt, hend, e, .inr ⟨hgood, hout.2, .inl ⟨hT, rfl, hdx, ?_⟩⟩⟩⟩, ?_, hdq, by simp [hdx]⟩
    · rw [hdb]; rfl
    · exact (hv.trans hdv).mono (by unfold xcvBound; rw [if_neg hT, if_neg hT]; omega)

/-! The CRC engine. -/

/-- The loop from a counter of `k` (R207): samples without the done flag, then the last one. -/
theorem pollCrcLoop_spec (k : Nat) (hk : 1 ≤ k) (hk' : k ≤ crcBudget) (hi : s.regs.i = BitVec.ofNat 11 k) :
    ∃ (samples : List Byte) (last : Byte), samples.length + 1 ≤ k ∧ (∀ v ∈ samples, v &&& s.cfg.mCrcDone = 0#8) ∧
    (samples.length + 1 = k ∨ last &&& s.cfg.mCrcDone ≠ 0#8) ∧
    (pollCrcLoop k s).regs = { s.regs with n := last, i := BitVec.ofNat 11 (k - (samples.length + 1)) } ∧
    (pollCrcLoop k s).port.trace = s.port.trace ++ (samples ++ [last]).map (fun v => Event.read s.cfg.aDivIrq v) ∧
    Via s.cfg.addresses (samples.length + 1) s (pollCrcLoop k s) ∧ (pollCrcLoop k s).rx = s.rx ∧ (pollCrcLoop k s).tx = s.tx ∧
    (pollCrcLoop k s).pc = s.pc ∧ (pollCrcLoop k s).reply = s.reply := by
  induction k generalizing s with
  | zero => omega
  | succ k ih =>
    have hb : crcBudget = 255 := rfl
    have hdec : s.regs.i - 1#11 = BitVec.ofNat 11 k := by
      rw [hi]; apply BitVec.eq_of_toNat_eq; simp [BitVec.toNat_sub]; omega
    have hz : (BitVec.ofNat 11 k = 0#11) ↔ k = 0 := by
      constructor
      · intro h
        have := congrArg BitVec.toNat h
        simp at this
        omega
      · rintro rfl
        rfl
    have hvia : Via s.cfg.addresses 1 s (pollCrcOnce s) := (Via.read s (by simp)).andLocal rfl rfl rfl
    rw [pollCrcLoop]
    by_cases hend : (pollCrcOnce s).regs.i = 0#11 ∨ anyBit (pollCrcOnce s).regs.n (pollCrcOnce s).cfg.mCrcDone
    · rw [if_pos hend]
      refine ⟨[], s.answer s.cfg.aDivIrq, by simp, by simp, ?_, ?_, ?_, hvia, rfl, rfl, rfl, rfl⟩
      · rcases hend with h | h
        · left
          have := hz.1 (hdec ▸ h)
          simp [this]
        · exact .inr (anyBit_eq_true.1 h)
      · have hd : (pollCrcOnce s).regs = { s.regs with n := s.answer s.cfg.aDivIrq, i := s.regs.i - 1#11 } := rfl
        rw [hd, hdec]
        simp
      · simp [pollCrcOnce]
    · rw [if_neg hend]
      obtain ⟨hne, hcont⟩ := not_or.1 hend
      have hkpos : 1 ≤ k := by
        by_contra hc
        exact hne (by show s.regs.i - 1#11 = 0#11; rw [hdec, hz]; omega)
      obtain ⟨samples, last, hl, hs, hlast, hr, ht, hv, hx, htx, hpc, hrep⟩ := ih (pollCrcOnce s) hkpos (by omega) hdec
      refine ⟨s.answer s.cfg.aDivIrq :: samples, last, by simp; omega, ?_, ?_, ?_, ?_, ?_, hx, htx, hpc, hrep⟩
      · intro v hv
        rcases List.mem_cons.1 hv with rfl | hv
        · exact anyBit_eq_false.1 (Bool.eq_false_iff.2 hcont)
        · exact hs v hv
      · rcases hlast with h | h
        · left; simp; omega
        · exact .inr h
      · rw [hr]
        have : k + 1 - ((s.answer s.cfg.aDivIrq :: samples).length + 1) = k - (samples.length + 1) := by simp
        rw [this]
        rfl
      · rw [ht]
        simp [pollCrcOnce]
      · exact (hvia.trans hv).mono (by simp; omega)

theorem readCrc_regs : ∃ lo hi : Byte, (readCrc s).regs = { s.regs with crcLo := lo, crcHi := hi } := ⟨_, _, rfl⟩

/-- Everything `computeCRC` can do (R205 to R208). -/
theorem computeCrc_spec (bytes : List Byte) :
    (∃ events : List Event, (computeCrc bytes s).port.trace = s.port.trace ++ events ∧
      CrcTranscript s.cfg bytes events (computeCrc bytes s).regs.crcLo (computeCrc bytes s).regs.crcHi (computeCrc bytes s).regs.crcTo) ∧
    Via s.cfg.addresses (262 + bytes.length) s (computeCrc bytes s) ∧
    (∃ (n : Byte) (i : BitVec 11) (lo hi : Byte) (late : Bool),
      (computeCrc bytes s).regs = { s.regs with n := n, i := i, crcLo := lo, crcHi := hi, crcTo := late }) ∧
    (computeCrc bytes s).rx = s.rx ∧ (computeCrc bytes s).tx = bytes ∧ (computeCrc bytes s).pc = s.pc ∧
    (computeCrc bytes s).reply = s.reply := by
  rw [computeCrc_eq]
  generalize ha : (s.withTx bytes).withRegs { s.regs with crcTo := false } = a
  have hav : Via s.cfg.addresses 0 s a := by rw [← ha]; exact Via.local rfl rfl rfl
  have hac : a.cfg = s.cfg := hav.cfg_eq
  have hat : a.port = s.port := by rw [← ha]; rfl
  have hatx : a.tx = bytes := by rw [← ha]; rfl
  generalize hb : (a.clearBits a.cfg.aDivIrq a.cfg.mCrcDone).setBits a.cfg.aFifoLevel a.cfg.mFlush = b
  have hbv : Via s.cfg.addresses 4 a b := by
    rw [← hb, ← hac]
    exact (Via.clearBits a _ (by simp)).trans (Via.setBits _ _ (by simp))
  have hbc : b.cfg = s.cfg := hbv.cfg_eq.trans hac
  have hbt : b.port.trace = s.port.trace ++ [.read s.cfg.aDivIrq (a.answer s.cfg.aDivIrq),
      .write s.cfg.aDivIrq (a.answer s.cfg.aDivIrq &&& ~~~s.cfg.mCrcDone),
      .read s.cfg.aFifoLevel ((a.clearBits s.cfg.aDivIrq s.cfg.mCrcDone).answer s.cfg.aFifoLevel),
      .write s.cfg.aFifoLevel ((a.clearBits s.cfg.aDivIrq s.cfg.mCrcDone).answer s.cfg.aFifoLevel ||| s.cfg.mFlush)] := by
    rw [← hb, State.setBits_trace, State.clearBits_trace, hac, hat]
    simp only [List.append_assoc, List.cons_append, List.nil_append]
  have hbtx : b.tx = bytes := by rw [← hb]; exact hatx
  obtain ⟨hdv, hdq, hdr, hdx, hdt⟩ := b.loadFifo_spec b.tx
  generalize hdd : b.loadFifo b.tx = d at hdv hdq hdr hdx hdt
  have hstart : startPlain a = d.write s.cfg.aCommand s.cfg.cmdCalcCrc := by
    unfold startPlain
    simp only
    rw [hb, hdd, hbc]
  rw [hbc, hbtx] at hdv hdt
  generalize hee : d.write s.cfg.aCommand s.cfg.cmdCalcCrc = e
  have hev : Via s.cfg.addresses 1 d e := by rw [← hee]; exact Via.write d _ (by simp)
  have hdc : d.cfg = s.cfg := hdv.cfg_eq.trans hbc
  have hec : e.cfg = s.cfg := hev.cfg_eq.trans hdc
  rw [hstart, hee]
  obtain ⟨samples, last, hl, hs, hlast, hr, ht, hv, hx, htx, hpc, hrep⟩ :=
    pollCrcLoop_spec (e.withRegs { e.regs with i := BitVec.ofNat 11 crcBudget }) crcBudget (by decide) (by omega) rfl
  unfold pollCrc
  simp only
  generalize hff : pollCrcLoop crcBudget (e.withRegs { e.regs with i := BitVec.ofNat 11 crcBudget }) = f at hr ht hv hx htx hpc hrep
  simp only [State.withRegs_cfg, State.withRegs_regs, State.withRegs_port, State.withRegs_rx, State.withRegs_tx, State.withRegs_pc,
    State.withRegs_reply, hec] at hs hlast hr ht hv hx htx hpc hrep
  have hfc : f.cfg = s.cfg := hv.cfg_eq.trans (by simpa using hec)
  have hfv : Via s.cfg.addresses (samples.length + 1) e f := ((Via.local rfl rfl rfl).trans hv).mono (by omega)
  have her : e.regs = { s.regs with crcTo := false } := by
    rw [← hee, State.write_regs, hdr, ← hb, State.setBits_regs, State.clearBits_regs, ← ha]
    rfl
  have het : e.port.trace = b.port.trace ++ bytes.map (fun x => Event.write s.cfg.aFifoData x) ++ [.write s.cfg.aCommand s.cfg.cmdCalcCrc] := by
    rw [← hee, State.write_trace, hdt]
  have hn : f.regs.n = last := by rw [hr]
  refine ⟨⟨_, ?_, a.answer s.cfg.aDivIrq, (a.clearBits s.cfg.aDivIrq s.cfg.mCrcDone).answer s.cfg.aFifoLevel, samples, last, rfl,
    hs, hl, hlast, ?_⟩, ?_, ?_, ?_, ?_, ?_, ?_⟩
  · simp only [readCrc, State.withRegs_port, State.afterRead_trace, State.withRegs_cfg, State.afterRead_cfg, hfc, ht, het, hbt,
      State.withRegs_regs]
    simp only [crcTrace, List.append_assoc, List.cons_append, List.nil_append]
  · show (!anyBit f.regs.n f.cfg.mCrcDone) = true ↔ _
    rw [hn, hfc]
    simp [anyBit]
  · have hlast : Via s.cfg.addresses 2 f (readCrc (f.withRegs { f.regs with crcTo := !anyBit f.regs.n f.cfg.mCrcDone })) := by
      rw [← hfc]
      exact (((Via.local rfl rfl rfl).trans (Via.read _ (by simp))).trans (Via.read _ (by simp))).mono (by omega) |>.andLocal rfl rfl rfl
    exact (((((hav.trans hbv).trans hdv).trans hev).trans hfv).trans hlast).mono (by have : crcBudget = 255 := rfl; omega)
  · obtain ⟨lo, hi, h⟩ := readCrc_regs (f.withRegs { f.regs with crcTo := !anyBit f.regs.n f.cfg.mCrcDone })
    refine ⟨last, BitVec.ofNat 11 (crcBudget - (samples.length + 1)), lo, hi, !anyBit f.regs.n f.cfg.mCrcDone, ?_⟩
    rw [h, State.withRegs_regs, hr, her]
  · show f.rx = _
    rw [hx, ← hee, State.write_rx, hdx, ← hb, ← ha]
    rfl
  · show f.tx = _
    rw [htx, ← hee, State.write_tx, hdq.tx, hbtx]
  · show f.pc = _
    rw [hpc, ← hee, State.write_pc, hdq.pc, ← hb, ← ha]
    rfl
  · show f.reply = _
    rw [hrep, ← hee, State.write_reply, hdq.reply, ← hb, ← ha]
    rfl

end Sys2Proof.Machine
end

