-- ==== Sys2Proof/Laws/Operations.lean ====
section
/-! SUPPORT. What each operation can do: the accesses it makes at most, at which addresses, and the depth of the buffers after it. -/
namespace Sys2Proof.Machine

/-- At most `n` accesses at the twelve addresses, and the buffers keep their depth (R22). -/
def Moves (n : Nat) (s t : State) : Prop :=
  Via s.cfg.addresses n s t ∧ (s.rx.length ≤ 16 → t.rx.length ≤ 16) ∧ (s.tx.length ≤ 64 → t.tx.length ≤ 64)

variable {n m : Nat} {s t u : State}

theorem Moves.refl (s : State) : Moves 0 s s := ⟨Via.refl s, id, id⟩

theorem Moves.cfg_eq (h : Moves n s t) : t.cfg = s.cfg := h.1.1

theorem Moves.trans (h : Moves n s t) (g : Moves m t u) : Moves (n + m) s u := by
  obtain ⟨gv, gr, gt⟩ := g
  rw [h.cfg_eq] at gv
  exact ⟨h.1.trans gv, fun hs => gr (h.2.1 hs), fun hs => gt (h.2.2 hs)⟩

theorem Moves.mono (h : Moves n s t) (hn : n ≤ m) : Moves m s t := ⟨h.1.mono hn, h.2⟩

theorem Moves.local (hc : t.cfg = s.cfg) (hi : t.inbox = s.inbox) (hp : t.port = s.port) (hr : t.rx = s.rx) (ht : t.tx = s.tx) :
    Moves 0 s t := ⟨Via.local hc hi hp, by rw [hr]; exact id, by rw [ht]; exact id⟩

theorem Moves.read (s : State) {a : RegAddr} (ha : a ∈ s.cfg.addresses) : Moves 1 s (s.afterRead a) := ⟨Via.read s ha, id, id⟩
theorem Moves.write (s : State) {a : RegAddr} (v : Byte) (ha : a ∈ s.cfg.addresses) : Moves 1 s (s.write a v) := ⟨Via.write s v ha, id, id⟩
theorem Moves.setBits (s : State) {a : RegAddr} (v : Byte) (ha : a ∈ s.cfg.addresses) : Moves 2 s (s.setBits a v) :=
  ⟨Via.setBits s v ha, id, id⟩
theorem Moves.clearBits (s : State) {a : RegAddr} (v : Byte) (ha : a ∈ s.cfg.addresses) : Moves 2 s (s.clearBits a v) :=
  ⟨Via.clearBits s v ha, id, id⟩

theorem Moves.finish (h : Moves n s t) (r : Reply) : Moves n s (t.finish r) :=
  (h.trans (Moves.local (s := t) (t := t.finish r) rfl rfl rfl rfl rfl)).mono (by omega)

variable (s)

theorem raise_moves (st : Status) (c : Cause) : Moves 0 s (s.raise st c) := Moves.local rfl rfl rfl rfl rfl

theorem demoteUnless_moves (test : Bool) (st : Status) (c : Cause) : Moves 0 s (s.demoteUnless test st c) := by
  unfold State.demoteUnless
  split
  · exact raise_moves s st c
  · exact Moves.refl s

theorem transceive_moves (cmd : Byte) {out : List Byte} (h : out.length ≤ 64) :
    Moves (xcvBound s.cfg cmd out.length) s (transceive cmd out s) := by
  obtain ⟨-, hv, hq, hr⟩ := transceive_spec s cmd out
  exact ⟨hv, fun _ => hr, fun _ => by rw [hq.tx]; exact h⟩

theorem computeCrc_moves {bytes : List Byte} (h : bytes.length ≤ 64) : Moves (262 + bytes.length) s (computeCrc bytes s) := by
  obtain ⟨-, hv, -, hr, ht, -, -⟩ := computeCrc_spec s bytes
  exact ⟨hv, by rw [hr]; exact id, fun _ => by rw [ht]; exact h⟩

theorem xcvBound_transceive (cfg : Config) (len : Nat) : xcvBound cfg cfg.cmdTransceive len = 2029 + len := by simp [xcvBound]

/-- Distinct command codes, of a valid configuration (R92, R260). -/
theorem Config.valid_commands {cfg : Config} (h : cfg.valid = true) : cfg.cmdAuthent ≠ cfg.cmdTransceive ∧ cfg.cmdCalcCrc ≠ cfg.cmdTransceive
    ∧ cfg.cmdIdle ≠ cfg.cmdTransceive ∧ cfg.cmdAuthent ≠ cfg.cmdCalcCrc ∧ cfg.cmdIdle ≠ cfg.cmdCalcCrc ∧ cfg.cmdIdle ≠ cfg.cmdAuthent := by
  simp only [Config.valid, Bool.and_eq_true, decide_eq_true_eq, Config.commands] at h
  have := h.2
  simp at this
  obtain ⟨⟨h1, h2, h3⟩, ⟨h4, h5⟩, h6⟩ := this
  exact ⟨fun e => h6 e.symm, h4, h2, fun e => h5 e.symm, h1, h3⟩

theorem xcvBound_authent {cfg : Config} (h : cfg.valid = true) (len : Nat) : xcvBound cfg cfg.cmdAuthent len = 2009 + len := by
  simp [xcvBound, (Config.valid_commands h).1]

theorem requestPresence_moves : Moves 2031 s (requestPresence s) := by
  rw [requestPresence_eq]
  have h1 := Moves.write s s.cfg.framingShort (a := s.cfg.aBitFraming) (by simp)
  have h2 := transceive_moves (s.write s.cfg.aBitFraming s.cfg.framingShort) s.cfg.cmdTransceive (out := requestFrame s.cfg) (by simp [requestFrame])
  rw [State.write_cfg, xcvBound_transceive] at h2
  exact ((h1.trans h2).trans (demoteUnless_moves _ _ _ _)).mono (by simp [requestFrame])

theorem resolveUid_moves : Moves 2032 s (resolveUid s) := by
  rw [resolveUid_eq]
  have h1 := Moves.write s s.cfg.framingByte (a := s.cfg.aBitFraming) (by simp)
  have h2 := transceive_moves (s.write s.cfg.aBitFraming s.cfg.framingByte) s.cfg.cmdTransceive
    (out := anticollisionFrame s.cfg .one) (by simp [anticollisionFrame])
  rw [State.write_cfg, xcvBound_transceive] at h2
  exact (((h1.trans h2).trans (demoteUnless_moves _ _ _ _)).trans (demoteUnless_moves _ _ _ _)).mono (by simp [anticollisionFrame])

theorem exchangeWithCrc_moves {frame : List Byte} (h : frame.length ≤ 62) :
    Moves (2293 + 2 * frame.length) s (exchangeWithCrc frame s) := by
  have h1 := computeCrc_moves s (bytes := frame) (by omega)
  have h2 := transceive_moves (computeCrc frame s) (computeCrc frame s).cfg.cmdTransceive (out := frame ++ crcSuffix (computeCrc frame s))
    (by simp [crcSuffix]; omega)
  rw [xcvBound_transceive] at h2
  exact (h1.trans h2).mono (by simp [crcSuffix]; omega)

theorem selectCard_moves {id : List Byte} (h : id.length = 5) : Moves 2307 s (selectCard id s) := by
  rw [selectCard_eq]
  exact ((exchangeWithCrc_moves s (frame := selectFrame s.cfg id) (by simp [selectFrame, h])).trans (demoteUnless_moves _ _ _ _)).mono
    (by simp [selectFrame, h])

theorem authFrame_length (cfg : Config) (slot : Slot) (block : Byte) {key uid : List Byte} (hk : key.length = 6) (hu : uid.length = 4) :
    (authFrame cfg slot block key uid).length = 12 := by simp [authFrame, hk, hu]

theorem authenticateCommand_moves (hv : s.cfg.valid = true) {out : List Byte} (h : out.length ≤ 64) :
    Moves (2009 + out.length) s (authenticateCommand out s) := by
  rw [authenticateCommand_eq]
  have := transceive_moves s s.cfg.cmdAuthent h
  rwa [xcvBound_authent hv] at this

theorem authenticate_moves (hv : s.cfg.valid = true) {id key : List Byte} (hi : id.length = 5) (hk : key.length = 6) (slot : Slot) (block : Byte) :
    Moves 2022 s (authenticate id slot block key s) := by
  rw [authenticate_eq]
  have hl := authFrame_length s.cfg slot block hk (uid := id.take 4) (by simp [hi])
  have h1 := authenticateCommand_moves s hv (out := authFrame s.cfg slot block key (id.take 4)) (by omega)
  generalize authenticateCommand (authFrame s.cfg slot block key (id.take 4)) s = c at h1 ⊢
  have h2 := (Moves.read c (a := c.cfg.aStatus2) (by simp)).trans
    (Moves.local (s := c.afterRead c.cfg.aStatus2)
      (t := (c.afterRead c.cfg.aStatus2).withRegs { c.regs with s2 := c.answer c.cfg.aStatus2 }) rfl rfl rfl rfl rfl)
  have h3 := (h1.trans h2).trans (demoteUnless_moves _ (anyBit (c.answer c.cfg.aStatus2) c.cfg.mCrypto1On) .error .notAuthenticated)
  exact h3.mono (by omega)

theorem stopCrypto_moves : Moves 2 s (stopCrypto s) := Moves.clearBits s _ (by simp)

theorem authenticateSector_moves (hv : s.cfg.valid = true) {id key : List Byte} (hi : id.length = 5) (hk : key.length = 6)
    (slot : Slot) (block : Byte) : Moves 4329 s (authenticateSector id slot block key s) := by
  have h1 := selectCard_moves s hi
  rw [authenticateSector_eq]
  simp only
  split
  · exact (h1.trans (raise_moves _ _ _)).mono (by omega)
  · exact (h1.trans (authenticate_moves _ (by rw [h1.cfg_eq]; exact hv) hi hk slot block)).mono (by omega)

theorem readBlock_moves (block : Byte) : Moves 2297 s (readBlock block s) := by
  rw [readBlock_eq]
  exact ((exchangeWithCrc_moves s (frame := readFrame s.cfg block) (by simp [readFrame])).trans (demoteUnless_moves _ _ _ _)).mono
    (by simp [readFrame])

theorem failWrite_moves : Moves 0 s (failWrite s) := raise_moves s _ _

theorem writeBlock_moves (block : Byte) {data : List Byte} (h : data.length = 16) : Moves 4622 s (writeBlock block data s) := by
  have h1 := exchangeWithCrc_moves s (frame := writeFrame s.cfg block) (by simp [writeFrame])
  have h2 := exchangeWithCrc_moves (exchangeWithCrc (writeFrame s.cfg block) s) (frame := data) (by omega)
  have hl : (writeFrame s.cfg block).length = 2 := rfl
  rw [writeBlock_eq]
  simp only
  split
  · split
    · exact (h1.trans h2).mono (by omega)
    · exact ((h1.trans h2).trans (failWrite_moves _)).mono (by omega)
  · exact (h1.trans (failWrite_moves _)).mono (by omega)

theorem readBlocks_moves (blocks out : List Byte) : Moves (2297 * blocks.length) s (readBlocks blocks out s).2 := by
  induction blocks generalizing s out with
  | nil => exact Moves.refl s
  | cons b bs ih => exact ((readBlock_moves s b).trans (ih _ _)).mono (by simp; omega)

theorem readSector_moves (hv : s.cfg.valid = true) {id key : List Byte} (hi : id.length = 5) (hk : key.length = 6) (slot : Slot) (base : Byte) :
    Moves 11222 s (readSector id slot base key s).2 := by
  have h1 := authenticateSector_moves s hv hi hk slot (base + 3#8)
  rw [readSector_eq]
  simp only
  split
  · have h2 := readBlocks_moves (authenticateSector id slot (base + 3#8) key s) [base, base + 1#8, base + 2#8] []
    exact ((h1.trans h2).trans (stopCrypto_moves _)).mono (by simp)
  · exact (h1.trans (stopCrypto_moves _)).mono (by omega)

theorem pollAttempt_moves : ∃ t : State, Moves 4063 s t ∧
    ((∃ r, pollAttempt s = t.finish r) ∨ (pollAttempt s = (t.withPort t.port.afterDeadline).finish .noCard) ∨
     (pollAttempt s = ((t.withPort t.port.afterDeadline).withReply .pending).withPc .poll)) := by
  have h1 := requestPresence_moves s
  have h2 := h1.trans (resolveUid_moves (requestPresence s))
  have hr : ∀ t : State, retryOrEnd t = (t.withPort t.port.afterDeadline).finish .noCard ∨
      retryOrEnd t = ((t.withPort t.port.afterDeadline).withReply .pending).withPc .poll := by
    intro t
    unfold retryOrEnd
    simp only
    split
    · exact .inl rfl
    · exact .inr rfl
  rw [pollAttempt_eq]
  simp only
  split
  · split
    · exact ⟨_, h2, .inl ⟨_, rfl⟩⟩
    · exact ⟨_, h2, .inr (hr _)⟩
  · exact ⟨_, h1.mono (by omega), .inr (hr _)⟩

/-! Operand ranges, read off the gate. -/

theorem refuseIdentifier_none {id : List Byte} (h : refuseIdentifier id = none) : id.length = 5 ∧ checksumOk id = true := by
  unfold refuseIdentifier at h
  split at h
  · simp at h
  · rename_i hl
    split at h
    · rename_i hc
      exact ⟨by simpa using hl, hc⟩
    · simp at h

theorem refuseKey_none {key : List Byte} (h : refuseKey key = none) : key.length = 6 := by
  unfold refuseKey at h
  split at h
  · assumption
  · simp at h

theorem refuseLong_none {bytes : List Byte} (h : refuseLong bytes = none) : bytes.length ≤ 64 := by
  unfold refuseLong at h
  split at h
  · assumption
  · simp at h

theorem refuseBlock_none {data : List Byte} (h : refuseBlock data = none) : data.length = 16 := by
  unfold refuseBlock at h
  split at h
  · assumption
  · simp at h

theorem refuseUid_none {uid : List Byte} (h : refuseUid uid = none) : uid.length = 4 := by
  unfold refuseUid at h
  split at h
  · assumption
  · simp at h

theorem orElse_none {α : Type} {a b : Option α} (h : (a <|> b) = none) : a = none ∧ b = none := by
  cases a <;> simp_all

/-! One step of an operation. -/

/-- A served request: refused with no access, or its body's accesses. -/
theorem serve_moves {i : Instr} {body : State → State}
    (h : s.cfg.valid = true → refusal i = none → Moves n s (body s)) : Moves n s (s.serve i body) := by
  cases hg : s.gate i with
  | some c =>
    rw [State.serve_stopped s hg]
    exact (Moves.local (s := s) (t := s.refuse c) rfl rfl rfl rfl rfl).mono (by omega)
  | none =>
    rw [State.serve_open s hg]
    obtain ⟨-, hv, hr⟩ := (State.gate_eq_none s).1 hg
    exact h hv hr

theorem command_moves (code : Byte) : Moves 1 s (s.command code) := Moves.write s code (by simp)

theorem sendFrameWithCrc_moves (op : Instr) {frame : List Byte} (h : frame.length ≤ 62) :
    Moves (2293 + 2 * frame.length) s (sendFrameWithCrc op frame s) := by
  rw [sendFrameWithCrc_eq]
  exact (exchangeWithCrc_moves s h).finish _

theorem sendFrame_moves (op : Instr) (framing : Byte) {frame : List Byte} (h : frame.length ≤ 64) :
    Moves (2030 + frame.length) s (sendFrame op framing frame s) := by
  have h1 := Moves.write s framing (a := s.cfg.aBitFraming) (by simp)
  have h2 := transceive_moves (s.write s.cfg.aBitFraming framing) s.cfg.cmdTransceive h
  rw [State.write_cfg, xcvBound_transceive] at h2
  rw [sendFrame_eq]
  exact ((h1.trans h2).mono (by omega)).finish _

theorem sendAuthFrame_moves (op : Instr) (hv : s.cfg.valid = true) {frame : List Byte} (h : frame.length = 12) :
    Moves 2021 s (sendAuthFrame op frame s) := by
  rw [sendAuthFrame_eq]
  exact ((authenticateCommand_moves s hv (out := frame) (by omega)).finish _).mono (by omega)

/-- Every operation of the core but POLL: one step ends it, with at most the transactions of R255's table, all at the twelve addresses. -/
theorem exec_moves {i : Instr} (hc : i.ofCore = true) (hp : i ≠ .poll) :
    ∃ t, exec i s = .next t ∧ Moves (mostTransactions s.cfg i) s t := by
  cases i
  case poll => exact absurd rfl hp
  case rdreg => exact absurd hc Bool.false_ne_true
  case wrreg => exact absurd hc Bool.false_ne_true
  case setb => exact absurd hc Bool.false_ne_true
  case clrb => exact absurd hc Bool.false_ne_true
  case rstp => exact absurd hc Bool.false_ne_true
  case xcv cmd out =>
    refine ⟨_, rfl, serve_moves s fun hv hr => ((transceive_moves s cmd (refuseLong_none hr)).finish _).mono ?_⟩
    simp only [xcvBound, mostTransactions]
    split <;> omega
  case authcmd out => exact ⟨_, rfl, serve_moves s fun hv hr => (authenticateCommand_moves s hv (refuseLong_none hr)).finish _⟩
  case reqp => exact ⟨_, rfl, serve_moves s fun hv hr => (requestPresence_moves s).finish _⟩
  case acoll => exact ⟨_, rfl, serve_moves s fun hv hr => (resolveUid_moves s).finish _⟩
  case uidchk raw => exact ⟨_, rfl, serve_moves s fun hv hr => (Moves.refl s).finish _⟩
  case select id => exact ⟨_, rfl, serve_moves s fun hv hr => (selectCard_moves s (refuseIdentifier_none hr).1).finish _⟩
  case auth id slot block key =>
    refine ⟨_, rfl, serve_moves s fun hv hr => ?_⟩
    obtain ⟨h1, h23⟩ := orElse_none hr
    obtain ⟨h2, h3⟩ := orElse_none h23
    exact (authenticate_moves s hv (refuseIdentifier_none h1).1 (refuseKey_none h3) _ _).finish _
  case stopc => exact ⟨_, rfl, serve_moves s fun hv hr => (stopCrypto_moves s).finish _⟩
  case authsec id slot block key =>
    refine ⟨_, rfl, serve_moves s fun hv hr => ?_⟩
    obtain ⟨h1, h23⟩ := orElse_none hr
    obtain ⟨h2, h3⟩ := orElse_none h23
    exact (authenticateSector_moves s hv (refuseIdentifier_none h1).1 (refuseKey_none h3) _ _).finish _
  case rdblk block => exact ⟨_, rfl, serve_moves s fun hv hr => (readBlock_moves s block).finish _⟩
  case wrblk block data => exact ⟨_, rfl, serve_moves s fun hv hr => (writeBlock_moves s block (refuseBlock_none hr)).finish _⟩
  case rdsec id slot base key =>
    refine ⟨_, rfl, serve_moves s fun hv hr => ?_⟩
    obtain ⟨h1, h234⟩ := orElse_none hr
    obtain ⟨h2, h34⟩ := orElse_none h234
    obtain ⟨h3, h4⟩ := orElse_none h34
    exact (readSector_moves s hv (refuseIdentifier_none h1).1 (refuseKey_none h4) _ _).finish _
  case crc bytes => exact ⟨_, rfl, serve_moves s fun hv hr => (computeCrc_moves s (refuseLong_none hr)).finish _⟩
  case acenc => exact ⟨_, rfl, serve_moves s fun hv hr => (Moves.refl s).finish _⟩
  case acdec => exact ⟨_, rfl, serve_moves s fun hv hr => (Moves.refl s).finish _⟩
  case acsetb => exact ⟨_, rfl, serve_moves s fun hv hr => (Moves.refl s).finish _⟩
  case acchk => exact ⟨_, rfl, serve_moves s fun hv hr => (Moves.refl s).finish _⟩
  case trpack => exact ⟨_, rfl, serve_moves s fun hv hr => (Moves.refl s).finish _⟩
  case trunpk bytes =>
    refine ⟨_, rfl, serve_moves s fun hv hr => ?_⟩
    cases unpackTrailer bytes with
    | some t => exact (Moves.refl s).finish _
    | none => exact Moves.local rfl rfl rfl rfl rfl
  case idle => exact ⟨_, rfl, serve_moves s fun hv hr => (command_moves s _).finish _⟩
  case calccrc => exact ⟨_, rfl, serve_moves s fun hv hr => (command_moves s _).finish _⟩
  case transceive =>
    exact ⟨_, rfl, serve_moves s fun hv hr => ((command_moves s _).trans (Moves.setBits _ _ (by simp [State.command]))).finish _⟩
  case authent => exact ⟨_, rfl, serve_moves s fun hv hr => (command_moves s _).finish _⟩
  case request => exact ⟨_, rfl, serve_moves s fun hv hr => sendFrame_moves s _ _ (by simp [requestFrame])⟩
  case anticollision level => exact ⟨_, rfl, serve_moves s fun hv hr => sendFrame_moves s _ _ (by simp [anticollisionFrame])⟩
  case selectCard id =>
    refine ⟨_, rfl, serve_moves s fun hv hr => ?_⟩
    have hl : (selectFrame s.cfg id).length = 7 := by simp [selectFrame, (refuseIdentifier_none hr).1]
    exact (sendFrameWithCrc_moves s _ (by omega)).mono (by simp only [mostTransactions]; omega)
  case authA block key uid =>
    refine ⟨_, rfl, serve_moves s fun hv hr => ?_⟩
    obtain ⟨h1, h2⟩ := orElse_none hr
    exact sendAuthFrame_moves s _ hv (authFrame_length _ _ _ (refuseKey_none h1) (refuseUid_none h2))
  case authB block key uid =>
    refine ⟨_, rfl, serve_moves s fun hv hr => ?_⟩
    obtain ⟨h1, h2⟩ := orElse_none hr
    exact sendAuthFrame_moves s _ hv (authFrame_length _ _ _ (refuseKey_none h1) (refuseUid_none h2))
  case read block => exact ⟨_, rfl, serve_moves s fun hv hr => sendFrameWithCrc_moves s _ (by simp [readFrame])⟩
  case write block => exact ⟨_, rfl, serve_moves s fun hv hr => sendFrameWithCrc_moves s _ (by simp [writeFrame])⟩

end Sys2Proof.Machine
end

