-- ==== Sys2Proof/Laws/Requests.lean ====
section
/-! SUPPORT. Which requests the gate lets through: the operand ranges of R76 as the model checks them are those of `Instr.InRange`; and what a
request that is let through does. -/
namespace Sys2Proof.Machine

theorem IdentifierOk.length_eq {id : List Byte} (h : IdentifierOk id) : id.length = 5 := by
  obtain ⟨a, b, c, d, rfl⟩ := h
  rfl

theorem exists_of_length_five {l : List Byte} (h : l.length = 5) : ∃ a b c d e, l = [a, b, c, d, e] :=
  match l, h with
  | [a, b, c, d, e], _ => ⟨a, b, c, d, e, rfl⟩

/-- The checksum test on five bytes (R110). -/
theorem checksumOk_five (a b c d e : Byte) : checksumOk [a, b, c, d, e] = true ↔ e = a ^^^ b ^^^ c ^^^ d := by
  simp [checksumOk, xorAll, BitVec.xor_assoc]

theorem refuseIdentifier_iff (id : List Byte) : refuseIdentifier id = none ↔ IdentifierOk id := by
  constructor
  · intro h
    obtain ⟨h1, h2⟩ := refuseIdentifier_none h
    obtain ⟨a, b, c, d, e, rfl⟩ := exists_of_length_five h1
    exact ⟨a, b, c, d, by rw [(checksumOk_five _ _ _ _ _).1 h2]⟩
  · rintro ⟨a, b, c, d, rfl⟩
    simp [refuseIdentifier, (checksumOk_five a b c d _).2 rfl]

theorem refuseSlot_iff (slot : Byte) : refuseSlot slot = none ↔ slot = 0#8 ∨ slot = 1#8 := by
  have h : ∀ b : Byte, (refuseSlot b = none ↔ b = 0#8 ∨ b = 1#8) := by decide
  exact h slot

theorem refuseLong_iff (bytes : List Byte) : refuseLong bytes = none ↔ bytes.length ≤ 64 := by
  unfold refuseLong
  show (if bytes.length ≤ 64 then _ else _) = none ↔ _
  split <;> simp_all

/-- The ranges the gate checks are those of R76. -/
theorem refusal_iff (i : Instr) : refusal i = none ↔ i.InRange := by
  cases i
  all_goals simp [refusal, Instr.InRange, refuseIdentifier_iff, refuseSlot_iff, refuseAddress, refuseLong_iff, refuseKey, refuseBlock,
    refuseUid, refuseCodes, refuseBase]
  all_goals tauto

theorem State.Ready.gate {s : State} {i : Instr} (h : s.Ready) (hi : i.InRange) : s.gate i = none := by
  rw [State.gate_eq_none]
  exact ⟨h.1, h.2, (refusal_iff i).2 hi⟩

/-- Every arm of `exec` serves one body. -/
theorem exec_serves (i : Instr) : ∃ body : State → State, ∀ s, exec i s = .next (s.serve i body) := by
  cases i
  all_goals exact ⟨_, fun s => rfl⟩

/-- A request that is let through runs its body. -/
theorem exec_body {i : Instr} {body : State → State} {s : State} (h : ∀ s, exec i s = .next (s.serve i body)) (hr : s.Ready)
    (hi : i.InRange) : exec i s = .next (body s) := by
  rw [h, State.serve_open s (hr.gate hi)]

/-! `demoteUnless`, case by case (R243). -/

theorem State.demoteUnless_fails {s : State} {test : Bool} {st : Status} {c : Cause} (hs : s.regs.status = .ok) (ht : test = false) :
    s.demoteUnless test st c = s.raise st c := if_pos ⟨hs, ht⟩

theorem State.demoteUnless_not_ok {s : State} {test : Bool} {st : Status} {c : Cause} (hs : s.regs.status ≠ .ok) :
    s.demoteUnless test st c = s := if_neg fun h => hs h.1

theorem State.demoteUnless_holds {s : State} {test : Bool} {st : Status} {c : Cause} (ht : test = true) :
    s.demoteUnless test st c = s := if_neg fun h => by simp [ht] at h

@[simp] theorem State.demoteUnless_port (s : State) (test : Bool) (st : Status) (c : Cause) : (s.demoteUnless test st c).port = s.port := by
  unfold State.demoteUnless
  split <;> rfl

end Sys2Proof.Machine
end

