-- ==== Sys2Proof/Laws/Card.lean ====
section
/-! SUPPORT. What the operations of the engine put into the chip's FIFO and what reaches the card: one frame, exactly the bytes given, for a
`transceive` under TRANSCEIVE or AUTHENT; none for any other command and for `computeCRC`. -/
namespace Sys2Proof.Machine

/-- The distinct addresses of a valid configuration (R61) that these lemmas use. -/
structure Distinct (c : Config) : Prop where
  command_comIEn : c.aCommand ≠ c.aComIEn
  command_comIrq : c.aCommand ≠ c.aComIrq
  command_divIrq : c.aCommand ≠ c.aDivIrq
  command_status2 : c.aCommand ≠ c.aStatus2
  command_fifoData : c.aCommand ≠ c.aFifoData
  command_fifoLevel : c.aCommand ≠ c.aFifoLevel
  command_framing : c.aCommand ≠ c.aBitFraming
  framing_comIEn : c.aBitFraming ≠ c.aComIEn
  framing_comIrq : c.aBitFraming ≠ c.aComIrq
  framing_divIrq : c.aBitFraming ≠ c.aDivIrq
  framing_status2 : c.aBitFraming ≠ c.aStatus2
  framing_fifoData : c.aBitFraming ≠ c.aFifoData
  framing_fifoLevel : c.aBitFraming ≠ c.aFifoLevel
  fifoLevel_fifoData : c.aFifoLevel ≠ c.aFifoData
  crcL_fifoData : c.aCrcResultL ≠ c.aFifoData
  crcH_fifoData : c.aCrcResultH ≠ c.aFifoData
  crcL_fifoLevel : c.aCrcResultL ≠ c.aFifoLevel
  crcH_fifoLevel : c.aCrcResultH ≠ c.aFifoLevel
  crcL_comIrq : c.aCrcResultL ≠ c.aComIrq
  crcH_comIrq : c.aCrcResultH ≠ c.aComIrq
  crcL_divIrq : c.aCrcResultL ≠ c.aDivIrq
  crcH_divIrq : c.aCrcResultH ≠ c.aDivIrq
  crcH_crcL : c.aCrcResultH ≠ c.aCrcResultL

theorem Config.distinct {c : Config} (h : c.valid = true) : Distinct c := by
  simp only [Config.valid, Bool.and_eq_true, decide_eq_true_eq] at h
  have h := h.1
  unfold Config.addresses at h
  simp only [List.nodup_cons, List.mem_cons, List.not_mem_nil, or_false, not_or] at h
  obtain ⟨⟨_, _, _, _, _, _, _, _, _, _, _⟩, ⟨_, _, _, _, _, _, _, _, _, _⟩, ⟨_, _, _, _, _, _, _, _, _⟩, ⟨_, _, _, _, _, _, _, _⟩,
    ⟨_, _, _, _, _, _, _⟩, ⟨_, _, _, _, _, _⟩, ⟨_, _, _, _, _⟩, ⟨_, _, _, _⟩, ⟨_, _, _⟩, ⟨_, _⟩, ⟨_, _⟩⟩ := h
  constructor <;> first | assumption | (apply Ne.symm; assumption)

theorem and_not_and (v m : Byte) : (v &&& ~~~m) &&& m = 0#8 := by
  rw [BitVec.and_assoc]
  simp [BitVec.and_comm]

theorem anyBit_or_self (v m : Byte) (h : m ≠ 0#8) : anyBit (v ||| m) m = true := by
  rw [anyBit_eq_true]
  intro e
  apply h
  have : (v ||| m) &&& m = m := by
    apply BitVec.eq_of_getLsbD_eq
    intro i _
    simp
    intro h
    simp [h]
  rwa [this] at e

/-! One transaction. -/

theorem State.write_card_of_ne {s : State} {a : RegAddr} (v : Byte) (h : a ≠ s.cfg.aCommand) (h' : a ≠ s.cfg.aBitFraming) :
    (s.write a v).port.card = s.port.card := afterWrite_card _ _ _ _ _ h h'

/-- A bit-framing byte without the start-send bit reaches no card. -/
theorem State.write_framing_card {s : State} {v : Byte} (hd : Distinct s.cfg) (h : v &&& s.cfg.mStartSend = 0#8) :
    (s.write s.cfg.aBitFraming v).port.card = s.port.card := by
  show (afterWrite _ _ _ _ _ _).2 = _
  simp only [afterWrite, hd.framing_fifoData, hd.framing_fifoLevel, hd.framing_comIrq, hd.framing_divIrq, hd.framing_status2,
    hd.command_framing.symm, if_false, if_true]
  exact (writeFraming_moves _ _ _ _ _).2 (anyBit_eq_false.2 h)

/-- A write of a command, spelled out. -/
theorem afterWrite_command {cfg : Config} (hd : Distinct cfg) (n : Nat) (v : Byte) (chip : Chip) (card : Card) :
    afterWrite cfg n cfg.aCommand v chip card = startCommand cfg n v chip card := by
  simp only [afterWrite, hd.command_fifoData, hd.command_fifoLevel, hd.command_comIrq, hd.command_divIrq, hd.command_status2, if_false,
    if_true]

/-- A write of a command other than AUTHENT reaches no card. -/
theorem State.write_command_card {s : State} {v : Byte} (hd : Distinct s.cfg) (h : v ≠ s.cfg.cmdAuthent) :
    (s.write s.cfg.aCommand v).port.card = s.port.card := by
  show (afterWrite _ _ _ _ _ _).2 = _
  rw [afterWrite_command hd]
  exact (startCommand_moves _ _ _ _ _).2 h

/-- A write of a command that is neither CALC-CRC nor AUTHENT keeps the FIFO and is the command then active. -/
theorem State.write_plain_command {s : State} {v : Byte} (hd : Distinct s.cfg) (hi : s.port.chip.Inv s.cfg) (h : v ≠ s.cfg.cmdCalcCrc)
    (h' : v ≠ s.cfg.cmdAuthent) : (s.write s.cfg.aCommand v).port.chip.fifo = s.port.chip.fifo ∧
      (s.write s.cfg.aCommand v).port.chip.get s.cfg s.cfg.aCommand = v := by
  show (afterWrite _ _ _ _ _ _).1.fifo = _ ∧ Chip.get _ (afterWrite _ _ _ _ _ _).1 _ = _
  rw [afterWrite_command hd]
  simp only [startCommand, h, h', if_false]
  exact ⟨rfl, Chip.get_put_self _ _ _ (Chip.inv_of_eq _ hi rfl hi.2.2)⟩

/-! The steps of the engine. -/

/-- Loading fills the FIFO with exactly the bytes, as long as they fit and CALC-CRC is not active (R143, R75, R36). -/
theorem State.loadFifo_fifo (l : List Byte) (s : State) (hc : s.port.chip.calculating s.cfg = false)
    (hl : s.port.chip.fifo.length + l.length ≤ 64) : (s.loadFifo l).port.chip.fifo = s.port.chip.fifo ++ l := by
  induction l generalizing s with
  | nil => simp [State.loadFifo]
  | cons b l ih =>
    have h1 : (s.write s.cfg.aFifoData b).port.chip = { s.port.chip with fifo := s.port.chip.fifo ++ [b] } := by
      show (afterWrite s.cfg _ _ _ _ _).1 = _
      simp only [afterWrite, if_true, Chip.push, hc]
      rw [if_neg Bool.false_ne_true, if_pos (by simp only [fifoCapacity]; simp at hl; omega)]
    rw [State.loadFifo, ih (s.write s.cfg.aFifoData b) (by rw [h1]; exact hc) (by rw [h1]; simp at hl ⊢; omega), h1]
    simp

theorem State.loadFifo_card (l : List Byte) (s : State) (hd : Distinct s.cfg) : (s.loadFifo l).port.card = s.port.card := by
  induction l generalizing s with
  | nil => rfl
  | cons b l ih =>
    exact (ih (s.write s.cfg.aFifoData b) hd).trans
      (State.write_card_of_ne b hd.command_fifoData.symm hd.framing_fifoData.symm)

/-- After the flush of T2 the FIFO is empty and IDLE the active command; nothing has reached the card (R142). -/
theorem armAndFlush_beyond {s : State} (hv : s.cfg.valid = true) (hf : s.cfg.mFlush ≠ 0#8)
    (hi : s.port.chip.Inv s.cfg ∧ s.port.card.Inv) :
    (armAndFlush s).port.card = s.port.card ∧ (armAndFlush s).port.chip.fifo = [] ∧
    (armAndFlush s).port.chip.calculating s.cfg = false := by
  have hd := Config.distinct hv
  have hcm := Config.valid_commands hv
  unfold armAndFlush
  have hav : Via s.cfg.addresses 3 s ((s.write s.cfg.aComIEn (s.regs.irqen ||| s.cfg.mIrqInv)).clearBits s.cfg.aComIrq s.cfg.mIrqClr) :=
    (Via.write s _ (by simp)).trans (Via.clearBits _ _ (by simp))
  generalize ha : (s.write s.cfg.aComIEn (s.regs.irqen ||| s.cfg.mIrqInv)).clearBits s.cfg.aComIrq s.cfg.mIrqClr = a at hav
  have hac : a.cfg = s.cfg := hav.cfg_eq
  have h1 : a.port.card = s.port.card := by
    rw [← ha]
    have e1 := State.write_card_of_ne (s := s) (s.regs.irqen ||| s.cfg.mIrqInv) hd.command_comIEn.symm hd.framing_comIEn.symm
    have e2 : ∀ (u : State) (v : Byte), u.cfg = s.cfg → ((u.afterRead s.cfg.aComIrq).write s.cfg.aComIrq v).port.card = u.port.card :=
      fun u v hu => State.write_card_of_ne (s := u.afterRead s.cfg.aComIrq) v (by rw [State.afterRead_cfg, hu]; exact hd.command_comIrq.symm)
        (by rw [State.afterRead_cfg, hu]; exact hd.framing_comIrq.symm)
    exact (e2 (s.write s.cfg.aComIEn (s.regs.irqen ||| s.cfg.mIrqInv)) _ rfl).trans e1
  have hbv : Via s.cfg.addresses 5 s (a.setBits s.cfg.aFifoLevel s.cfg.mFlush) := hav.trans (Via.setBits a _ (by simp))
  generalize hb : a.setBits s.cfg.aFifoLevel s.cfg.mFlush = b at hbv
  have hbc : b.cfg = s.cfg := hbv.cfg_eq
  have hbi := (hbv.port_inv hi).1
  have h2 : b.port.card = a.port.card ∧ b.port.chip.fifo = [] := by
    rw [← hb]
    constructor
    · exact State.write_card_of_ne (s := a.afterRead s.cfg.aFifoLevel) _ (by rw [State.afterRead_cfg, hac]; exact hd.command_fifoLevel.symm)
        (by rw [State.afterRead_cfg, hac]; exact hd.framing_fifoLevel.symm)
    · show (afterWrite a.cfg _ _ _ _ _).1.fifo = []
      rw [hac]
      simp only [afterWrite, hd.fifoLevel_fifoData, if_false, if_true, anyBit_or_self _ _ hf]
      rfl
  have h3 := State.write_command_card (s := b) (v := s.cfg.cmdIdle) (hbc ▸ hd) (by rw [hbc]; exact hcm.2.2.2.2.2)
  have h4 := State.write_plain_command (s := b) (v := s.cfg.cmdIdle) (hbc ▸ hd) hbi (by rw [hbc]; exact hcm.2.2.2.2.1)
    (by rw [hbc]; exact hcm.2.2.2.2.2)
  rw [hbc] at h3 h4
  refine ⟨(h3.trans h2.1).trans h1, h4.1.trans h2.2, ?_⟩
  unfold Chip.calculating
  rw [h4.2]
  simpa using hcm.2.2.2.2.1

/-- Issuing a command does to the card what one frame, exactly the outgoing bytes, can do; a command that is neither TRANSCEIVE nor AUTHENT does
nothing (R143, R67). -/
theorem issueCommand_card {s : State} (cmd : Byte) (hv : s.cfg.valid = true) (hl : s.port.chip.fifo = [])
    (hk : s.port.chip.calculating s.cfg = false) (hx : s.tx.length ≤ 64) (hi : s.port.chip.Inv s.cfg ∧ s.port.card.Inv) :
    Card.Moves s.cfg s.tx s.port.card (issueCommand cmd s).port.card ∧
    (cmd ≠ s.cfg.cmdTransceive → cmd ≠ s.cfg.cmdAuthent → (issueCommand cmd s).port.card = s.port.card) := by
  have hd := Config.distinct hv
  have hcm := Config.valid_commands hv
  have h1 := State.loadFifo_card s.tx s hd
  have h2 := State.loadFifo_fifo s.tx s hk (by rw [hl]; simpa using hx)
  have hvia := (s.loadFifo_spec s.tx).1
  have hc := hvia.cfg_eq
  have hai := hvia.port_inv hi
  rw [hl] at h2
  have hb1 : ∀ v, v ≠ s.cfg.cmdAuthent → ((s.loadFifo s.tx).write s.cfg.aCommand v).port.card = s.port.card := fun v hv' => by
    have := State.write_command_card (s := s.loadFifo s.tx) (v := v) (hc ▸ hd) (by rw [hc]; exact hv')
    rw [hc] at this
    exact this.trans h1
  by_cases hcmd : cmd = s.cfg.cmdTransceive
  · subst hcmd
    refine ⟨?_, fun e => absurd rfl e⟩
    have h3 := State.write_plain_command (s := s.loadFifo s.tx) (v := s.cfg.cmdTransceive) (hc ▸ hd) hai.1 (by rw [hc]; exact hcm.2.1.symm)
      (by rw [hc]; exact hcm.1.symm)
    have h4 := hb1 _ hcm.1.symm
    unfold issueCommand
    simp only
    rw [if_pos (by rw [State.write_cfg, hc])]
    rw [hc] at h3
    have hbc : ((s.loadFifo s.tx).write s.cfg.aCommand s.cfg.cmdTransceive).cfg = s.cfg := hc
    generalize (s.loadFifo s.tx).write s.cfg.aCommand s.cfg.cmdTransceive = b at h3 h4 hbc
    have h5 : Card.Moves b.cfg (b.port.chip.afterRead b.cfg b.cfg.aBitFraming).fifo b.port.card
        ((b.afterRead b.cfg.aBitFraming).write b.cfg.aBitFraming (b.answer b.cfg.aBitFraming ||| b.cfg.mStartSend)).port.card :=
      afterWrite_moves b.cfg _ _ _ (b.port.chip.afterRead b.cfg b.cfg.aBitFraming) b.port.card
    have h6 : (b.port.chip.afterRead b.cfg b.cfg.aBitFraming).fifo = s.tx := by
      rw [hbc]
      simp only [Chip.afterRead, hd.framing_fifoData, hd.framing_comIrq, hd.framing_divIrq, if_false]
      rw [h3.1, h2, List.nil_append]
    rw [h6, h4] at h5
    unfold State.setBits
    rwa [hbc] at h5 ⊢
  · refine ⟨?_, fun e e' => ?_⟩
    · unfold issueCommand
      simp only
      rw [if_neg (by rw [State.write_cfg, hc]; exact hcmd)]
      show Card.Moves _ _ _ (afterWrite (s.loadFifo s.tx).cfg _ s.cfg.aCommand _ _ _).2
      rw [hc, afterWrite_command hd, h1]
      exact (startCommand_moves s.cfg _ cmd _ _).1.of_nil
    · unfold issueCommand
      simp only
      rw [if_neg (by rw [State.write_cfg, hc]; exact hcmd)]
      exact hb1 cmd e'

/-! Polls, drains and what follows them reach no card. -/

theorem pollIrqLoop_card (k : Nat) (s : State) : (pollIrqLoop k s).port.card = s.port.card ∧ (pollIrqLoop k s).cfg = s.cfg := by
  induction k generalizing s with
  | zero => exact ⟨rfl, rfl⟩
  | succ k ih =>
    simp only [pollIrqLoop]
    split
    · exact ⟨rfl, rfl⟩
    · exact ih _

theorem State.drainFifo_card (n : Nat) (s : State) : (s.drainFifo n).port.card = s.port.card := by
  induction n generalizing s with
  | zero => rfl
  | succ k ih => exact ih _

theorem concludePlain_card (cmd : Byte) (s : State) : (concludePlain cmd s).port.card = s.port.card := by
  unfold concludePlain
  split
  · rfl
  · simp only
    split
    · exact State.drainFifo_card _ _
    · rfl

theorem stopSend_card {s : State} (hd : Distinct s.cfg) : (stopSend s).port.card = s.port.card :=
  State.write_framing_card (s := s.afterRead s.cfg.aBitFraming) hd (and_not_and _ _)

/-! The engine's operations. -/

/-- What a `transceive` does to the card: what one frame, exactly the bytes given, can do; nothing under a command that is neither TRANSCEIVE nor
AUTHENT. -/
theorem transceive_card {s : State} {cmd : Byte} {out : List Byte} (hv : s.cfg.valid = true) (hf : s.cfg.mFlush ≠ 0#8) (hl : out.length ≤ 64)
    (hi : s.port.chip.Inv s.cfg ∧ s.port.card.Inv) :
    Card.Moves s.cfg out s.port.card (transceive cmd out s).port.card ∧
    (cmd ≠ s.cfg.cmdTransceive → cmd ≠ s.cfg.cmdAuthent → (transceive cmd out s).port.card = s.port.card) := by
  have hd := Config.distinct hv
  rw [transceive_eq]
  unfold runPlain
  rw [concludePlain_card]
  obtain ⟨a1, a2, a6⟩ := armAndFlush_beyond (s := selectMasks cmd (s.withTx out)) hv hf hi
  have a3 := (armAndFlush_quiet (selectMasks cmd (s.withTx out))).1.tx
  have a4 := (armAndFlush_via (selectMasks cmd (s.withTx out))).cfg_eq
  have a5 := (armAndFlush_via (selectMasks cmd (s.withTx out))).port_inv hi
  generalize armAndFlush (selectMasks cmd (s.withTx out)) = u at a1 a2 a3 a4 a5 a6
  have a4' : u.cfg = s.cfg := a4
  have a3' : u.tx = out := a3
  have a1' : u.port.card = s.port.card := a1
  have hp : (pollIrq (issueCommand cmd u)).cfg = s.cfg :=
    (pollIrqLoop_card _ _).2.trans ((issueCommand_via u cmd).cfg_eq.trans a4')
  have hpc : (pollIrq (issueCommand cmd u)).port.card = (issueCommand cmd u).port.card := (pollIrqLoop_card _ _).1
  rw [stopSend_card (by rw [hp]; exact hd), hpc]
  have := issueCommand_card (s := u) cmd (by rw [a4']; exact hv) a2 (by rw [a4']; exact a6) (by rw [a3']; exact hl) a5
  rwa [a4', a1', a3'] at this

/-- `computeCRC` reaches no card (R206). -/
theorem computeCrc_card {s : State} (bytes : List Byte) (hv : s.cfg.valid = true) : (computeCrc bytes s).port.card = s.port.card := by
  have hd := Config.distinct hv
  have hp : ∀ (k : Nat) (s : State), (pollCrcLoop k s).port.card = s.port.card := by
    intro k
    induction k with
    | zero => exact fun _ => rfl
    | succ k ih =>
      intro s
      simp only [pollCrcLoop]
      split
      · rfl
      · exact ih _
  rw [computeCrc_eq]
  show (pollCrcLoop _ _).port.card = _
  rw [hp]
  show (startPlain _).port.card = _
  unfold startPlain
  simp only
  generalize hx : (s.withTx bytes).withRegs { s.regs with crcTo := false } = x
  have hxc : x.cfg = s.cfg := by rw [← hx]; rfl
  have hxp : x.port.card = s.port.card := by rw [← hx]; rfl
  rw [← hxp]
  have e1 : (x.clearBits x.cfg.aDivIrq x.cfg.mCrcDone).port.card = x.port.card :=
    State.write_card_of_ne (s := x.afterRead x.cfg.aDivIrq) _ (by rw [State.afterRead_cfg, hxc]; exact hd.command_divIrq.symm)
      (by rw [State.afterRead_cfg, hxc]; exact hd.framing_divIrq.symm)
  have e2 : ∀ y : State, y.cfg = s.cfg → (y.setBits y.cfg.aFifoLevel y.cfg.mFlush).port.card = y.port.card := fun y hy =>
    State.write_card_of_ne (s := y.afterRead y.cfg.aFifoLevel) _ (by rw [State.afterRead_cfg, hy]; exact hd.command_fifoLevel.symm)
      (by rw [State.afterRead_cfg, hy]; exact hd.framing_fifoLevel.symm)
  have e3 := e2 (x.clearBits x.cfg.aDivIrq x.cfg.mCrcDone) hxc
  rw [State.clearBits_cfg] at e3
  have hyc : ((x.clearBits x.cfg.aDivIrq x.cfg.mCrcDone).setBits x.cfg.aFifoLevel x.cfg.mFlush).cfg = s.cfg := hxc
  generalize (x.clearBits x.cfg.aDivIrq x.cfg.mCrcDone).setBits x.cfg.aFifoLevel x.cfg.mFlush = y at e3 hyc ⊢
  have e4 := State.loadFifo_card y.tx y (by rw [hyc]; exact hd)
  have hzc := (y.loadFifo_spec y.tx).1.cfg_eq
  generalize y.loadFifo y.tx = z at e4 hzc ⊢
  have e5 := State.write_command_card (s := z) (v := s.cfg.cmdCalcCrc) (by rw [hzc, hyc]; exact hd)
    (by rw [hzc, hyc]; exact (Config.valid_commands hv).2.2.2.1.symm)
  rw [hzc, hyc] at e5
  rw [hyc]
  exact ((show _ = _ from e5).trans e4).trans (e3.trans e1)

end Sys2Proof.Machine
end

