-- ==== Sys2Proof/Laws/Commute.lean ====
section
/-! SUPPORT. The engines read no register, buffer or reply an earlier operation left (R20): `Agree` is kept. -/
namespace Sys2Proof.Machine

variable {s t : State}

/-! What an operation reads of the state it finds. -/

/-- Two states with the same configuration and the same beyond the port. -/
structure Agree (s t : State) : Prop where
  cfg : s.cfg = t.cfg
  port : s.port = t.port

/-- They also agree on what a `transceive` has set up. -/
structure AgreeSetUp (s t : State) : Prop extends Agree s t where
  tx : s.tx = t.tx
  rx : s.rx = t.rx
  irqen : s.regs.irqen = t.regs.irqen
  wait : s.regs.wait = t.regs.wait
  status : s.regs.status = t.regs.status
  cause : s.regs.cause = t.regs.cause
  bitLen : s.regs.bitLen = t.regs.bitLen

/-- They also agree on the sample and the counter of a poll loop. -/
structure AgreePolled (s t : State) : Prop extends AgreeSetUp s t where
  n : s.regs.n = t.regs.n
  i : s.regs.i = t.regs.i



theorem Agree.answer (h : Agree s t) (a : RegAddr) : s.answer a = t.answer a := State.answer_congr a h.cfg h.port

theorem Agree.afterRead (h : Agree s t) (a : RegAddr) : (s.afterRead a).port = (t.afterRead a).port := by
  show s.port.afterRead s.cfg a = t.port.afterRead t.cfg a
  rw [h.cfg, h.port]

theorem Agree.write (h : Agree s t) (a : RegAddr) (v : Byte) : (s.write a v).port = (t.write a v).port := by
  show s.port.afterWrite s.cfg a v = t.port.afterWrite t.cfg a v
  rw [h.cfg, h.port]

theorem Agree.setBits (h : Agree s t) (a : RegAddr) (m : Byte) : (s.setBits a m).port = (t.setBits a m).port := by
  have : Agree (s.afterRead a) (t.afterRead a) := ⟨h.cfg, h.afterRead a⟩
  show ((s.afterRead a).write a (s.answer a ||| m)).port = ((t.afterRead a).write a (t.answer a ||| m)).port
  rw [h.answer]
  exact this.write a _

theorem Agree.clearBits (h : Agree s t) (a : RegAddr) (m : Byte) : (s.clearBits a m).port = (t.clearBits a m).port := by
  have : Agree (s.afterRead a) (t.afterRead a) := ⟨h.cfg, h.afterRead a⟩
  show ((s.afterRead a).write a (s.answer a &&& ~~~m)).port = ((t.afterRead a).write a (t.answer a &&& ~~~m)).port
  rw [h.answer]
  exact this.write a _

theorem Agree.loadFifo (h : Agree s t) (bytes : List Byte) : Agree (s.loadFifo bytes) (t.loadFifo bytes) := by
  induction bytes generalizing s t with
  | nil => exact h
  | cons b bs ih =>
    simp only [State.loadFifo]
    refine ih ⟨h.cfg, ?_⟩
    rw [h.cfg]
    exact h.write _ b

theorem Agree.drainFifo (h : Agree s t) (hx : s.rx = t.rx) (n : Nat) :
    Agree (s.drainFifo n) (t.drainFifo n) ∧ (s.drainFifo n).rx = (t.drainFifo n).rx := by
  induction n generalizing s t with
  | zero => exact ⟨h, hx⟩
  | succ n ih =>
    simp only [State.drainFifo]
    refine ih ⟨h.cfg, ?_⟩ ?_
    · rw [State.withRx_port, State.withRx_port, h.cfg]
      exact h.afterRead _
    · rw [State.withRx_rx, State.withRx_rx, hx, h.cfg, h.answer]

theorem AgreeSetUp.write (h : AgreeSetUp s t) (a : RegAddr) (v : Byte) : AgreeSetUp (s.write a v) (t.write a v) :=
  ⟨⟨h.cfg, h.toAgree.write a v⟩, h.tx, h.rx, h.irqen, h.wait, h.status, h.cause, h.bitLen⟩

theorem AgreeSetUp.setBits (h : AgreeSetUp s t) (a : RegAddr) (m : Byte) : AgreeSetUp (s.setBits a m) (t.setBits a m) :=
  ⟨⟨h.cfg, h.toAgree.setBits a m⟩, h.tx, h.rx, h.irqen, h.wait, h.status, h.cause, h.bitLen⟩

theorem AgreeSetUp.clearBits (h : AgreeSetUp s t) (a : RegAddr) (m : Byte) : AgreeSetUp (s.clearBits a m) (t.clearBits a m) :=
  ⟨⟨h.cfg, h.toAgree.clearBits a m⟩, h.tx, h.rx, h.irqen, h.wait, h.status, h.cause, h.bitLen⟩

theorem AgreeSetUp.loadFifo (h : AgreeSetUp s t) (bytes : List Byte) : AgreeSetUp (s.loadFifo bytes) (t.loadFifo bytes) := by
  obtain ⟨-, hq, hr, hx, -⟩ := s.loadFifo_spec bytes
  obtain ⟨-, hq', hr', hx', -⟩ := t.loadFifo_spec bytes
  exact ⟨h.toAgree.loadFifo bytes, by rw [hq.tx, hq'.tx, h.tx], by rw [hx, hx', h.rx], by rw [hr, hr', h.irqen], by rw [hr, hr', h.wait],
    by rw [hr, hr', h.status], by rw [hr, hr', h.cause], by rw [hr, hr', h.bitLen]⟩

theorem AgreeSetUp.pollIrqLoop (h : AgreeSetUp s t) (hi : s.regs.i = t.regs.i) (hn : s.regs.n = t.regs.n) (k : Nat) :
    AgreePolled (pollIrqLoop k s) (pollIrqLoop k t) := by
  induction k generalizing s t with
  | zero => exact ⟨h, hn, hi⟩
  | succ k ih =>
    have ha : s.answer s.cfg.aComIrq = t.answer t.cfg.aComIrq := by rw [h.toAgree.answer, h.cfg]
    have hp : (s.afterRead s.cfg.aComIrq).port = (t.afterRead t.cfg.aComIrq).port := by rw [h.toAgree.afterRead, h.cfg]
    have h' : AgreeSetUp (pollIrqOnce s) (pollIrqOnce t) :=
      ⟨⟨h.cfg, hp⟩, h.tx, h.rx, h.irqen, h.wait, h.status, h.cause, h.bitLen⟩
    have hi' : (pollIrqOnce s).regs.i = (pollIrqOnce t).regs.i := by
      show s.regs.i - 1#11 = t.regs.i - 1#11
      rw [hi]
    have hn' : (pollIrqOnce s).regs.n = (pollIrqOnce t).regs.n := ha
    simp only [Machine.pollIrqLoop]
    rw [hi', hn', h'.wait]
    split
    · exact ⟨h', hn', hi'⟩
    · exact ih h' hi' hn'

/-- The loop runs at least once, so the last sample before it does not matter. -/
theorem AgreeSetUp.pollIrqFrom (h : AgreeSetUp s t) : AgreePolled (pollIrq s) (pollIrq t) := by
  have hstep : ∀ (k : Nat) {s t : State}, AgreeSetUp s t → s.regs.i = t.regs.i →
      AgreePolled (Machine.pollIrqLoop (k + 1) s) (Machine.pollIrqLoop (k + 1) t) := by
    intro k s t h hi
    have ha : s.answer s.cfg.aComIrq = t.answer t.cfg.aComIrq := by rw [h.toAgree.answer, h.cfg]
    have hp : (s.afterRead s.cfg.aComIrq).port = (t.afterRead t.cfg.aComIrq).port := by rw [h.toAgree.afterRead, h.cfg]
    have h' : AgreeSetUp (pollIrqOnce s) (pollIrqOnce t) :=
      ⟨⟨h.cfg, hp⟩, h.tx, h.rx, h.irqen, h.wait, h.status, h.cause, h.bitLen⟩
    have hi' : (pollIrqOnce s).regs.i = (pollIrqOnce t).regs.i := by
      show s.regs.i - 1#11 = t.regs.i - 1#11
      rw [hi]
    have hn' : (pollIrqOnce s).regs.n = (pollIrqOnce t).regs.n := ha
    simp only [Machine.pollIrqLoop]
    rw [hi', hn', h'.wait]
    split
    · exact ⟨h', hn', hi'⟩
    · exact h'.pollIrqLoop hi' hn' k
  exact hstep (pollBudget - 1) (s := s.withRegs { s.regs with i := BitVec.ofNat 11 pollBudget })
    (t := t.withRegs { t.regs with i := BitVec.ofNat 11 pollBudget })
    ⟨⟨h.cfg, h.port⟩, h.tx, h.rx, h.irqen, h.wait, h.status, h.cause, h.bitLen⟩ rfl

/-- A `transceive` of the same frame from states that agree ends in states that agree on its whole result. -/
theorem Agree.transceive (h : Agree s t) (cmd : Byte) (out : List Byte) :
    AgreeSetUp (Machine.transceive cmd out s) (Machine.transceive cmd out t) := by
  have h1 : AgreeSetUp (selectMasks cmd (s.withTx out)) (selectMasks cmd (t.withTx out)) := by
    refine ⟨⟨h.cfg, h.port⟩, rfl, rfl, ?_, ?_, rfl, rfl, rfl⟩
    · show enableMask s.cfg cmd = enableMask t.cfg cmd
      rw [h.cfg]
    · show waitMask s.cfg cmd = waitMask t.cfg cmd
      rw [h.cfg]
  have h2 : ∀ {s t : State}, AgreeSetUp s t → AgreeSetUp (armAndFlush s) (armAndFlush t) := by
    intro s t h
    simp only [armAndFlush, h.cfg, h.irqen]
    exact (((h.write _ _).clearBits _ _).setBits _ _).write _ _
  have h3 : ∀ {s t : State}, AgreeSetUp s t → AgreeSetUp (issueCommand cmd s) (issueCommand cmd t) := by
    intro s t h
    have e : AgreeSetUp ((s.loadFifo s.tx).write s.cfg.aCommand cmd) ((t.loadFifo t.tx).write t.cfg.aCommand cmd) := by
      rw [h.cfg, h.tx]
      exact (h.loadFifo _).write _ _
    simp only [issueCommand]
    rw [e.cfg]
    split
    · exact e.setBits _ _
    · exact e
  have h4 : ∀ {s t : State}, AgreeSetUp s t → AgreePolled (pollIrq s) (pollIrq t) := by
    intro s t h
    exact h.pollIrqFrom
  have h5 : ∀ {s t : State}, AgreePolled s t → AgreePolled (stopSend s) (stopSend t) := by
    intro s t h
    simp only [stopSend, h.cfg]
    exact ⟨h.toAgreeSetUp.clearBits _ _, h.n, h.i⟩
  have h6 : ∀ {s t : State}, AgreePolled s t → AgreeSetUp (concludePlain cmd s) (concludePlain cmd t) := by
    intro s t h
    have he : s.answer s.cfg.aError = t.answer t.cfg.aError := by rw [h.toAgree.answer, h.cfg]
    have ho : transceiveOutcome s.regs.n s.regs.irqen (s.answer s.cfg.aError) =
        transceiveOutcome t.regs.n t.regs.irqen (t.answer t.cfg.aError) := by rw [he, h.n, h.irqen]
    have hd : AgreeSetUp (decideStatus s) (decideStatus t) := by
      refine ⟨⟨h.cfg, ?_⟩, h.tx, h.rx, h.irqen, h.wait, ?_, ?_, h.bitLen⟩
      · show (s.afterRead s.cfg.aError).port = (t.afterRead t.cfg.aError).port
        rw [h.toAgree.afterRead, h.cfg]
      · exact congrArg Prod.fst ho
      · exact congrArg Prod.snd ho
    have hr : ∀ {s t : State}, AgreeSetUp s t → AgreeSetUp (receive s) (receive t) := by
      intro s t h
      have hl : s.answer s.cfg.aFifoLevel = t.answer t.cfg.aFifoLevel := by rw [h.toAgree.answer, h.cfg]
      have a1 : Agree (s.afterRead s.cfg.aFifoLevel) (t.afterRead t.cfg.aFifoLevel) := ⟨h.cfg, by rw [h.toAgree.afterRead, h.cfg]⟩
      have hb : (s.afterRead s.cfg.aFifoLevel).answer s.cfg.aControl = (t.afterRead t.cfg.aFifoLevel).answer t.cfg.aControl := by
        rw [a1.answer, h.cfg]
      have a2 : Agree (sampleLengths s) (sampleLengths t) := by
        refine ⟨h.cfg, ?_⟩
        show ((s.afterRead s.cfg.aFifoLevel).afterRead s.cfg.aControl).port = ((t.afterRead t.cfg.aFifoLevel).afterRead t.cfg.aControl).port
        rw [a1.afterRead, h.cfg]
      have hlvl : (sampleLengths s).regs.lvl = (sampleLengths t).regs.lvl := hl
      have hbl : (sampleLengths s).regs.bitLen = (sampleLengths t).regs.bitLen := by
        show BitVec.ofInt 12 (answerBits (s.answer s.cfg.aFifoLevel) (lastBits ((s.afterRead s.cfg.aFifoLevel).answer s.cfg.aControl))) =
          BitVec.ofInt 12 (answerBits (t.answer t.cfg.aFifoLevel) (lastBits ((t.afterRead t.cfg.aFifoLevel).answer t.cfg.aControl)))
        rw [hl, hb]
      have hrx : (sampleLengths s).rx = (sampleLengths t).rx := h.rx
      obtain ⟨hd1, hd2⟩ := a2.drainFifo hrx (drainCount (sampleLengths s).regs.lvl)
      obtain ⟨-, -, -, -, -, hq, hg⟩ := (sampleLengths s).drainFifo_spec (drainCount (sampleLengths s).regs.lvl)
      obtain ⟨-, -, -, -, -, hq', hg'⟩ := (sampleLengths t).drainFifo_spec (drainCount (sampleLengths s).regs.lvl)
      simp only [receive]
      rw [← hlvl]
      exact ⟨hd1, by rw [hq.tx, hq'.tx]; exact h.tx, hd2, by rw [hg, hg']; exact h.irqen, by rw [hg, hg']; exact h.wait,
        by rw [hg, hg']; exact h.status, by rw [hg, hg']; exact h.cause, by rw [hg, hg']; exact hbl⟩
    simp only [concludePlain]
    rw [h.i]
    split
    · exact h.toAgreeSetUp
    · rw [hd.status, hd.cfg]
      split
      · exact hr hd
      · exact hd
  rw [transceive_eq, transceive_eq]
  exact h6 (h5 (h4 (h3 (h2 h1))))

theorem Agree.pollCrcLoop (h : Agree s t) (hi : s.regs.i = t.regs.i) (k : Nat) :
    Agree (Machine.pollCrcLoop k s) (Machine.pollCrcLoop k t) := by
  induction k generalizing s t with
  | zero => exact h
  | succ k ih =>
    have ha : s.answer s.cfg.aDivIrq = t.answer t.cfg.aDivIrq := by rw [h.answer, h.cfg]
    have hp : (s.afterRead s.cfg.aDivIrq).port = (t.afterRead t.cfg.aDivIrq).port := by rw [h.afterRead, h.cfg]
    have h' : Agree (pollCrcOnce s) (pollCrcOnce t) := ⟨h.cfg, hp⟩
    have hi' : (pollCrcOnce s).regs.i = (pollCrcOnce t).regs.i := by
      show s.regs.i - 1#11 = t.regs.i - 1#11
      rw [hi]
    have hn' : (pollCrcOnce s).regs.n = (pollCrcOnce t).regs.n := ha
    simp only [Machine.pollCrcLoop]
    rw [hi', hn', h'.cfg]
    split
    · exact h'
    · exact ih h' hi'

/-- `computeCRC` of the same bytes from states that agree gives the same pair. -/
theorem Agree.computeCrc (h : Agree s t) (bytes : List Byte) :
    Agree (Machine.computeCrc bytes s) (Machine.computeCrc bytes t) ∧
    crcSuffix (Machine.computeCrc bytes s) = crcSuffix (Machine.computeCrc bytes t) := by
  have h1 : Agree (startPlain ((s.withTx bytes).withRegs { s.regs with crcTo := false }))
      (startPlain ((t.withTx bytes).withRegs { t.regs with crcTo := false })) := by
    have e0 : ∀ {s t : State}, Agree s t → s.tx = t.tx → Agree (startPlain s) (startPlain t) := by
      intro s t h ht
      have e1 : Agree (s.clearBits s.cfg.aDivIrq s.cfg.mCrcDone) (t.clearBits t.cfg.aDivIrq t.cfg.mCrcDone) :=
        ⟨h.cfg, by rw [h.cfg]; exact h.clearBits _ _⟩
      have e2 : Agree ((s.clearBits s.cfg.aDivIrq s.cfg.mCrcDone).setBits s.cfg.aFifoLevel s.cfg.mFlush)
          ((t.clearBits t.cfg.aDivIrq t.cfg.mCrcDone).setBits t.cfg.aFifoLevel t.cfg.mFlush) :=
        ⟨h.cfg, by rw [h.cfg]; rw [h.cfg] at e1; exact e1.setBits _ _⟩
      have e3 := e2.loadFifo t.tx
      refine ⟨?_, ?_⟩
      · simp only [startPlain, State.write_cfg, State.setBits_tx, State.clearBits_tx, ht]
        exact e3.cfg
      · simp only [startPlain, State.setBits_tx, State.clearBits_tx, State.setBits_cfg, State.clearBits_cfg, ht]
        have := e3.write t.cfg.aCommand t.cfg.cmdCalcCrc
        rw [h.cfg] at this ⊢
        exact this
    exact e0 (s := (s.withTx bytes).withRegs _) (t := (t.withTx bytes).withRegs _) ⟨h.cfg, h.port⟩ rfl
  have h2 : ∀ {s t : State}, Agree s t → Agree (pollCrc s) (pollCrc t) := by
    intro s t h
    have := Agree.pollCrcLoop (s := s.withRegs { s.regs with i := BitVec.ofNat 11 crcBudget })
      (t := t.withRegs { t.regs with i := BitVec.ofNat 11 crcBudget }) ⟨h.cfg, h.port⟩ rfl crcBudget
    exact ⟨this.cfg, this.port⟩
  have h3 : ∀ {s t : State}, Agree s t → Agree (readCrc s) (readCrc t) ∧ crcSuffix (readCrc s) = crcSuffix (readCrc t) := by
    intro s t h
    have e1 : Agree (s.afterRead s.cfg.aCrcResultL) (t.afterRead t.cfg.aCrcResultL) := ⟨h.cfg, by rw [h.cfg]; exact h.afterRead _⟩
    refine ⟨⟨h.cfg, ?_⟩, ?_⟩
    · show ((s.afterRead s.cfg.aCrcResultL).afterRead s.cfg.aCrcResultH).port = ((t.afterRead t.cfg.aCrcResultL).afterRead t.cfg.aCrcResultH).port
      rw [e1.afterRead, h.cfg]
    · show [s.answer s.cfg.aCrcResultL, (s.afterRead s.cfg.aCrcResultL).answer s.cfg.aCrcResultH] =
        [t.answer t.cfg.aCrcResultL, (t.afterRead t.cfg.aCrcResultL).answer t.cfg.aCrcResultH]
      rw [h.answer, e1.answer, h.cfg]
  rw [computeCrc_eq, computeCrc_eq]
  exact h3 (h2 h1)

theorem AgreeSetUp.raise (h : AgreeSetUp s t) (st : Status) (c : Cause) : AgreeSetUp (s.raise st c) (t.raise st c) :=
  ⟨⟨h.cfg, h.port⟩, h.tx, h.rx, h.irqen, h.wait, rfl, rfl, h.bitLen⟩

theorem Agree.finish (h : Agree s t) (r r' : Reply) : Agree (s.finish r) (t.finish r') := ⟨h.cfg, h.port⟩

theorem AgreeSetUp.demoteUnless (h : AgreeSetUp s t) {test test' : Bool} (ht : test = test') (st : Status) (c : Cause) :
    AgreeSetUp (s.demoteUnless test st c) (t.demoteUnless test' st c) := by
  subst ht
  unfold State.demoteUnless
  rw [h.status]
  split
  · exact ⟨⟨h.cfg, h.port⟩, h.tx, h.rx, h.irqen, h.wait, rfl, rfl, h.bitLen⟩
  · exact h

theorem Agree.requestPresence (h : Agree s t) : AgreeSetUp (Machine.requestPresence s) (Machine.requestPresence t) := by
  have e : Agree (s.write s.cfg.aBitFraming s.cfg.framingShort) (t.write t.cfg.aBitFraming t.cfg.framingShort) :=
    ⟨h.cfg, by rw [h.cfg]; exact h.write _ _⟩
  have g := e.transceive t.cfg.cmdTransceive (requestFrame t.cfg)
  simp only [requestPresence_eq]
  rw [h.cfg] at g ⊢
  exact g.demoteUnless (by rw [g.bitLen]) _ _

theorem Agree.resolveUid (h : Agree s t) : AgreeSetUp (Machine.resolveUid s) (Machine.resolveUid t) := by
  have e : Agree (s.write s.cfg.aBitFraming s.cfg.framingByte) (t.write t.cfg.aBitFraming t.cfg.framingByte) :=
    ⟨h.cfg, by rw [h.cfg]; exact h.write _ _⟩
  have g := e.transceive t.cfg.cmdTransceive (anticollisionFrame t.cfg .one)
  simp only [resolveUid_eq]
  rw [h.cfg] at g ⊢
  have g' := g.demoteUnless (test := (Machine.transceive t.cfg.cmdTransceive (anticollisionFrame t.cfg .one)
    (s.write t.cfg.aBitFraming t.cfg.framingByte)).rx.length == uidRespBytes) (by rw [g.rx]) .error .lengthMismatch
  exact g'.demoteUnless (by rw [g'.rx]) _ _

theorem Agree.exchangeWithCrc (h : Agree s t) (frame : List Byte) :
    AgreeSetUp (Machine.exchangeWithCrc frame s) (Machine.exchangeWithCrc frame t) := by
  obtain ⟨e, he⟩ := h.computeCrc frame
  simp only [Machine.exchangeWithCrc]
  rw [he, e.cfg]
  exact e.transceive _ _

theorem Agree.selectCard (h : Agree s t) (id : List Byte) : AgreeSetUp (Machine.selectCard id s) (Machine.selectCard id t) := by
  have g := h.exchangeWithCrc (selectFrame t.cfg id)
  simp only [selectCard_eq]
  rw [h.cfg]
  exact g.demoteUnless (by rw [g.bitLen]) _ _

theorem AgreeSetUp.selectAck (h : AgreeSetUp s t) : Machine.selectAck s = Machine.selectAck t := by
  unfold Machine.selectAck
  rw [h.rx, h.status, h.bitLen]

theorem Agree.authenticate (h : Agree s t) (id : List Byte) (slot : Slot) (block : Byte) (key : List Byte) :
    AgreeSetUp (Machine.authenticate id slot block key s) (Machine.authenticate id slot block key t) := by
  have g := h.transceive t.cfg.cmdAuthent (authFrame t.cfg slot block key (id.take 4))
  simp only [authenticate_eq, authenticateCommand_eq]
  rw [h.cfg]
  generalize Machine.transceive t.cfg.cmdAuthent (authFrame t.cfg slot block key (id.take 4)) s = a at g
  generalize Machine.transceive t.cfg.cmdAuthent (authFrame t.cfg slot block key (id.take 4)) t = b at g
  have hs : a.answer a.cfg.aStatus2 = b.answer b.cfg.aStatus2 := by rw [g.toAgree.answer, g.cfg]
  have e : AgreeSetUp ((a.afterRead a.cfg.aStatus2).withRegs { a.regs with s2 := a.answer a.cfg.aStatus2 })
      ((b.afterRead b.cfg.aStatus2).withRegs { b.regs with s2 := b.answer b.cfg.aStatus2 }) := by
    refine ⟨⟨g.cfg, ?_⟩, g.tx, g.rx, g.irqen, g.wait, g.status, g.cause, g.bitLen⟩
    rw [State.withRegs_port, State.withRegs_port, g.cfg]
    exact g.toAgree.afterRead _
  refine e.demoteUnless ?_ _ _
  show anyBit _ a.cfg.mCrypto1On = anyBit _ b.cfg.mCrypto1On
  rw [hs, g.cfg]

theorem Agree.stopCrypto (h : Agree s t) : Agree (Machine.stopCrypto s) (Machine.stopCrypto t) := by
  simp only [stopCrypto_eq]
  rw [h.cfg]
  exact ⟨h.cfg, h.clearBits _ _⟩

theorem Agree.authenticateSector (h : Agree s t) (id : List Byte) (slot : Slot) (block : Byte) (key : List Byte) :
    AgreeSetUp (Machine.authenticateSector id slot block key s) (Machine.authenticateSector id slot block key t) := by
  have g := h.selectCard id
  simp only [authenticateSector_eq]
  rw [g.selectAck]
  split
  · exact g.raise _ _
  · exact g.toAgree.authenticate id slot block key

theorem Agree.readBlock (h : Agree s t) (block : Byte) : AgreeSetUp (Machine.readBlock block s) (Machine.readBlock block t) := by
  have g := h.exchangeWithCrc (readFrame t.cfg block)
  simp only [readBlock_eq]
  rw [h.cfg]
  exact g.demoteUnless (by rw [g.rx]) _ _

theorem AgreeSetUp.blockRead (h : AgreeSetUp s t) : Machine.blockRead s = Machine.blockRead t := by
  unfold Machine.blockRead
  rw [h.rx, h.status]

theorem AgreeSetUp.failWrite (h : AgreeSetUp s t) : AgreeSetUp (Machine.failWrite s) (Machine.failWrite t) := by
  refine ⟨⟨h.cfg, h.port⟩, h.tx, h.rx, h.irqen, h.wait, rfl, ?_, h.bitLen⟩
  show (if s.regs.status = .ok then Cause.ackMismatch else s.regs.cause) = if t.regs.status = .ok then Cause.ackMismatch else t.regs.cause
  rw [h.status, h.cause]

theorem AgreeSetUp.isAcked (h : AgreeSetUp s t) : s.isAcked = t.isAcked := by
  unfold State.isAcked
  rw [h.rx, h.status, h.bitLen]

theorem Agree.writeBlock (h : Agree s t) (block : Byte) (data : List Byte) :
    AgreeSetUp (Machine.writeBlock block data s) (Machine.writeBlock block data t) := by
  have g := h.exchangeWithCrc (writeFrame t.cfg block)
  have g' := g.toAgree.exchangeWithCrc data
  simp only [writeBlock_eq]
  rw [h.cfg, g.isAcked, g'.isAcked]
  split
  · split
    · exact g'
    · exact g'.failWrite
  · exact g.failWrite

theorem Agree.readBlocks (h : Agree s t) (blocks out : List Byte) :
    (Machine.readBlocks blocks out s).1 = (Machine.readBlocks blocks out t).1 ∧
    Agree (Machine.readBlocks blocks out s).2 (Machine.readBlocks blocks out t).2 := by
  induction blocks generalizing s t out with
  | nil => exact ⟨rfl, h⟩
  | cons b bs ih =>
    have g := h.readBlock b
    simp only [Machine.readBlocks]
    rw [g.blockRead]
    exact ih g.toAgree _

theorem Agree.readSector (h : Agree s t) (id : List Byte) (slot : Slot) (base : Byte) (key : List Byte) :
    (Machine.readSector id slot base key s).1 = (Machine.readSector id slot base key t).1 ∧
    Agree (Machine.readSector id slot base key s).2 (Machine.readSector id slot base key t).2 := by
  have g := h.authenticateSector id slot (base + 3#8) key
  simp only [readSector_eq]
  rw [g.status]
  split
  · obtain ⟨e1, e2⟩ := g.toAgree.readBlocks [base, base + 1#8, base + 2#8] []
    exact ⟨e1, e2.stopCrypto⟩
  · exact ⟨rfl, g.toAgree.stopCrypto⟩

/-- An attempt of POLL from states that agree. -/
theorem Agree.pollAttempt (h : Agree s t) : Agree (Machine.pollAttempt s) (Machine.pollAttempt t) ∧
    (Machine.pollAttempt s).reply = (Machine.pollAttempt t).reply ∧ (Machine.pollAttempt s).pc = (Machine.pollAttempt t).pc := by
  have hr : ∀ {s t : State}, Agree s t →
      Agree (retryOrEnd s) (retryOrEnd t) ∧ (retryOrEnd s).reply = (retryOrEnd t).reply ∧ (retryOrEnd s).pc = (retryOrEnd t).pc := by
    intro s t h
    simp only [retryOrEnd]
    rw [h.port]
    split
    · exact ⟨⟨h.cfg, rfl⟩, rfl, rfl⟩
    · exact ⟨⟨h.cfg, rfl⟩, rfl, rfl⟩
  have g := h.requestPresence
  have g' := g.toAgree.resolveUid
  simp only [pollAttempt_eq]
  rw [g.status, g'.status]
  split
  · split
    · refine ⟨g'.toAgree.finish _ _, ?_, ?_⟩
      · rw [State.finish_reply, State.finish_reply, g'.rx]
      · rw [State.finish_pc, State.finish_pc]
    · exact hr g'.toAgree
  · exact hr g.toAgree

end Sys2Proof.Machine
end

