-- ==== Sys2Proof/Laws/PerInstr.lean ====
section
/-! SUPPORT. One statement per operation, about its encoding: the first byte is the one spec/opcode_table.json selects it by, and an operation
with operands in range has as many bytes as the table gives it (30_encoding.md R91, R92, R97 to R102, R106). -/
set_option Elab.async false

namespace Sys2Proof.Laws.Codec

/-- The selecting byte of each row: the `op` of R91, and for the chip commands and the card frames the parameter the row names (R92, R94). -/
def selector (cfg : Config) : Instr → Byte
  | .rdreg _ => 0x00#8
  | .wrreg _ _ => 0x01#8
  | .setb _ _ => 0x02#8
  | .clrb _ _ => 0x03#8
  | .rstp => 0x04#8
  | .xcv _ _ => 0x10#8
  | .authcmd _ => 0x11#8
  | .reqp => 0x20#8
  | .acoll => 0x21#8
  | .uidchk _ => 0x22#8
  | .poll => 0x23#8
  | .select _ => 0x30#8
  | .auth _ _ _ _ => 0x31#8
  | .stopc => 0x32#8
  | .authsec _ _ _ _ => 0x33#8
  | .rdblk _ => 0x40#8
  | .wrblk _ _ => 0x41#8
  | .rdsec _ _ _ _ => 0x42#8
  | .crc _ => 0x50#8
  | .acenc _ _ _ _ _ => 0x60#8
  | .acdec _ _ _ _ => 0x61#8
  | .acsetb _ _ _ _ _ _ _ _ => 0x62#8
  | .acchk _ _ _ _ => 0x63#8
  | .trpack _ _ _ _ _ _ _ => 0x64#8
  | .trunpk _ => 0x65#8
  | .idle => cfg.cmdIdle
  | .calccrc => cfg.cmdCalcCrc
  | .transceive => cfg.cmdTransceive
  | .authent => cfg.cmdAuthent
  | .request => cfg.kRequest
  | .anticollision _ => cfg.kAnticoll
  | .selectCard _ => cfg.kSelect
  | .authA _ _ _ => cfg.kAuthA
  | .authB _ _ _ => cfg.kAuthB
  | .read _ => cfg.kRead
  | .write _ => cfg.kWrite

/-- The length in bytes: the column `length_bytes` of the table; one byte for a chip command (R92); for a card frame the bytes before its CRC
suffix (R97 to R102). -/
def bytes : Instr → Nat
  | .rdreg _ => 2
  | .wrreg _ _ => 3
  | .setb _ _ => 3
  | .clrb _ _ => 3
  | .rstp => 1
  | .xcv _ out => 3 + out.length
  | .authcmd out => 2 + out.length
  | .reqp => 1
  | .acoll => 1
  | .uidchk raw => 2 + raw.length
  | .poll => 1
  | .select _ => 6
  | .auth _ _ _ _ => 14
  | .stopc => 1
  | .authsec _ _ _ _ => 14
  | .rdblk _ => 2
  | .wrblk _ _ => 18
  | .rdsec _ _ _ _ => 14
  | .crc bytes => 2 + bytes.length
  | .acenc _ _ _ _ _ => 6
  | .acdec _ _ _ _ => 5
  | .acsetb _ _ _ _ _ _ _ _ => 9
  | .acchk _ _ _ _ => 5
  | .trpack _ _ _ _ _ _ _ => 18
  | .trunpk _ => 17
  | .idle => 1
  | .calccrc => 1
  | .transceive => 1
  | .authent => 1
  | .request => 1
  | .anticollision _ => 2
  | .selectCard _ => 7
  | .authA _ _ _ => 12
  | .authB _ _ _ => 12
  | .read _ => 2
  | .write _ => 2

/-- What is said of each operation, whatever the configuration. -/
def Statement (i : Instr) : Prop :=
  ∀ cfg : Config, (encode cfg i).head? = some (selector cfg i) ∧ (i.InRange → (encode cfg i).length = bytes i)

theorem rdreg (addr : Byte) : Statement (.rdreg addr) :=
  fun _ => ⟨rfl, fun _ => rfl⟩

theorem wrreg (addr value : Byte) : Statement (.wrreg addr value) :=
  fun _ => ⟨rfl, fun _ => rfl⟩

theorem setb (addr mask : Byte) : Statement (.setb addr mask) :=
  fun _ => ⟨rfl, fun _ => rfl⟩

theorem clrb (addr mask : Byte) : Statement (.clrb addr mask) :=
  fun _ => ⟨rfl, fun _ => rfl⟩

theorem rstp : Statement .rstp :=
  fun _ => ⟨rfl, fun _ => rfl⟩

theorem xcv (cmd : Byte) (out : List Byte) : Statement (.xcv cmd out) :=
  fun _ => ⟨rfl, fun _ => by simp [encode, counted, Codec.bytes]; try omega⟩

theorem authcmd (out : List Byte) : Statement (.authcmd out) :=
  fun _ => ⟨rfl, fun _ => by simp [encode, counted, Codec.bytes]; try omega⟩

theorem reqp : Statement .reqp :=
  fun _ => ⟨rfl, fun _ => rfl⟩

theorem acoll : Statement .acoll :=
  fun _ => ⟨rfl, fun _ => rfl⟩

theorem uidchk (raw : List Byte) : Statement (.uidchk raw) :=
  fun _ => ⟨rfl, fun _ => by simp [encode, counted, Codec.bytes]; try omega⟩

theorem poll : Statement .poll :=
  fun _ => ⟨rfl, fun _ => rfl⟩

theorem select (id : List Byte) : Statement (.select id) :=
  fun _ => ⟨rfl, fun h => by obtain ⟨a, b, c, d, rfl⟩ := h; rfl⟩

theorem auth (id : List Byte) (slot blockAddr : Byte) (key : List Byte) : Statement (.auth id slot blockAddr key) :=
  fun _ => ⟨rfl, fun h => by obtain ⟨⟨a, b, c, d, rfl⟩, _, hk⟩ := h; simp [encode, bytes, hk]⟩

theorem stopc : Statement .stopc :=
  fun _ => ⟨rfl, fun _ => rfl⟩

theorem authsec (id : List Byte) (slot blockAddr : Byte) (key : List Byte) : Statement (.authsec id slot blockAddr key) :=
  fun _ => ⟨rfl, fun h => by obtain ⟨⟨a, b, c, d, rfl⟩, _, hk⟩ := h; simp [encode, bytes, hk]⟩

theorem rdblk (blockAddr : Byte) : Statement (.rdblk blockAddr) :=
  fun _ => ⟨rfl, fun _ => rfl⟩

theorem wrblk (blockAddr : Byte) (data : List Byte) : Statement (.wrblk blockAddr data) :=
  fun _ => ⟨rfl, fun h => by simp only [Instr.InRange] at h; simp [encode, Codec.bytes, h]⟩

theorem rdsec (id : List Byte) (slot base : Byte) (key : List Byte) : Statement (.rdsec id slot base key) :=
  fun _ => ⟨rfl, fun h => by obtain ⟨⟨a, b, c, d, rfl⟩, _, hk, _⟩ := h; simp [encode, bytes, hk]⟩

theorem crc (bytes : List Byte) : Statement (.crc bytes) :=
  fun _ => ⟨rfl, fun _ => by simp [encode, counted, Codec.bytes]; try omega⟩

theorem acenc (c0 c1 c2 c3 user : Byte) : Statement (.acenc c0 c1 c2 c3 user) :=
  fun _ => ⟨rfl, fun _ => rfl⟩

theorem acdec (b0 b1 b2 b3 : Byte) : Statement (.acdec b0 b1 b2 b3) :=
  fun _ => ⟨rfl, fun _ => rfl⟩

theorem acsetb (c0 c1 c2 c3 user block bitIndex value : Byte) : Statement (.acsetb c0 c1 c2 c3 user block bitIndex value) :=
  fun _ => ⟨rfl, fun _ => rfl⟩

theorem acchk (b0 b1 b2 b3 : Byte) : Statement (.acchk b0 b1 b2 b3) :=
  fun _ => ⟨rfl, fun _ => rfl⟩

theorem trpack (keyA : List Byte) (c0 c1 c2 c3 user : Byte) (keyB : List Byte) : Statement (.trpack keyA c0 c1 c2 c3 user keyB) :=
  fun _ => ⟨rfl, fun h => by obtain ⟨ha, _, hb⟩ := h; simp [encode, bytes, ha, hb]⟩

theorem trunpk (bytes : List Byte) : Statement (.trunpk bytes) :=
  fun _ => ⟨rfl, fun h => by simp only [Instr.InRange] at h; simp [encode, Codec.bytes, h]⟩

theorem idle : Statement .idle :=
  fun _ => ⟨rfl, fun _ => rfl⟩

theorem calccrc : Statement .calccrc :=
  fun _ => ⟨rfl, fun _ => rfl⟩

theorem transceive : Statement .transceive :=
  fun _ => ⟨rfl, fun _ => rfl⟩

theorem authent : Statement .authent :=
  fun _ => ⟨rfl, fun _ => rfl⟩

theorem request : Statement .request :=
  fun _ => ⟨rfl, fun _ => rfl⟩

theorem anticollision (level : CascadeLevel) : Statement (.anticollision level) :=
  fun _ => ⟨rfl, fun _ => rfl⟩

theorem selectCard (id : List Byte) : Statement (.selectCard id) :=
  fun _ => ⟨rfl, fun h => by obtain ⟨a, b, c, d, rfl⟩ := h; rfl⟩

theorem authA (blockAddr : Byte) (key uid : List Byte) : Statement (.authA blockAddr key uid) :=
  fun _ => ⟨rfl, fun h => by obtain ⟨hk, hu⟩ := h; simp [encode, bytes, hk, hu]⟩

theorem authB (blockAddr : Byte) (key uid : List Byte) : Statement (.authB blockAddr key uid) :=
  fun _ => ⟨rfl, fun h => by obtain ⟨hk, hu⟩ := h; simp [encode, bytes, hk, hu]⟩

theorem read (blockAddr : Byte) : Statement (.read blockAddr) :=
  fun _ => ⟨rfl, fun _ => rfl⟩

theorem write (blockAddr : Byte) : Statement (.write blockAddr) :=
  fun _ => ⟨rfl, fun _ => rfl⟩

end Sys2Proof.Laws.Codec
end

