-- ==== Sys2Proof/Tests/Slice0.lean ====
section
/-! SUPPORT. The model's own tests: words written out from the tables of 30_encoding.md, single steps on the scripts of
95_test_vectors.md, an ill-formed request for every operand test, and for each statement with hypotheses a case that meets them. -/
set_option Elab.async false

namespace Sys2Proof.Tests

open Sys2Proof.Machine

/-- The reset state with the answers to the next reads scripted. -/
def scripted (answers : List Byte) : State := { State.reset with port := { State.reset.port with answers := answers } }

/-- The state an operation leads to, if it is a next state. -/
def after (i : Instr) (s : State) : Option State :=
  match exec i s with
  | .next t => some t
  | _ => none

/-- What a test looks at: the reply, the cause and the number of transactions. -/
def seen (i : Instr) (answers : List Byte) : Option (Reply × Cause × Nat) :=
  (after i (scripted answers)).map fun t => (t.reply, t.regs.cause, transactions t.port.trace)

/-- The bytes written to the chip's FIFO, in order. -/
def loaded : List Event → List Byte
  | [] => []
  | .write a v :: es => if a = 0x09#6 then v :: loaded es else loaded es
  | _ :: es => loaded es

/-- The identifier of 95_test_vectors.md. -/
def id5 : List Byte := [0xDE#8, 0xAD#8, 0xBE#8, 0xEF#8, 0x22#8]
def keyF : List Byte := List.replicate 6 0xFF#8
def bytes16 : List Byte :=
  [0x00#8, 0x01#8, 0x02#8, 0x03#8, 0x04#8, 0x05#8, 0x06#8, 0x07#8, 0x08#8, 0x09#8, 0x0A#8, 0x0B#8, 0x0C#8, 0x0D#8, 0x0E#8, 0x0F#8]

/-- A state inside POLL, with requests presented. -/
def polling (inbox : List Request) : State := { State.reset with pc := .poll, inbox := inbox }
def idleWith (inbox : List Request) : State := { State.reset with inbox := inbox }

/-- The chip after reset with BOOT_CONFIG applied (R268). -/
def booted : Chip :=
  Config.default.bootConfig.foldl (fun c e => match e with
    | .write a v => c.put Config.default a v
    | .set a m => c.put Config.default a (c.get Config.default a ||| m)) Chip.reset

/-- The state before request 4 of P4: the reference environment of R80 with BOOT_CONFIG applied, REQUEST and ANTICOLLISION answered. -/
def reference : State :=
  { State.reset with
    port := { State.reset.port with kind := .reference, chip := booted, card := { Card.reset with stage := .ready true } } }

/-- A configuration whose command codes are not distinct. -/
def badConfig : State := { State.reset with cfg := { Config.default with cmdIdle := 0x03#8 } }

/-! Words written out from the encoding tables (R91, R92, R97 to R102) decode to their operations. -/

theorem test_decode_rdreg : decode Config.default .host [0x00#8, 0x04#8] = .ok (.rdreg 0x04#8) := by decide

theorem test_decode_wrreg : decode Config.default .host [0x01#8, 0x2A#8, 0x8D#8] = .ok (.wrreg 0x2A#8 0x8D#8) := by decide

theorem test_decode_setb : decode Config.default .host [0x02#8, 0x0A#8, 0x80#8] = .ok (.setb 0x0A#8 0x80#8) := by decide

theorem test_decode_clrb : decode Config.default .host [0x03#8, 0x08#8, 0x08#8] = .ok (.clrb 0x08#8 0x08#8) := by decide

theorem test_decode_rstp : decode Config.default .host [0x04#8] = .ok .rstp := by decide

theorem test_decode_xcv : decode Config.default .host [0x10#8, 0x0C#8, 0x01#8, 0x26#8] = .ok (.xcv 0x0C#8 [0x26#8]) := by decide

theorem test_decode_authcmd : decode Config.default .host [0x11#8, 0x02#8, 0x60#8, 0x07#8] = .ok (.authcmd [0x60#8, 0x07#8]) := by decide

theorem test_decode_reqp : decode Config.default .host [0x20#8] = .ok .reqp := by decide

theorem test_decode_acoll : decode Config.default .host [0x21#8] = .ok .acoll := by decide

theorem test_decode_uidchk : decode Config.default .host [0x22#8, 0x05#8, 0x12#8, 0x34#8, 0x56#8, 0x78#8, 0x08#8] = .ok (.uidchk [0x12#8, 0x34#8, 0x56#8, 0x78#8, 0x08#8]) := by decide

theorem test_decode_poll : decode Config.default .host [0x23#8] = .ok .poll := by decide

theorem test_decode_select : decode Config.default .host [0x30#8, 0xDE#8, 0xAD#8, 0xBE#8, 0xEF#8, 0x22#8] = .ok (.select [0xDE#8, 0xAD#8, 0xBE#8, 0xEF#8, 0x22#8]) := by decide

theorem test_decode_auth : decode Config.default .host [0x31#8, 0xDE#8, 0xAD#8, 0xBE#8, 0xEF#8, 0x22#8, 0x00#8, 0x07#8, 0xFF#8, 0xFF#8, 0xFF#8, 0xFF#8, 0xFF#8, 0xFF#8] = .ok (.auth [0xDE#8, 0xAD#8, 0xBE#8, 0xEF#8, 0x22#8] 0x00#8 0x07#8 [0xFF#8, 0xFF#8, 0xFF#8, 0xFF#8, 0xFF#8, 0xFF#8]) := by decide

theorem test_decode_stopc : decode Config.default .host [0x32#8] = .ok .stopc := by decide

theorem test_decode_authsec : decode Config.default .host [0x33#8, 0xDE#8, 0xAD#8, 0xBE#8, 0xEF#8, 0x22#8, 0x01#8, 0x3F#8, 0xA0#8, 0xA1#8, 0xA2#8, 0xA3#8, 0xA4#8, 0xA5#8] = .ok (.authsec [0xDE#8, 0xAD#8, 0xBE#8, 0xEF#8, 0x22#8] 0x01#8 0x3F#8 [0xA0#8, 0xA1#8, 0xA2#8, 0xA3#8, 0xA4#8, 0xA5#8]) := by decide

theorem test_decode_rdblk : decode Config.default .host [0x40#8, 0xFF#8] = .ok (.rdblk 0xFF#8) := by decide

theorem test_decode_wrblk : decode Config.default .host [0x41#8, 0x04#8, 0xC0#8, 0xC1#8, 0xC2#8, 0xC3#8, 0xC4#8, 0xC5#8, 0xC6#8, 0xC7#8, 0xC8#8, 0xC9#8, 0xCA#8, 0xCB#8, 0xCC#8, 0xCD#8, 0xCE#8, 0xCF#8] = .ok (.wrblk 0x04#8 [0xC0#8, 0xC1#8, 0xC2#8, 0xC3#8, 0xC4#8, 0xC5#8, 0xC6#8, 0xC7#8, 0xC8#8, 0xC9#8, 0xCA#8, 0xCB#8, 0xCC#8, 0xCD#8, 0xCE#8, 0xCF#8]) := by decide

theorem test_decode_rdsec : decode Config.default .host [0x42#8, 0xDE#8, 0xAD#8, 0xBE#8, 0xEF#8, 0x22#8, 0x00#8, 0xFC#8, 0xFF#8, 0xFF#8, 0xFF#8, 0xFF#8, 0xFF#8, 0xFF#8] = .ok (.rdsec [0xDE#8, 0xAD#8, 0xBE#8, 0xEF#8, 0x22#8] 0x00#8 0xFC#8 [0xFF#8, 0xFF#8, 0xFF#8, 0xFF#8, 0xFF#8, 0xFF#8]) := by decide

theorem test_decode_crc : decode Config.default .host [0x50#8, 0x02#8, 0x30#8, 0x04#8] = .ok (.crc [0x30#8, 0x04#8]) := by decide

theorem test_decode_acenc : decode Config.default .host [0x60#8, 0x00#8, 0x00#8, 0x00#8, 0x01#8, 0x00#8] = .ok (.acenc 0x00#8 0x00#8 0x00#8 0x01#8 0x00#8) := by decide

theorem test_decode_acdec : decode Config.default .host [0x61#8, 0x7E#8, 0x17#8, 0x89#8, 0x69#8] = .ok (.acdec 0x7E#8 0x17#8 0x89#8 0x69#8) := by decide

theorem test_decode_acsetb : decode Config.default .host [0x62#8, 0x07#8, 0x07#8, 0x07#8, 0x07#8, 0xFF#8, 0x01#8, 0x03#8, 0x00#8] = .ok (.acsetb 0x07#8 0x07#8 0x07#8 0x07#8 0xFF#8 0x01#8 0x03#8 0x00#8) := by decide

theorem test_decode_acchk : decode Config.default .host [0x63#8, 0x7E#8, 0x17#8, 0x88#8, 0x69#8] = .ok (.acchk 0x7E#8 0x17#8 0x88#8 0x69#8) := by decide

theorem test_decode_trpack : decode Config.default .host [0x64#8, 0xA0#8, 0xA1#8, 0xA2#8, 0xA3#8, 0xA4#8, 0xA5#8, 0x04#8, 0x00#8, 0x00#8, 0x03#8, 0x69#8, 0xB0#8, 0xB1#8, 0xB2#8, 0xB3#8, 0xB4#8, 0xB5#8] = .ok (.trpack [0xA0#8, 0xA1#8, 0xA2#8, 0xA3#8, 0xA4#8, 0xA5#8] 0x04#8 0x00#8 0x00#8 0x03#8 0x69#8 [0xB0#8, 0xB1#8, 0xB2#8, 0xB3#8, 0xB4#8, 0xB5#8]) := by decide

theorem test_decode_trunpk : decode Config.default .host [0x65#8, 0xA0#8, 0xA1#8, 0xA2#8, 0xA3#8, 0xA4#8, 0xA5#8, 0x7E#8, 0x17#8, 0x88#8, 0x69#8, 0xB0#8, 0xB1#8, 0xB2#8, 0xB3#8, 0xB4#8, 0xB5#8] = .ok (.trunpk [0xA0#8, 0xA1#8, 0xA2#8, 0xA3#8, 0xA4#8, 0xA5#8, 0x7E#8, 0x17#8, 0x88#8, 0x69#8, 0xB0#8, 0xB1#8, 0xB2#8, 0xB3#8, 0xB4#8, 0xB5#8]) := by decide

theorem test_decode_idle : decode Config.default .chip [0x00#8] = .ok .idle := by decide

theorem test_decode_calccrc : decode Config.default .chip [0x03#8] = .ok .calccrc := by decide

theorem test_decode_transceive : decode Config.default .chip [0x0C#8] = .ok .transceive := by decide

theorem test_decode_authent : decode Config.default .chip [0x0E#8] = .ok .authent := by decide

theorem test_decode_request : decode Config.default .card [0x26#8] = .ok .request := by decide

theorem test_decode_anticollision : decode Config.default .card [0x93#8, 0x20#8] = .ok (.anticollision .one) := by decide

theorem test_decode_select_card : decode Config.default .card [0x93#8, 0x70#8, 0xDE#8, 0xAD#8, 0xBE#8, 0xEF#8, 0x22#8] = .ok (.selectCard [0xDE#8, 0xAD#8, 0xBE#8, 0xEF#8, 0x22#8]) := by decide

theorem test_decode_auth_a : decode Config.default .card [0x60#8, 0x07#8, 0xFF#8, 0xFF#8, 0xFF#8, 0xFF#8, 0xFF#8, 0xFF#8, 0xDE#8, 0xAD#8, 0xBE#8, 0xEF#8] = .ok (.authA 0x07#8 [0xFF#8, 0xFF#8, 0xFF#8, 0xFF#8, 0xFF#8, 0xFF#8] [0xDE#8, 0xAD#8, 0xBE#8, 0xEF#8]) := by decide

theorem test_decode_auth_b : decode Config.default .card [0x61#8, 0x3F#8, 0xFF#8, 0xFF#8, 0xFF#8, 0xFF#8, 0xFF#8, 0xFF#8, 0xDE#8, 0xAD#8, 0xBE#8, 0xEF#8] = .ok (.authB 0x3F#8 [0xFF#8, 0xFF#8, 0xFF#8, 0xFF#8, 0xFF#8, 0xFF#8] [0xDE#8, 0xAD#8, 0xBE#8, 0xEF#8]) := by decide

theorem test_decode_read : decode Config.default .card [0x30#8, 0x04#8] = .ok (.read 0x04#8) := by decide

theorem test_decode_write : decode Config.default .card [0xA0#8, 0x08#8] = .ok (.write 0x08#8) := by decide

/-- 95_test_vectors.md section 2.9: unknown codes and wrong lengths decode to nothing. -/
theorem test_decode_rejects :
    (decode Config.default .host [0x10#8, 0x0C#8, 0x02#8, 0x26#8], decode Config.default .host [0x02#8, 0x0A#8],
     decode Config.default .host [0x24#8], decode Config.default .host [0xFF#8], decode Config.default .host [0x20#8, 0x00#8]) =
    (.error .badLength, .error .badLength, .error .unknownOp, .error .unknownOp, .error .badLength) := by decide

/-- A table word of RDREG and of a card frame: the byte of the table, the operand bytes above it zero. -/
theorem test_table_words :
    (decodeTableWord 8 0x00, decodeTableWord 8 0x26, decodeTableWord 8 0x0C, decodeTableWord 8 0xA0, decodeTableWord 8 0x93) =
    (some (.rdreg 0x00#8), some .request, some .transceive, some (.write 0x00#8), some (.anticollision .one)) := by decide +kernel

/-- The next step after placing a table word runs it: STOPC's two transactions. -/
theorem test_fetch_word :
    (match step ((scripted [0xFF#8]).withFetchWord 8 0x32) with | .next t => t.port.trace | _ => []) =
    [.read 0x08#6 0xFF#8, .write 0x08#6 0xF7#8] := by decide +kernel

/-! Well-formedness: each operand test refuses an ill-formed request (R61, R75, R76, R100, R116, R163, R194, R221). -/

theorem test_illformed_address : refusal (.rdreg 0x40#8) = some .badAddress := by decide +kernel

theorem test_illformed_long : refusal (.xcv 0x0C#8 (List.replicate 65 0x00#8)) = some .tooLong := by decide +kernel

theorem test_illformed_uidchk_length : refusal (.uidchk (List.replicate 256 0x00#8)) = some .badLength := by decide +kernel

theorem test_illformed_identifier : refusal (.select [0xDE#8, 0xAD#8, 0xBE#8, 0xEF#8]) = some .badIdentifier := by decide +kernel

theorem test_illformed_identifier8 : refusal (.select [0x04#8, 0x11#8, 0x22#8, 0x33#8, 0x44#8, 0x55#8, 0x66#8, 0x73#8]) = some .badIdentifier := by decide +kernel

theorem test_illformed_checksum : refusal (.select [0xDE#8, 0xAD#8, 0xBE#8, 0xEF#8, 0x23#8]) = some .badChecksum := by decide +kernel

theorem test_illformed_slot : refusal (.auth id5 0x02#8 0x07#8 keyF) = some .badSlot := by decide +kernel

theorem test_illformed_key : refusal (.auth id5 0x01#8 0x07#8 []) = some .badKey := by decide +kernel

theorem test_illformed_data : refusal (.wrblk 0x04#8 []) = some .badData := by decide +kernel

theorem test_illformed_base : refusal (.rdsec id5 0x00#8 0xFD#8 keyF) = some .badBase := by decide +kernel

theorem test_illformed_code : refusal (.acenc 0x08#8 0x00#8 0x00#8 0x00#8 0x00#8) = some .badCode := by decide +kernel

theorem test_illformed_block : refusal (.acsetb 0x00#8 0x00#8 0x00#8 0x01#8 0x00#8 0x04#8 0x01#8 0x01#8) = some .badBlock := by decide +kernel

theorem test_illformed_bit_index : refusal (.acsetb 0x00#8 0x00#8 0x00#8 0x01#8 0x00#8 0x00#8 0x00#8 0x01#8) = some .badBitIndex := by decide +kernel

theorem test_illformed_value : refusal (.acsetb 0x00#8 0x00#8 0x00#8 0x01#8 0x00#8 0x00#8 0x01#8 0x02#8) = some .badValue := by decide +kernel

theorem test_illformed_trunpk : refusal (.trunpk []) = some .badData := by decide +kernel

theorem test_illformed_auth_frame_uid : refusal (.authA 0x07#8 keyF id5) = some .badIdentifier := by decide +kernel

theorem test_illformed_config : badConfig.cfg.valid = false := by decide

/-- The bounds themselves are well-formed (RDSEC at 252: 95_test_vectors.md section 2.9). -/
theorem test_wellformed_bounds :
    (refusal (.rdreg 0x3F#8), refusal (.xcv 0x0C#8 (List.replicate 64 0x00#8)), refusal (.rdsec id5 0x01#8 0xFC#8 keyF),
     refusal (.acsetb 0x07#8 0x07#8 0x07#8 0x07#8 0xFF#8 0x03#8 0x03#8 0x01#8)) = (none, none, none, none) := by decide

/-! One step each, on the scripts of 95_test_vectors.md (its vector in the docstring). -/

/-- G2. -/
theorem test_rdreg :
    seen (.rdreg 0x3F#8) [0xAB#8] = some (.byte 0xAB#8, .none, 1) := by decide +kernel

/-- The wire bytes of G2 and G4. -/
theorem test_wire : (wireBytes (.read 0x3F#6 0xAB#8), wireBytes (.write 0x01#6 0x00#8)) = ([0xFE#8], [0x02#8, 0x00#8]) := by decide

/-- G5. -/
theorem test_wrreg :
    (after (.wrreg 0x2A#8 0x8D#8) (scripted [])).map (fun t => t.port.trace) = some [.write 0x2A#6 0x8D#8] := by decide +kernel

/-- G6. -/
theorem test_setb :
    (after (.setb 0x0A#8 0x80#8) (scripted [0x05#8])).map (fun t => t.port.trace) = some [.read 0x0A#6 0x05#8, .write 0x0A#6 0x85#8] := by decide +kernel

/-- G7: the write is made although nothing changes. -/
theorem test_setb_same :
    (after (.setb 0x0D#8 0x80#8) (scripted [0x87#8])).map (fun t => t.port.trace) = some [.read 0x0D#6 0x87#8, .write 0x0D#6 0x87#8] := by decide +kernel

/-- G10. -/
theorem test_clrb :
    (after (.clrb 0x04#8 0x80#8) (scripted [0xC5#8])).map (fun t => t.port.trace) = some [.read 0x04#6 0xC5#8, .write 0x04#6 0x45#8] := by decide +kernel

/-- G13. -/
theorem test_clrb_all :
    (after (.clrb 0x0D#8 0xFF#8) (scripted [0x87#8])).map (fun t => t.port.trace) = some [.read 0x0D#6 0x87#8, .write 0x0D#6 0x00#8] := by decide +kernel

/-- G14. -/
theorem test_rstp :
    (after .rstp (scripted [])).map (fun t => t.port.trace) = some [.line .low, .line .high] := by decide +kernel

/-- X5, its full trace: 0x44 does not end the loop, the timer bit does, level 0 drains one byte. -/
theorem test_xcv_trace :
    (after (.xcv 0x0C#8 [0x26#8]) (scripted [0x14#8, 0x00#8, 0x07#8, 0x44#8, 0x45#8, 0x87#8, 0x00#8, 0x00#8, 0x10#8, 0x00#8])).map
      (fun t => (t.reply, t.port.trace)) = some (.transceive .noTag [0x00#8] 0,
      [.write 0x02#6 0xF7#8, .read 0x04#6 0x14#8, .write 0x04#6 0x14#8, .read 0x0A#6 0x00#8, .write 0x0A#6 0x80#8, .write 0x01#6 0x00#8,
       .write 0x09#6 0x26#8, .write 0x01#6 0x0C#8, .read 0x0D#6 0x07#8, .write 0x0D#6 0x87#8, .read 0x04#6 0x44#8, .read 0x04#6 0x45#8,
       .read 0x0D#6 0x87#8, .write 0x0D#6 0x07#8, .read 0x06#6 0x00#8, .read 0x0A#6 0x00#8, .read 0x0C#6 0x10#8, .read 0x09#6 0x00#8]) := by
  decide +kernel

/-- X16: level 0, one valid bit: the smallest length. -/
theorem test_xcv_negative :
    seen (.xcv 0x0C#8 [0x26#8]) [0x14#8, 0x00#8, 0x07#8, 0x20#8, 0x87#8, 0x00#8, 0x00#8, 0x11#8, 0x5A#8] = some (.transceive .ok [0x5A#8] (-7), .none, 17) := by decide +kernel

/-- A1. -/
theorem test_authcmd :
    seen (.authcmd [0x60#8, 0x07#8, 0xFF#8, 0xFF#8, 0xFF#8, 0xFF#8, 0xFF#8, 0xFF#8, 0xDE#8, 0xAD#8, 0xBE#8, 0xEF#8]) [0x64#8, 0x00#8, 0x00#8, 0x00#8, 0x10#8, 0x00#8, 0x00#8] = some (.status .ok, .none, 25) := by decide +kernel

/-- A2: the timer bit, not enabled, is OK. -/
theorem test_authcmd_timer :
    seen (.authcmd [0x60#8, 0x07#8, 0xFF#8, 0xFF#8, 0xFF#8, 0xFF#8, 0xFF#8, 0xFF#8, 0xDE#8, 0xAD#8, 0xBE#8, 0xEF#8]) [0x14#8, 0x00#8, 0x01#8, 0x00#8, 0x00#8] = some (.status .ok, .none, 23) := by decide +kernel

/-- Q1. -/
theorem test_reqp :
    seen .reqp [0x14#8, 0x00#8, 0x07#8, 0x04#8, 0x64#8, 0x87#8, 0x00#8, 0x02#8, 0x10#8, 0x04#8, 0x00#8] = some (.status .ok, .none, 20) := by decide +kernel

/-- Q3: 15 bits. -/
theorem test_reqp_length :
    seen .reqp [0x14#8, 0x00#8, 0x07#8, 0x20#8, 0x87#8, 0x00#8, 0x02#8, 0x17#8, 0x04#8, 0x00#8] = some (.status .noTag, .lengthMismatch, 19) := by decide +kernel

/-- L7: the byte count is tested, not the bit length. -/
theorem test_acoll :
    seen .acoll [0x14#8, 0x00#8, 0x00#8, 0x20#8, 0x80#8, 0x00#8, 0x05#8, 0x13#8, 0xDE#8, 0xAD#8, 0xBE#8, 0xEF#8, 0x22#8] = some (.statusBytes .ok id5, .none, 23) := by decide +kernel

/-- L2. -/
theorem test_acoll_checksum :
    seen .acoll [0x14#8, 0x00#8, 0x00#8, 0x20#8, 0x80#8, 0x00#8, 0x05#8, 0x10#8, 0xDE#8, 0xAD#8, 0xBE#8, 0xEF#8, 0x23#8] = some (.statusBytes .error [0xDE#8, 0xAD#8, 0xBE#8, 0xEF#8, 0x23#8], .checksumMismatch, 23) := by decide +kernel

/-- U6. -/
theorem test_uidchk :
    seen (.uidchk [0x04#8, 0x11#8, 0x22#8, 0x33#8, 0x44#8, 0x55#8, 0x66#8, 0x73#8]) [] = some (.identifier [0x04#8, 0x11#8, 0x22#8, 0x33#8, 0x44#8, 0x55#8, 0x66#8, 0x73#8], .none, 0) := by decide +kernel

/-- U2. -/
theorem test_uidchk_fail :
    seen (.uidchk [0x12#8, 0x34#8, 0x56#8, 0x78#8, 0x09#8]) [] = some (.fail .checksumMismatch, .none, 0) := by decide +kernel

/-- P7, the attempt that succeeds. -/
theorem test_poll :
    seen .poll [0x45#8, 0x00#8, 0x07#8, 0x04#8, 0x64#8, 0x87#8, 0x00#8, 0x02#8, 0x10#8, 0x04#8, 0x00#8, 0x64#8, 0x00#8, 0x00#8, 0x04#8, 0x64#8, 0x80#8, 0x00#8, 0x05#8, 0x10#8, 0xDE#8, 0xAD#8, 0xBE#8, 0xEF#8, 0x22#8] = some (.identifier id5, .none, 44) := by decide +kernel

/-- P7, the attempt that fails: the deadline draw is false, and the sequencer stays in POLL. -/
theorem test_poll_pending :
    (after .poll { scripted [0x14#8, 0x00#8, 0x07#8, 0x44#8, 0x45#8, 0x87#8, 0x00#8, 0x00#8, 0x10#8, 0x00#8] with
      port := { (scripted [0x14#8, 0x00#8, 0x07#8, 0x44#8, 0x45#8, 0x87#8, 0x00#8, 0x00#8, 0x10#8, 0x00#8]).port with deadlines := [false] } }).map
      (fun t => (t.reply, t.pc, transactions t.port.trace)) = some (.pending, .poll, 19) := by decide +kernel

/-- S1. -/
theorem test_select :
    seen (.select id5) [0x00#8, 0x00#8, 0x00#8, 0x04#8, 0xB9#8, 0x9C#8, 0x64#8, 0x00#8, 0x00#8, 0x20#8, 0x80#8, 0x00#8, 0x03#8, 0x10#8, 0x08#8, 0xB6#8, 0xDD#8] = some (.byte 0x08#8, .none, 43) := by decide +kernel

/-- S2. -/
theorem test_select_length :
    seen (.select id5) [0x00#8, 0x00#8, 0x04#8, 0xB9#8, 0x9C#8, 0x64#8, 0x00#8, 0x00#8, 0x20#8, 0x80#8, 0x00#8, 0x01#8, 0x10#8, 0x08#8] = some (.byte 0x00#8, .lengthMismatch, 40) := by decide +kernel

/-- H7: slot B, and the frame it loads. -/
theorem test_auth_slot_b :
    (after (.auth id5 0x01#8 0x3F#8 [0xA0#8, 0xA1#8, 0xA2#8, 0xA3#8, 0xA4#8, 0xA5#8]) (scripted [0x64#8, 0x00#8, 0x10#8, 0x00#8, 0x00#8, 0x08#8])).map
      (fun t => (t.reply, t.regs.cause, loaded t.port.trace)) =
    some (.status .ok, .none, [0x61#8, 0x3F#8, 0xA0#8, 0xA1#8, 0xA2#8, 0xA3#8, 0xA4#8, 0xA5#8, 0xDE#8, 0xAD#8, 0xBE#8, 0xEF#8]) := by decide +kernel

/-- H2: the command is OK, the crypto1-on bit is clear. -/
theorem test_auth_clear :
    seen (.auth id5 0x00#8 0x07#8 keyF) [0x64#8, 0x00#8, 0x00#8, 0x10#8, 0x00#8, 0x00#8, 0x00#8] = some (.status .error, .notAuthenticated, 25) := by decide +kernel

/-- STOPC, its third script. -/
theorem test_stopc :
    (after .stopc (scripted [0xFF#8])).map (fun t => t.port.trace) = some [.read 0x08#6 0xFF#8, .write 0x08#6 0xF7#8] := by decide +kernel

/-- S1 and then H1. -/
theorem test_authsec :
    seen (.authsec id5 0x00#8 0x07#8 keyF) [0x00#8, 0x00#8, 0x00#8, 0x04#8, 0xB9#8, 0x9C#8, 0x64#8, 0x00#8, 0x00#8, 0x20#8, 0x80#8, 0x00#8, 0x03#8, 0x10#8, 0x08#8, 0xB6#8, 0xDD#8, 0x64#8, 0x00#8, 0x00#8, 0x10#8, 0x00#8, 0x00#8, 0x08#8] = some (.status .ok, .none, 68) := by decide +kernel

/-- S3. -/
theorem test_authsec_unselected :
    seen (.authsec id5 0x00#8 0x07#8 keyF) [0x00#8, 0x00#8, 0x04#8, 0xB9#8, 0x9C#8, 0x64#8, 0x00#8, 0x00#8, 0x01#8, 0x80#8, 0x00#8, 0x00#8, 0x10#8, 0x00#8] = some (.status .error, .notAuthenticated, 40) := by decide +kernel

/-- B1. -/
theorem test_rdblk :
    seen (.rdblk 0x04#8) [0x00#8, 0x00#8, 0x04#8, 0x26#8, 0xEE#8, 0x10#8, 0x00#8, 0x00#8, 0x20#8, 0x80#8, 0x00#8, 0x12#8, 0x10#8, 0x00#8, 0x01#8, 0x02#8, 0x03#8, 0x04#8, 0x05#8, 0x06#8, 0x07#8, 0x08#8, 0x09#8, 0x0A#8, 0x0B#8, 0x0C#8, 0x0D#8, 0x0E#8, 0x0F#8] = some (.block bytes16, .none, 45) := by decide +kernel

/-- B4. -/
theorem test_rdblk_short :
    seen (.rdblk 0x04#8) [0x00#8, 0x00#8, 0x04#8, 0x26#8, 0xEE#8, 0x10#8, 0x00#8, 0x00#8, 0x20#8, 0x80#8, 0x00#8, 0x0F#8, 0x10#8, 0x00#8, 0x01#8, 0x02#8, 0x03#8, 0x04#8, 0x05#8, 0x06#8, 0x07#8, 0x08#8, 0x09#8, 0x0A#8, 0x0B#8, 0x0C#8, 0x0D#8, 0x0E#8] = some (.absent, .lengthMismatch, 44) := by decide +kernel

/-- W2: the high nibble of the acknowledge is ignored. -/
theorem test_wrblk :
    seen (.wrblk 0x04#8 (List.replicate 16 0x00#8)) [0x00#8, 0x00#8, 0x04#8, 0x7B#8, 0xF7#8, 0x10#8, 0x00#8, 0x00#8, 0x20#8, 0x80#8, 0x00#8, 0x01#8, 0x14#8, 0xFA#8, 0x04#8, 0x01#8, 0x04#8, 0x37#8, 0x49#8, 0x64#8, 0x00#8, 0x00#8, 0x20#8, 0x80#8, 0x00#8, 0x01#8, 0x14#8, 0x3A#8] = some (.status .ok, .none, 88) := by decide +kernel

/-- W4: eight bits are no acknowledge. -/
theorem test_wrblk_nack :
    seen (.wrblk 0x04#8 (List.replicate 16 0x00#8)) [0x00#8, 0x00#8, 0x04#8, 0x7B#8, 0xF7#8, 0x10#8, 0x00#8, 0x00#8, 0x20#8, 0x80#8, 0x00#8, 0x01#8, 0x10#8, 0x0A#8] = some (.status .error, .ackMismatch, 30) := by decide +kernel

/-- P6, its shape: the middle block gives no answer, and 32 bytes are returned. -/
theorem test_rdsec :
    (after (.rdsec id5 0x00#8 0x04#8 keyF) (scripted
      ([0x00#8, 0x00#8, 0x04#8, 0xB9#8, 0x9C#8, 0x64#8, 0x00#8, 0x00#8, 0x20#8, 0x80#8, 0x00#8, 0x03#8, 0x10#8, 0x08#8, 0xB6#8, 0xDD#8] ++
       [0x64#8, 0x00#8, 0x10#8, 0x00#8, 0x00#8, 0x08#8] ++
       [0x04#8, 0x00#8, 0x04#8, 0x26#8, 0xEE#8, 0x64#8, 0x00#8, 0x00#8, 0x20#8, 0x80#8, 0x00#8, 0x12#8, 0x10#8] ++ bytes16 ++
       [0x04#8, 0x02#8, 0x04#8, 0xAF#8, 0xFF#8, 0x64#8, 0x00#8, 0x00#8, 0x44#8, 0x45#8, 0x80#8, 0x00#8, 0x00#8, 0x10#8, 0x00#8] ++
       [0x04#8, 0x00#8, 0x04#8, 0x26#8, 0xEE#8, 0x64#8, 0x00#8, 0x00#8, 0x20#8, 0x80#8, 0x00#8, 0x12#8, 0x10#8] ++ bytes16 ++ [0x08#8]))).map
      (fun t => (t.reply, t.port.answers)) = some (.bytes (bytes16 ++ bytes16), []) := by decide +kernel

/-- P6, its variant: the handshake fails, no block is read, and STOPC runs. -/
theorem test_rdsec_wrong_key :
    (after (.rdsec id5 0x00#8 0x04#8 (List.replicate 6 0x00#8)) (scripted
      ([0x00#8, 0x00#8, 0x04#8, 0xB9#8, 0x9C#8, 0x64#8, 0x00#8, 0x00#8, 0x20#8, 0x80#8, 0x00#8, 0x03#8, 0x10#8, 0x08#8, 0xB6#8, 0xDD#8] ++ [0x64#8, 0x00#8, 0x00#8, 0x00#8, 0x01#8, 0x00#8, 0x00#8, 0x00#8, 0x00#8]))).map
      (fun t => (t.reply, t.regs.cause, t.port.trace.drop 67)) =
    some (.bytes [], .notAuthenticated, [.read 0x08#6 0x00#8, .read 0x08#6 0x00#8, .write 0x08#6 0x00#8]) := by decide +kernel

/-- C2, its full trace: the empty sequence. -/
theorem test_crc_trace :
    (after (.crc []) (scripted [0x00#8, 0x00#8, 0x04#8, 0x63#8, 0x63#8])).map (fun t => (t.reply, t.port.trace)) =
    some (.pair 0x63#8 0x63#8, [.read 0x05#6 0x00#8, .write 0x05#6 0x00#8, .read 0x0A#6 0x00#8, .write 0x0A#6 0x80#8,
      .write 0x01#6 0x03#8, .read 0x05#6 0x04#8, .read 0x22#6 0x63#8, .read 0x21#6 0x63#8]) := by decide +kernel

/-- C3: the budget is exhausted, and the registers are read all the same. -/
theorem test_crc_timeout :
    (after (.crc [0x01#8, 0x02#8, 0x03#8]) (scripted (List.replicate 257 0x00#8 ++ [0x12#8, 0x34#8]))).map
      (fun t => (t.reply, t.regs.crcTo, transactions t.port.trace)) = some (.pair 0x12#8 0x34#8, true, 265) := by decide +kernel

/-- The table of CRC_A. -/
theorem test_crc_a :
    (crcA [], crcA [0x12#8, 0x34#8], crcA ([0x93#8, 0x70#8] ++ id5), crcA bytes16) =
    ((0x63#8, 0x63#8), (0x26#8, 0xCF#8), (0xB9#8, 0x9C#8), (0x77#8, 0xF5#8)) := by decide +kernel

/-- Codes 1,2,3,4. -/
theorem test_acenc :
    seen (.acenc 0x01#8 0x02#8 0x03#8 0x04#8 0xAB#8) [] = some (.bytes [0x97#8, 0x8A#8, 0x56#8, 0xAB#8], .none, 0) := by decide +kernel

/-- E1. -/
theorem test_acenc_factory :
    seen (.acenc 0x00#8 0x00#8 0x00#8 0x01#8 0x00#8) [] = some (.bytes [0xFF#8, 0x07#8, 0x80#8, 0x00#8], .none, 0) := by decide +kernel

/-- Bytes that are not consistent decode all the same. -/
theorem test_acdec :
    seen (.acdec 0x12#8 0x34#8 0x56#8 0x78#8) [] = some (.word ⟨5#3, 6#3, 3#3, 0#3, 0x78#8⟩, .none, 0) := by decide +kernel

/-- Published index 1 is the bit of weight 4. -/
theorem test_acsetb :
    seen (.acsetb 0x00#8 0x00#8 0x00#8 0x03#8 0x00#8 0x00#8 0x01#8 0x01#8) [] = some (.word ⟨4#3, 0#3, 0#3, 3#3, 0x00#8⟩, .none, 0) := by decide +kernel

/-- Published index 3 is the bit of weight 1. -/
theorem test_acsetb_clear :
    seen (.acsetb 0x07#8 0x07#8 0x07#8 0x07#8 0xFF#8 0x01#8 0x03#8 0x00#8) [] = some (.word ⟨7#3, 6#3, 7#3, 7#3, 0xFF#8⟩, .none, 0) := by decide +kernel

/-- P5, request 6. -/
theorem test_acchk :
    seen (.acchk 0x7E#8 0x17#8 0x88#8 0x69#8) [] = some (.bit true, .none, 0) := by decide +kernel

/-- P5, request 8. -/
theorem test_acchk_flipped :
    seen (.acchk 0x7E#8 0x17#8 0x89#8 0x69#8) [] = some (.bit false, .none, 0) := by decide +kernel

/-- P5, request 5. -/
theorem test_trpack :
    seen (.trpack [0xA0#8, 0xA1#8, 0xA2#8, 0xA3#8, 0xA4#8, 0xA5#8] 0x04#8 0x00#8 0x00#8 0x03#8 0x69#8 [0xB0#8, 0xB1#8, 0xB2#8, 0xB3#8, 0xB4#8, 0xB5#8]) [] = some (.bytes [0xA0#8, 0xA1#8, 0xA2#8, 0xA3#8, 0xA4#8, 0xA5#8, 0x7E#8, 0x17#8, 0x88#8, 0x69#8, 0xB0#8, 0xB1#8, 0xB2#8, 0xB3#8, 0xB4#8, 0xB5#8], .none, 0) := by decide +kernel

/-- P5, request 7. -/
theorem test_trunpk :
    seen (.trunpk [0xA0#8, 0xA1#8, 0xA2#8, 0xA3#8, 0xA4#8, 0xA5#8, 0x7E#8, 0x17#8, 0x88#8, 0x69#8, 0xB0#8, 0xB1#8, 0xB2#8, 0xB3#8, 0xB4#8, 0xB5#8]) [] = some (.trailer ⟨⟨.a, [0xA0#8, 0xA1#8, 0xA2#8, 0xA3#8, 0xA4#8, 0xA5#8]⟩, ⟨4#3, 0#3, 0#3, 3#3, 0x69#8⟩, ⟨.b, [0xB0#8, 0xB1#8, 0xB2#8, 0xB3#8, 0xB4#8, 0xB5#8]⟩⟩, .none, 0) := by decide +kernel

/-- R142 with the code of R92. -/
theorem test_idle :
    (after .idle (scripted [])).map (fun t => t.port.trace) = some [.write 0x01#6 0x00#8] := by decide +kernel

/-- R206 with the code of R92. -/
theorem test_calccrc :
    (after .calccrc (scripted [])).map (fun t => t.port.trace) = some [.write 0x01#6 0x03#8] := by decide +kernel

/-- R143 with the code of R92: start send set. -/
theorem test_transceive :
    (after .transceive (scripted [0x07#8])).map (fun t => t.port.trace) = some [.write 0x01#6 0x0C#8, .read 0x0D#6 0x07#8, .write 0x0D#6 0x87#8] := by decide +kernel

/-- R148 with the code of R92. -/
theorem test_authent :
    (after .authent (scripted [])).map (fun t => t.port.trace) = some [.write 0x01#6 0x0E#8] := by decide +kernel

/-- Q1: the framing write and the frame of R97 exchanged. -/
theorem test_request :
    seen .request [0x14#8, 0x00#8, 0x07#8, 0x04#8, 0x64#8, 0x87#8, 0x00#8, 0x02#8, 0x10#8, 0x04#8, 0x00#8] = some (.transceive .ok [0x04#8, 0x00#8] 16, .none, 20) := by decide +kernel

/-- L1: the framing write and the frame of R98 exchanged. -/
theorem test_anticollision :
    seen (.anticollision .one) [0x14#8, 0x00#8, 0x00#8, 0x20#8, 0x80#8, 0x00#8, 0x05#8, 0x10#8, 0xDE#8, 0xAD#8, 0xBE#8, 0xEF#8, 0x22#8] = some (.transceive .ok id5 40, .none, 23) := by decide +kernel

/-- S1: the bytes loaded, first for the CRC, then as a frame. -/
theorem test_select_card :
    (after (.selectCard id5) (scripted [0x00#8, 0x00#8, 0x00#8, 0x04#8, 0xB9#8, 0x9C#8, 0x64#8, 0x00#8, 0x00#8, 0x20#8, 0x80#8, 0x00#8, 0x03#8, 0x10#8, 0x08#8, 0xB6#8, 0xDD#8])).map
      (fun t => loaded t.port.trace) = some [0x93#8, 0x70#8, 0xDE#8, 0xAD#8, 0xBE#8, 0xEF#8, 0x22#8, 0x93#8, 0x70#8, 0xDE#8, 0xAD#8, 0xBE#8, 0xEF#8, 0x22#8, 0xB9#8, 0x9C#8] := by decide +kernel

/-- A1: the frame of slot A. -/
theorem test_auth_a :
    (after (.authA 0x07#8 keyF [0xDE#8, 0xAD#8, 0xBE#8, 0xEF#8]) (scripted [0x64#8, 0x00#8, 0x00#8, 0x00#8, 0x10#8, 0x00#8, 0x00#8])).map
      (fun t => loaded t.port.trace) = some [0x60#8, 0x07#8, 0xFF#8, 0xFF#8, 0xFF#8, 0xFF#8, 0xFF#8, 0xFF#8, 0xDE#8, 0xAD#8, 0xBE#8, 0xEF#8] := by decide +kernel

/-- H7: the frame of slot B. -/
theorem test_auth_b :
    (after (.authB 0x3F#8 [0xA0#8, 0xA1#8, 0xA2#8, 0xA3#8, 0xA4#8, 0xA5#8] [0xDE#8, 0xAD#8, 0xBE#8, 0xEF#8]) (scripted [0x64#8, 0x00#8, 0x10#8, 0x00#8, 0x00#8])).map
      (fun t => loaded t.port.trace) = some [0x61#8, 0x3F#8, 0xA0#8, 0xA1#8, 0xA2#8, 0xA3#8, 0xA4#8, 0xA5#8, 0xDE#8, 0xAD#8, 0xBE#8, 0xEF#8] := by decide +kernel

/-- B1: the READ frame. -/
theorem test_read :
    (after (.read 0x04#8) (scripted [0x00#8, 0x00#8, 0x04#8, 0x26#8, 0xEE#8, 0x10#8, 0x00#8, 0x00#8, 0x20#8, 0x80#8, 0x00#8, 0x12#8, 0x10#8, 0x00#8, 0x01#8, 0x02#8, 0x03#8, 0x04#8, 0x05#8, 0x06#8, 0x07#8, 0x08#8, 0x09#8, 0x0A#8, 0x0B#8, 0x0C#8, 0x0D#8, 0x0E#8, 0x0F#8])).map
      (fun t => loaded t.port.trace) = some [0x30#8, 0x04#8, 0x30#8, 0x04#8, 0x26#8, 0xEE#8] := by decide +kernel

/-- W1: the frame of the first phase. -/
theorem test_write :
    (after (.write 0x04#8) (scripted [0x00#8, 0x00#8, 0x04#8, 0x7B#8, 0xF7#8, 0x10#8, 0x00#8, 0x00#8, 0x20#8, 0x80#8, 0x00#8, 0x01#8, 0x14#8, 0x0A#8])).map
      (fun t => loaded t.port.trace) = some [0xA0#8, 0x04#8, 0xA0#8, 0x04#8, 0x7B#8, 0xF7#8] := by decide +kernel

/-- P4, request 4, with no script at all: the reference environment gives the answers. -/
theorem test_reference_select :
    (after (.select id5) reference).map (fun t => t.reply) = some (.byte 0x08#8) := by decide +kernel

/-- R277: a card that has had no REQUEST answers no ANTICOLLISION, one that has had no ANTICOLLISION no SELECT, and one that is not selected no
handshake. -/
theorem test_card_order :
    ((Card.respond Config.default 0 false 0#3 (anticollisionFrame Config.default .one) Card.reset).1,
     (Card.respond Config.default 0 false 0#3 (withCrc (selectFrame Config.default id5)) { Card.reset with stage := .ready false }).1,
     Card.accepts Config.default false 0#3 (authFrame Config.default .a 0x07#8 keyF (id5.take 4)) Card.reset,
     Card.accepts Config.default false 0#3 (authFrame Config.default .a 0x07#8 keyF (id5.take 4)) { Card.reset with stage := .active }) =
    (none, none, false, true) := by decide +kernel

/-- R97: bits 6:0 of the REQUEST byte go on the air, in a 7-bit frame only. -/
theorem test_card_request :
    ((Card.respond Config.default 0 false 7#3 [0xA6#8] Card.reset).1, (Card.respond Config.default 0 false 0#3 [0x26#8] Card.reset).1) =
    (some ([0x04#8, 0x00#8], 0#3), none) := by decide +kernel

/-- R94, R248: HALT, plain or enciphered in a session, halts an active card; 0x26 leaves it halted and 0x52 wakes it. -/
theorem test_card_halt :
    let active := { Card.reset with stage := .active }
    let halted := (Card.respond Config.default 0 true 0#3 [0x50#8, 0x00#8, 0x57#8, 0xCD#8] { active with session := some 1 }).2
    (halted = { Card.reset with stage := .halted } ∧ (Card.respond Config.default 0 false 0#3 [0x50#8, 0x00#8, 0x57#8, 0xCD#8] active).2 = halted) ∧
    (Card.respond Config.default 0 false 7#3 [0x26#8] halted).1 = none ∧
    (Card.respond Config.default 0 false 7#3 [0x52#8] halted).1 = some ([0x04#8, 0x00#8], 0#3) := by decide +kernel

/-- R274 (a), (b): under the 7-bit setting no data frame and no handshake is accepted. -/
theorem test_card_cut :
    let c := { Card.reset with stage := .active, session := some 1, writing := some 0x04#8 }
    ((c.takeData 0 true 0#3 0x04#8 (withCrc bytes16)).1, (c.takeData 0 true 7#3 0x04#8 (withCrc bytes16)).1,
     Card.accepts Config.default false 7#3 (authFrame Config.default .a 0x07#8 keyF (id5.take 4)) { Card.reset with stage := .active }) =
    (some ([0x0A#8], 4#3), none, false) := by decide +kernel

/-- R278, R69: a written trailer replaces both keys of its sector; the vector of R222. -/
theorem test_card_trailer :
    let c := (Card.reset.store 0x07#8 (packTrailer ⟨⟨.a, bytes16.take 6⟩, ⟨0#3, 0#3, 0#3, 1#3, 0x69#8⟩, ⟨.b, bytes16.drop 10⟩⟩))
    (c.key 0x04#8 .a, c.key 0x05#8 .b, c.key 0x08#8 .a, (c.shownBlock 0x07#8).take 10) =
    (bytes16.take 6, bytes16.drop 10, keyF, [0x00#8, 0x00#8, 0x00#8, 0x00#8, 0x00#8, 0x00#8, 0xFF#8, 0x07#8, 0x80#8, 0x69#8]) := by decide +kernel

/-- R36 with the pair of P2's program: bytes written while CALC-CRC is active enter the running CRC. -/
theorem test_running_crc :
    let c := ((booted.put Config.default 0x01#6 0x03#8).flush Config.default).push Config.default 0 0x30#8
    let c := c.push Config.default 1 0x04#8
    (c.get Config.default 0x22#6, c.get Config.default 0x21#6, c.fifo) = (0x26#8, 0xEE#8, []) := by decide +kernel

/-- R31: a write of all ones to the status-2 register changes neither ModemState nor the clear crypto1-on bit. -/
theorem test_status2_write : status2AfterWrite Config.default 0x05#8 0xFF#8 = 0xF5#8 := by decide +kernel

/-- R24: REQP has called XCV, which is at its label T3. -/
theorem test_sequencer :
    ((Pc.idle.enter .reqp).enter (.xcv 0x0C#8 [0x26#8])).goto 3 = .run ⟨.xcv 0x0C#8 [0x26#8], 3⟩ [⟨.reqp, 1⟩] := by decide +kernel

/-! A case for each statement with hypotheses. -/

theorem witness_HostRequestsRoundTrip :
    ((Instr.rdreg 0x3F#8).format = .host ∧ (Instr.rdreg 0x3F#8).InRange) ∧
    (Instr.rdsec id5 0x01#8 0xFC#8 keyF).format = .host ∧ (Instr.rdsec id5 0x01#8 0xFC#8 keyF).InRange :=
  ⟨⟨rfl, by unfold Instr.InRange; decide⟩, rfl, ⟨0xDE#8, 0xAD#8, 0xBE#8, 0xEF#8, by decide⟩, by decide⟩

theorem witness_HostDecodingLosesNothing : decode Config.default .host [0x00#8, 0x3F#8] = .ok (.rdreg 0x3F#8) := by decide

theorem witness_ChipAndCardCodesRoundTrip :
    (Instr.idle.InRange ∧ Instr.idle.format = .chip ∧ Config.default.commands.Nodup) ∧
    ((Instr.read 0x04#8).InRange ∧ (Instr.read 0x04#8).format = .card ∧
      [Config.default.kAnticoll, Config.default.kRead, Config.default.kWrite].Nodup ∧ Config.default.kAuthA ≠ Config.default.kAuthB) ∧
    (Instr.selectCard id5).InRange :=
  ⟨⟨trivial, rfl, by decide⟩, ⟨trivial, rfl, by decide, by decide⟩, ⟨0xDE#8, 0xAD#8, 0xBE#8, 0xEF#8, by decide⟩⟩

/-- An unknown `op`, and SELECT with two bytes. -/
theorem witness_BytesOfNoOperationAreRefused :
    ((idleWith [⟨.host, true, [0x05#8]⟩]).pc = .idle ∧ (idleWith [⟨.host, true, [0x05#8]⟩]).inbox = ⟨.host, true, [0x05#8]⟩ :: [] ∧
      ∀ i : Instr, i.format = .host → i.InRange → encode (idleWith [⟨.host, true, [0x05#8]⟩]).cfg i ≠ [0x05#8]) ∧
    ∀ i : Instr, i.format = .host → i.InRange → encode State.reset.cfg i ≠ [0x30#8, 0x01#8, 0x02#8] := by
  refine ⟨⟨rfl, rfl, fun i h _ => ?_⟩, fun i h hr => ?_⟩
  · cases i <;> first | (simp [encode, counted]; done) | simp [Instr.format] at h
  · cases i
    case select id =>
      obtain ⟨a, b, c, d, rfl⟩ := hr
      simp [encode]
    all_goals first | (simp [encode, counted]; done) | simp [Instr.format] at h

theorem witness_StepRunsTheDecodedRequest :
    (idleWith [⟨.host, true, [0x32#8]⟩]).pc = .idle ∧ (idleWith [⟨.host, true, [0x32#8]⟩]).inbox = ⟨.host, true, [0x32#8]⟩ :: [] ∧
    decode (idleWith [⟨.host, true, [0x32#8]⟩]).cfg .host [0x32#8] = .ok .stopc := ⟨rfl, rfl, by decide⟩

theorem witness_ResetWaitsForTheHost : State.reset.pc = .idle ∧ State.reset.inbox = [] := ⟨rfl, rfl⟩

theorem witness_BusyRequestsAreRefused :
    (polling [⟨.host, false, [0x20#8]⟩]).pc ≠ .idle ∧
    (polling [⟨.host, false, [0x20#8]⟩]).inbox = ⟨.host, false, [0x20#8]⟩ :: [] ∧ Request.waits ⟨.host, false, [0x20#8]⟩ = false :=
  ⟨by decide, rfl, rfl⟩

theorem witness_PollGoesOn :
    ((polling []).pc = .poll ∧ (polling []).cfg.valid = true ∧ ∀ r rest, (polling []).inbox = r :: rest → r.waits = true) ∧
    (polling [⟨.host, true, [0x20#8]⟩]).pc = .poll ∧ (polling [⟨.host, true, [0x20#8]⟩]).cfg.valid = true ∧
    ∀ r rest, (polling [⟨.host, true, [0x20#8]⟩]).inbox = r :: rest → r.waits = true := by
  refine ⟨⟨rfl, by decide, fun r rest h => by simp [polling] at h⟩, rfl, by decide, fun r rest h => ?_⟩
  simp only [polling, List.cons.injEq] at h
  rw [← h.1]

theorem witness_OutOfRangeRequestsChangeNothing :
    (badConfig.pc = .idle ∧ badConfig.cfg.valid = false) ∧ (State.reset.pc = .idle ∧ ¬ (Instr.rdreg 0x40#8).InRange) ∧
    State.reset.cfg.valid = true ∧ (Instr.rdreg 0x3F#8).InRange := 
  ⟨⟨rfl, by decide⟩, ⟨rfl, by unfold Instr.InRange; decide⟩, by decide, by unfold Instr.InRange; decide⟩

theorem witness_StepKeepsTheInvariant : State.reset.Inv ∧ step State.reset = .next State.reset := ⟨by decide, rfl⟩

theorem witness_StepKeepsTheConfiguration : step State.reset = .next State.reset := rfl

theorem witness_ReadsFollowTheScript :
    (match step ((scripted [0xFF#8]).withFetchWord 8 0x32) with | .next t => some (readValues t.port.trace) | _ => none) =
    some [0xFF#8] := by decide +kernel

theorem witness_OnlyTheTwelveAddresses :
    (Instr.stopc.ofCore = true ∧ ((after .stopc (scripted [0x08#8])).map fun t => t.reply) = some .done) ∧
    (State.reset.Ready ∧ State.reset.Inv) ∧ ((0x00#8).toNat ≤ 0x3F ∧ toAddr 0x00#8 ∉ State.reset.cfg.addresses) ∧
    ((0x3F#8).toNat ≤ 0x3F ∧ toAddr 0x3F#8 ∉ State.reset.cfg.addresses) :=
  ⟨⟨rfl, by decide +kernel⟩, by decide, by decide, by decide⟩

theorem witness_OldRegistersDoNotMatter :
    State.reset.cfg = { State.reset with tx := [0x01#8] }.cfg ∧ State.reset.port = { State.reset with tx := [0x01#8] }.port ∧
    State.reset.pc = { State.reset with tx := [0x01#8] }.pc ∧
    ((after (.uidchk id5) State.reset).map fun t => t.tx) = some [] ∧
    ((after (.uidchk id5) { State.reset with tx := [0x01#8] }).map fun t => t.tx) = some [0x01#8] :=
  ⟨rfl, rfl, rfl, by decide, by decide⟩

theorem witness_OperationsAreBounded :
    State.reset.Ready ∧ Instr.poll.InRange ∧ (Instr.rdsec id5 0x00#8 0xFC#8 keyF).InRange :=
  ⟨by decide, trivial, ⟨0xDE#8, 0xAD#8, 0xBE#8, 0xEF#8, by decide⟩, by decide⟩

theorem witness_ResultsAreThoseOfTheTable :
    State.reset.Ready ∧ (Instr.uidchk id5).InRange ∧ ((after (.uidchk id5) State.reset).map fun t => t.pc) = some .idle :=
  ⟨by decide, by unfold Instr.InRange; decide, by decide⟩

/-- For ReadRegister, WriteRegister and SetAndClearBits: the last address that exists and the first that does not. -/
theorem witness_ReadRegister : State.reset.Ready ∧ (0x3F#8).toNat ≤ 0x3F ∧ 0x3F < (0x40#8).toNat ∧
    (scripted [0xAB#8]).port.answers = 0xAB#8 :: [] ∧ toAddr 0x09#8 = State.reset.cfg.aFifoData := by decide

theorem witness_WriteRegister :
    (State.reset.Ready ∧ (0x3F#8).toNat ≤ 0x3F ∧ 0x3F < (0x40#8).toNat) ∧
    (toAddr 0x09#8 = State.reset.cfg.aFifoData ∧
      State.reset.port.chip.get State.reset.cfg State.reset.cfg.aCommand ≠ State.reset.cfg.cmdCalcCrc ∧
      (Chip.reset.put Config.default 0x01#6 0x03#8).get Config.default Config.default.aCommand = Config.default.cmdCalcCrc) ∧
    (toAddr 0x0A#8 = State.reset.cfg.aFifoLevel ∧ 0x80#8 &&& State.reset.cfg.mFlush ≠ 0#8) ∧
    toAddr 0x08#8 = State.reset.cfg.aStatus2 ∧ State.reset.Inv ∧ 0x07#8 &&& State.reset.cfg.mCrypto1On = 0#8 ∧
    State.reset.cfg.mCrypto1On.getLsbD 2 = false := by decide +kernel

theorem witness_SetAndClearBits :
    State.reset.Ready ∧ (0x00#8).toNat ≤ 0x3F ∧ (0x3F#8).toNat ≤ 0x3F ∧ (scripted [0xAB#8]).port.answers = 0xAB#8 :: [] := by decide

theorem witness_ResetPulse : State.reset.Ready := by decide

theorem witness_RegisterPortFrame :
    ((after (.wrreg 0x0D#8 0x07#8) State.reset).map fun t => t.reply) = some .done ∧
    (toAddr 0x0D#8 = State.reset.cfg.aBitFraming ∧ toAddr 0x01#8 = State.reset.cfg.aCommand ∧ State.reset.port.card.writing = none) ∧
    toAddr 0x3F#8 ∉ State.reset.cfg.addresses ∧ 0x00#6 ∉ State.reset.cfg.addresses ∧ 0x00#6 ≠ toAddr 0x3F#8 := by decide

/-- A block that waits for its data, and addresses at the edges of its sixteen bytes, by a write of the bit framing that starts nothing. -/
theorem witness_RegisterPortFrame_waiting :
    let s := { State.reset with port := { State.reset.port with card := { Card.reset with writing := some 0x04#8 } } }
    ((after (.wrreg 0x0D#8 0x07#8) s).map fun t => t.port.card.writing) = some (some 0x04#8) ∧ toAddr 0x0D#8 = s.cfg.aBitFraming ∧
    (∀ b, toAddr 0x0D#8 = s.cfg.aBitFraming ∨ toAddr 0x0D#8 = s.cfg.aCommand → s.port.card.writing = some b →
      63 < blockBase b ∨ blockBase b + 16 ≤ 63) ∧
    (∀ b, toAddr 0x0D#8 = s.cfg.aBitFraming ∨ toAddr 0x0D#8 = s.cfg.aCommand → s.port.card.writing = some b →
      80 < blockBase b ∨ blockBase b + 16 ≤ 80) ∧
    blockBase 0x04#8 = 64 := by
  refine ⟨by decide, by decide, ?_, ?_, by decide⟩ <;> (intro b _ h; cases h; decide)

theorem witness_SelectsMasks :
    State.reset.cfg.cmdAuthent = 0x0E#8 ∧ (State.reset.cfg.cmdTransceive ≠ State.reset.cfg.cmdAuthent ∧ State.reset.cfg.cmdTransceive = 0x0C#8) ∧
    0x8C#8 ≠ State.reset.cfg.cmdAuthent ∧ 0x8C#8 ≠ State.reset.cfg.cmdTransceive := by decide

theorem witness_ArmsAndFlushes :
    (scripted [0x14#8, 0x05#8]).port.answers = 0x14#8 :: 0x05#8 :: [] ∧ State.reset.cfg = Config.default ∧ 0x0D#8 ≠ 0x0E#8 ∧ 0x0D#8 ≠ 0x0C#8 := by
  decide

theorem witness_LoadsAndIssues : 0x0C#8 = (scripted [0x07#8]).cfg.cmdTransceive ∧ (scripted [0x07#8]).port.answers = 0x07#8 :: [] := by decide

/-- The script answers the one read that the loop makes: `samples` is empty and `last` is 0x01. -/
theorem witness_PollsInterruptStatus :
    0 + 1 ≤ (scripted [0x01#8]).port.answers.length ∧
    ((pollIrq (scripted [0x01#8])).regs.n, (pollIrq (scripted [0x01#8])).port.answers) = (0x01#8, []) := by decide +kernel

/-- One state for each branch: exhausted; a masked error; the enabled timer bit; neither, under TRANSCEIVE and under another command. -/
theorem witness_DecidesStatus :
    let s := { scripted [0x00#8] with regs := { Regs.reset with i := 1#11, irqen := 0x77#8, n := 0x21#8 } }
    State.reset.regs.i = 0#11 ∧ s.regs.i ≠ 0#11 ∧ s.port.answers = 0x00#8 :: [] ∧
    0x01#8 &&& 0x1B#8 ≠ 0#8 ∧ 0xE4#8 &&& 0x1B#8 = 0#8 ∧ s.regs.n &&& s.regs.irqen &&& 0x01#8 ≠ 0#8 ∧
    (decideStatus s).regs.status ≠ .error ∧ 0x20#8 &&& s.regs.irqen &&& 0x01#8 = 0#8 ∧ 0x8C#8 ≠ s.cfg.cmdTransceive ∧
    ({ s.regs with irqen := 0x12#8 }.irqen = 0x12#8 ∧ { s.regs with irqen := 0x12#8 }.i ≠ 0#11) := by decide +kernel

/-- Levels 0, 1, 16 and 17, with no partial byte and with one: the bytes drained and the bit length. -/
theorem witness_MeasuresAndDrains :
    State.reset.rx = [] ∧
    ([(0x00#8, 0x11#8), (0x01#8, 0x10#8), (0x10#8, 0x17#8), (0x11#8, 0x10#8)].map fun (level, control) =>
      let t := receive (scripted ([level, control] ++ bytes16 ++ [0xFF#8]))
      (t.rx.length, t.regs.bitLen.toInt)) = [(1, -7), (1, 8), (16, 127), (16, 136)] := by decide +kernel

theorem witness_TransceiveTranscript : State.reset.Ready ∧ (List.replicate 64 0x00#8).length ≤ 64 := by decide

theorem witness_AuthenticateCommand : State.reset.Ready ∧ (List.replicate 64 0x00#8).length ≤ 64 := by decide

theorem witness_TransactionCounts :
    State.reset.Ready ∧ (List.replicate 64 0x00#8).length ≤ 64 ∧
    ((after (.xcv 0x0E#8 (List.replicate 64 0x00#8)) (scripted [0x14#8, 0x00#8, 0x10#8, 0x00#8, 0x00#8])).map fun t => transactions t.port.trace) =
      some 75 := by decide +kernel

theorem witness_CoreRegistersFrame : ((after .idle State.reset).map fun t => t.reply) = some .done := by decide +kernel

/-- XCV while block 4 waits for its data, and a byte on either side of the block. -/
theorem witness_CardMemoryFrame :
    let s := scripted [0x14#8, 0x00#8, 0x07#8, 0x01#8, 0x87#8, 0x01#8]
    let s := { s with port := { s.port with card := { Card.reset with writing := some 0x04#8 } } }
    s.Inv ∧ (Instr.xcv 0x0C#8 [0x26#8]).ofCore = true ∧ s.cfg.mFlush ≠ 0#8 ∧ s.cfg.framingShort &&& s.cfg.mStartSend = 0#8 ∧
    s.cfg.framingByte &&& s.cfg.mStartSend = 0#8 ∧ ((after (.xcv 0x0C#8 [0x26#8]) s).map fun t => t.pc) = some .idle ∧
    63 < blockBase 0x04#8 ∧ blockBase 0x04#8 + 16 ≤ 80 := by decide +kernel

theorem witness_RequestPresence : State.reset.Ready := by decide

theorem witness_ResolveUid : State.reset.Ready := by decide

theorem witness_ConstructIdentifier :
    State.reset.Ready ∧ (List.replicate 255 0x00#8 : List Byte).length ≤ 255 ∧
    (([] : List Byte).length ≠ 5 ∧ ([] : List Byte).length ≠ 8 ∧ (List.replicate 6 0x01#8).length ≠ 5) ∧
    (id5 = [0xDE#8, 0xAD#8, 0xBE#8, 0xEF#8] ++ [0x22#8] ∧ xorAll [0xDE#8, 0xAD#8, 0xBE#8, 0xEF#8] = 0x22#8) ∧
    xorAll [0x12#8, 0x34#8, 0x56#8, 0x78#8] ≠ 0x09#8 ∧ xorAll [0x04#8, 0x11#8, 0x22#8, 0x33#8, 0x44#8, 0x55#8, 0x66#8] = 0x73#8 := by decide +kernel

/-- The draw answers, and both outcomes of REQP are among the tests above (test_poll, test_poll_pending). -/
theorem witness_PollAttempt :
    State.reset.Ready ∧ { State.reset.port with deadlines := [true] }.deadlines = true :: [] := by decide

theorem witness_IdentifierOk : IdentifierOk id5 := ⟨0xDE#8, 0xAD#8, 0xBE#8, 0xEF#8, by decide⟩

theorem witness_SelectCard : State.reset.Ready ∧ IdentifierOk id5 := ⟨by decide, witness_IdentifierOk⟩

theorem witness_Authenticate :
    State.reset.Ready ∧ IdentifierOk id5 ∧ ((0x00#8 : Byte) = 0#8 ∨ (0x00#8 : Byte) = 1#8) ∧ ((0x01#8 : Byte) = 0#8 ∨ (0x01#8 : Byte) = 1#8) ∧
    keyF.length = 6 := ⟨by decide, witness_IdentifierOk, by decide, by decide, by decide⟩

theorem witness_StopCrypto : State.reset.Ready ∧ State.reset.Inv ∧ (scripted [0xFF#8]).port.answers = 0xFF#8 :: [] := by decide

theorem witness_AuthenticateSector :
    State.reset.Ready ∧ IdentifierOk id5 ∧ ((0x01#8 : Byte) = 0#8 ∨ (0x01#8 : Byte) = 1#8) ∧ keyF.length = 6 :=
  ⟨by decide, witness_IdentifierOk, by decide, by decide⟩

theorem witness_ReadBlock : State.reset.Ready := by decide

theorem witness_WriteBlock : State.reset.Ready ∧ bytes16.length = 16 := by decide

theorem witness_ReadSector :
    State.reset.Ready ∧ IdentifierOk id5 ∧ ((0x00#8 : Byte) = 0#8 ∨ (0x00#8 : Byte) = 1#8) ∧ keyF.length = 6 ∧ (0xFC#8).toNat + 3 ≤ 255 :=
  ⟨by decide, witness_IdentifierOk, by decide, by decide, by decide⟩

theorem witness_CrcTranscripts : State.reset.Ready ∧ (List.replicate 64 0x00#8).length ≤ 64 := by decide

theorem witness_ReferenceCrcIsCrcA :
    reference.Ready ∧ reference.Inv ∧ reference.port.kind = .reference ∧ reference.port.answers = [] ∧
    (List.replicate 64 0x00#8).length ≤ 64 ∧ reference.cfg.mFlush ≠ 0#8 ∧ reference.port.chip.booted reference.cfg = true ∧
    ∀ e ∈ reference.cfg.bootConfig, e.addr ∉ reference.cfg.addresses := by decide +kernel

theorem witness_EncodesAccessWord : State.reset.Ready ∧ (0x07#8).toNat ≤ 7 ∧ [0x00#8, 0x01#8, 0x02#8, 0x07#8][3]? = some 0x07#8 := by decide

theorem witness_DecodesAccessWord : State.reset.Ready ∧ [5#3, 6#3, 3#3, 0#3][3]? = some 0#3 := by decide

theorem witness_ChecksAccessBytes : State.reset.Ready ∧ 3 < 4 := by decide

theorem witness_SetsAccessBit :
    State.reset.Ready ∧ (Instr.acsetb 0x07#8 0x07#8 0x07#8 0x07#8 0xFF#8 0x03#8 0x03#8 0x01#8).InRange ∧
    (Instr.acsetb 0x00#8 0x00#8 0x00#8 0x00#8 0x00#8 0x00#8 0x01#8 0x00#8).InRange ∧
    ¬ (Instr.acsetb 0x00#8 0x00#8 0x00#8 0x00#8 0x00#8 0x04#8 0x01#8 0x00#8).InRange := by unfold Instr.InRange; decide

theorem witness_PacksAndUnpacksTrailers :
    State.reset.Ready ∧ (Instr.trpack keyF 0x07#8 0x00#8 0x00#8 0x07#8 0x69#8 keyF).InRange ∧ keyF.length = 6 := by unfold Instr.InRange; decide

theorem witness_CodecLaws :
    (encodeWord ⟨7#3, 0#3, 0#3, 7#3, 0x69#8⟩ = encodeWord ⟨7#3, 0#3, 0#3, 7#3, 0x69#8⟩) ∧ wordConsistent 0x7E#8 0x17#8 0x88#8 = true ∧
    (SectorTrailer.mk ⟨.a, keyF⟩ ⟨4#3, 0#3, 0#3, 3#3, 0x69#8⟩ ⟨.b, keyF⟩).keyA.bytes.length = 6 := by decide

theorem witness_ChipCommands : State.reset.Ready := by decide

theorem witness_PlainCardFrames : State.reset.Ready ∧ keyF.length = 6 ∧ (id5.take 4).length = 4 := by decide

theorem witness_SuffixedCardFrames :
    State.reset.Ready ∧ ∃ id, IdentifierOk id ∧ Instr.selectCard id5 = .selectCard id ∧
      [State.reset.cfg.kSelect, 0x70#8] ++ id5 = [State.reset.cfg.kSelect, 0x70#8] ++ id :=
  ⟨by decide, id5, witness_IdentifierOk, rfl, rfl⟩

theorem witness_SuffixedCardFrames_read_write :
    State.reset.Ready ∧ (∃ block, Instr.read 0xFF#8 = .read block ∧ [State.reset.cfg.kRead, 0xFF#8] = [State.reset.cfg.kRead, block]) ∧
    ∃ block, Instr.write 0x04#8 = .write block ∧ [State.reset.cfg.kWrite, 0x04#8] = [State.reset.cfg.kWrite, block] :=
  ⟨by decide, ⟨0xFF#8, rfl, rfl⟩, 0x04#8, rfl, rfl⟩


end Sys2Proof.Tests
end

/-! SUPPORT. What a step can do, and what it leaves of the trace and the script (R12, R62, R71). Every operation is a `Via` but two: RSTP adds the
line's events, and an attempt of POLL may draw the deadline after its accesses. -/
section
namespace Sys2Proof.Machine

variable {s t : State} {i : Instr} {p q r : Port}

/-! What a served request, an operation and a step can do. -/

/-- Serving a request runs its body or refuses it. -/
theorem State.serve_cases (s : State) (i : Instr) (body : State → State) :
    s.serve i body = body s ∨ ∃ cause, s.serve i body = s.refuse cause := by
  cases hg : s.gate i with
  | none => exact .inl (s.serve_open hg)
  | some cause => exact .inr ⟨cause, s.serve_stopped hg⟩

/-- A refusal makes no access, so a served request makes at most its body's. -/
theorem Via.serve {A : List RegAddr} {n : Nat} {body : State → State} (h : Via A n s (body s)) : Via A n s (s.serve i body) := by
  obtain hb | ⟨cause, hc⟩ := s.serve_cases i body
  · rwa [hb]
  · rw [hc]
    exact (Via.local (t := s.refuse cause) rfl rfl rfl).mono (Nat.zero_le n)

/-- Every operation but RSTP and POLL makes at most the transactions of R255's table and changes nothing else beyond the port: those of the core
at the twelve addresses, a register-port form at its own. -/
theorem exec_via (s : State) (hr : i ≠ .rstp) (hp : i ≠ .poll) :
    ∃ A t, exec i s = .next t ∧ Via A (mostTransactions s.cfg i) s t := by
  by_cases hc : i.ofCore = true
  · obtain ⟨t, ht, hm⟩ := exec_moves s hc hp
    exact ⟨_, t, ht, hm.1⟩
  · cases i with
    | rstp => exact absurd rfl hr
    | rdreg addr => exact ⟨[toAddr addr], _, rfl, ((Via.read s (by simp)).andLocal rfl rfl rfl).serve⟩
    | wrreg addr value => exact ⟨[toAddr addr], _, rfl, ((Via.write s value (by simp)).andLocal rfl rfl rfl).serve⟩
    | setb addr mask => exact ⟨[toAddr addr], _, rfl, ((Via.setBits s mask (by simp)).andLocal rfl rfl rfl).serve⟩
    | clrb addr mask => exact ⟨[toAddr addr], _, rfl, ((Via.clearBits s mask (by simp)).andLocal rfl rfl rfl).serve⟩
    | _ => exact absurd rfl hc

/-- What `fetch` finds: the running operation going on, or the oldest request, refused or run. -/
theorem fetch_cases (s : State) :
    fetch s = goOn s.pc ∨ ∃ r rest, s.inbox = r :: rest ∧
      ((∃ cause, fetch s = .refuse cause (s.withInbox rest)) ∨
        (s.pc = .idle ∧ ∃ i, decode s.cfg r.fmt r.bytes = .ok i ∧ fetch s = .run i (s.withInbox rest))) := by
  cases hp : s.pc with
  | idle =>
    cases hi : s.inbox with
    | nil => exact .inl (by simp [fetch, goOn, Pc.poll, hp, hi])
    | cons r rest =>
      cases hd : decode s.cfg r.fmt r.bytes with
      | ok i => exact .inr ⟨r, rest, rfl, .inr ⟨rfl, i, hd, by simp [fetch, hp, hi, hd]⟩⟩
      | error cause => exact .inr ⟨r, rest, rfl, .inl ⟨cause, by simp [fetch, hp, hi, hd]⟩⟩
  | run position callers =>
    cases hi : s.inbox with
    | nil => exact .inl (by simp [fetch, hp, hi])
    | cons r rest =>
      cases hw : r.waits with
      | true => exact .inl (by simp [fetch, hp, hi, hw])
      | false => exact .inr ⟨r, rest, rfl, .inl ⟨.busy, by simp [fetch, hp, hi, hw]⟩⟩

/-- Everything a step can do: wait, make the next attempt of POLL, or take the oldest request and refuse or run it (R24, R91, R115, R164, R259). -/
theorem step_cases (h : step s = .next t) :
    t = s ∨ (s.pc = .poll ∧ t = pollAttempt s) ∨ ∃ r rest, s.inbox = r :: rest ∧
      ((∃ cause, t = (s.withInbox rest).refuse cause) ∨
        (s.pc = .idle ∧ ∃ i, decode s.cfg r.fmt r.bytes = .ok i ∧ exec i (s.withInbox rest) = .next t)) := by
  unfold step at h
  obtain hf | ⟨r, rest, hi, ⟨cause, hf⟩ | ⟨hp, i, hd, hf⟩⟩ := fetch_cases s
  · by_cases hp : s.pc = .poll
    · rw [hf, goOn, if_pos hp] at h
      cases h
      exact .inr (.inl ⟨hp, rfl⟩)
    · rw [hf, goOn, if_neg hp] at h
      cases h
      exact .inl rfl
  · rw [hf] at h
    cases h
    exact .inr (.inr ⟨r, rest, hi, .inl ⟨cause, rfl⟩⟩)
  · rw [hf] at h
    exact .inr (.inr ⟨r, rest, hi, .inr ⟨hp, i, hd, h⟩⟩)

/-! From one port to a later one. -/

/-- Between two ports the trace has only grown, and the reads that crossed took the script's answers, in order, as long as it lasted. -/
def Port.FollowsScript (p q : Port) : Prop :=
  ∃ events : List Event, q.trace = p.trace ++ events ∧ q.answers = p.answers.drop (readValues events).length ∧
    p.answers.take (readValues events).length <+: readValues events

/-- Nothing else of a later port matters but its trace and what is left of its script. -/
theorem Port.FollowsScript.congr (h : p.FollowsScript q) (ht : r.trace = q.trace) (ha : r.answers = q.answers) : p.FollowsScript r := by
  obtain ⟨events, htrace, hanswers, hread⟩ := h
  exact ⟨events, ht.trans htrace, ha.trans hanswers, hread⟩

theorem Port.FollowsScript.refl (p : Port) : p.FollowsScript p := ⟨[], by simp, rfl, List.nil_prefix⟩

theorem Via.followsScript {A : List RegAddr} {n : Nat} (h : Via A n s t) : s.port.FollowsScript t.port := by
  obtain ⟨events, htrace, -, -, hanswers, hread⟩ := h.trace
  exact ⟨events, htrace, hanswers, hread⟩

/-- The reset pulse is two events of the line and no read (R135). -/
theorem Port.followsScript_afterResetPulse (p : Port) : p.FollowsScript p.afterResetPulse :=
  ⟨[.line .low, .line .high], rfl, rfl, List.nil_prefix⟩

/-- A deadline draw is no event and takes no answer (R164), so an attempt of POLL leaves what its two exchanges leave. -/
theorem pollAttempt_followsScript (s : State) : s.port.FollowsScript (pollAttempt s).port := by
  obtain ⟨t, hm, ⟨reply, hend⟩ | hend | hend⟩ := pollAttempt_moves s
  all_goals
    rw [hend]
    exact hm.1.followsScript.congr rfl rfl

theorem State.serve_followsScript {body : State → State} (h : s.port.FollowsScript (body s).port) :
    s.port.FollowsScript (s.serve i body).port := by
  obtain hb | ⟨cause, hc⟩ := s.serve_cases i body
  · rwa [hb]
  · rw [hc]
    exact .refl s.port

theorem exec_followsScript (h : exec i s = .next t) : s.port.FollowsScript t.port := by
  by_cases hr : i = .rstp
  · subst hr
    cases h
    exact State.serve_followsScript (s.port.followsScript_afterResetPulse.congr rfl rfl)
  by_cases hp : i = .poll
  · subst hp
    cases h
    exact State.serve_followsScript (pollAttempt_followsScript s)
  obtain ⟨A, u, hu, hv⟩ := exec_via s hr hp
  cases hu.symm.trans h
  exact hv.followsScript

theorem step_followsScript (h : step s = .next t) : s.port.FollowsScript t.port := by
  obtain rfl | ⟨-, rfl⟩ | ⟨r, rest, -, ⟨cause, rfl⟩ | ⟨-, i, -, hx⟩⟩ := step_cases h
  · exact .refl _
  · exact pollAttempt_followsScript s
  · exact .refl s.port
  · exact exec_followsScript (s := s.withInbox rest) hx

/-- Settles O16: a step waits, attempts POLL, refuses or runs an operation, and the trace and the script follow in each case. -/
theorem readsFollowTheScript : Obligations.ReadsFollowTheScript :=
  fun _ _ h => step_followsScript h

end Sys2Proof.Machine
end

/-! SUPPORT. An operation is refused or runs its body, and every step keeps the invariant (R21, R22, R24, R61, R69). -/
section
namespace Sys2Proof.Machine

variable {s t : State} {i : Instr} {A : List RegAddr} {n : Nat}

/-! An operation is refused, or the gate is open and its body runs. -/

/-- A request the gate stops is refused, and nothing else happens (R260). -/
theorem exec_refused {cause : RefuseCause} (hg : s.gate i = some cause) (h : exec i s = .next t) : t = s.refuse cause := by
  obtain ⟨body, hb⟩ := exec_serves i
  rw [hb, State.serve_stopped s hg] at h
  cases h
  rfl

theorem exec_refused_or_open (h : exec i s = .next t) : (∃ cause, t = s.refuse cause) ∨ s.gate i = none := by
  cases hg : s.gate i with
  | none => exact .inr rfl
  | some cause => exact .inl ⟨cause, exec_refused hg h⟩

/-- With the gate open, the next state is the body's; `hb` is `rfl` once the operation is known. -/
theorem exec_open {body : State → State} (hb : exec i s = .next (s.serve i body)) (hg : s.gate i = none) (h : exec i s = .next t) :
    t = body s := by
  rw [hb, State.serve_open s hg] at h
  cases h
  rfl

/-- Idle, with a request whose bytes decode, `fetch` takes it and runs it (R24, R91). -/
theorem fetch_of_decode {r : Request} {rest : List Request} (hp : s.pc = .idle) (hi : s.inbox = r :: rest)
    (hd : decode s.cfg r.fmt r.bytes = .ok i) : fetch s = .run i (s.withInbox rest) := by
  simp [fetch, hp, hi, hd]

/-- Settles O6: the step is `exec` of what `fetch` takes. -/
theorem stepRunsTheDecodedRequest : Obligations.StepRunsTheDecodedRequest := by
  intro s r rest i hp hi hd
  show step s = exec i (s.withInbox rest)
  rw [step, fetch_of_decode hp hi hd]

/-! The invariant. -/

/-- The chip after a reset lists no cell and queues no byte (R267). -/
theorem Chip.reset_inv (cfg : Config) : Chip.reset.Inv cfg := ⟨⟨.nil, by simp [Chip.reset]⟩, by simp [Chip.reset], Nat.zero_le 64⟩

theorem Card.reset_inv : Card.reset.Inv := ⟨⟨.nil, by simp [Card.reset]⟩, by simp [Card.reset]⟩

/-- Settles O13: nothing is queued, listed or in progress after a reset. -/
theorem resetMeetsTheInvariant : Obligations.ResetMeetsTheInvariant :=
  ⟨Nat.zero_le 16, Nat.zero_le 64, ⟨Chip.reset_inv _, Card.reset_inv⟩, .inl rfl⟩

/-- Accesses keep what lies beyond the port in form, so the buffers' depth and where the sequencer rests are left to show. -/
theorem State.Inv.via (hs : s.Inv) (hv : Via A n s t) (hr : t.rx.length ≤ 16) (ht : t.tx.length ≤ 64)
    (hp : t.pc = .idle ∨ t.pc = .poll) : t.Inv := by
  obtain ⟨-, -, hport, -⟩ := hs
  exact ⟨hr, ht, hv.port_inv hport, hp⟩

theorem State.Inv.moves (hs : s.Inv) (hm : Moves n s t) (hp : t.pc = .idle ∨ t.pc = .poll) : t.Inv := by
  obtain ⟨hrx, htx, -, -⟩ := id hs
  obtain ⟨hv, hr, ht⟩ := hm
  exact hs.via hv (hr hrx) (ht htx) hp

/-- Neither the reply nor the inbox is part of the invariant. -/
theorem State.Inv.refuse (hs : s.Inv) (cause : RefuseCause) : (s.refuse cause).Inv := hs

theorem State.Inv.withInbox (hs : s.Inv) (rest : List Request) : (s.withInbox rest).Inv := hs

theorem pollAttempt_pc (s : State) : (pollAttempt s).pc = .idle ∨ (pollAttempt s).pc = .poll := by
  obtain ⟨u, -, ⟨reply, hend⟩ | hend | hend⟩ := pollAttempt_moves s
  · exact .inl (hend ▸ rfl)
  · exact .inl (hend ▸ rfl)
  · exact .inr (hend ▸ rfl)

/-- An attempt of POLL keeps the invariant: its exchanges do, and a deadline draw touches neither chip nor card (R164). -/
theorem pollAttempt_inv (hs : s.Inv) : (pollAttempt s).Inv := by
  have hp := pollAttempt_pc s
  obtain ⟨u, hm, hend⟩ := pollAttempt_moves s
  obtain ⟨hrx, htx, hport, -⟩ := hs.moves (hm.finish .none) (.inl rfl)
  obtain ⟨reply, he⟩ | he | he := hend
  all_goals
    rw [he] at hp ⊢
    exact ⟨hrx, htx, hport, hp⟩

/-- RSTP keeps the invariant: the chip is the reset one, the card is untouched, and no buffer cell is valid (R45, R135). -/
theorem resetPulse_inv (hs : s.Inv) : (resetPulse s).Inv := by
  obtain ⟨-, -, ⟨-, hcard⟩, -⟩ := hs
  exact ⟨Nat.zero_le 16, Nat.zero_le 64, ⟨Chip.reset_inv _, hcard⟩, .inl rfl⟩

/-- An operation the gate let through leaves the sequencer idle, or in POLL (R24, R164). -/
theorem exec_pc (hg : s.gate i = none) (h : exec i s = .next t) : t.pc = .idle ∨ t.pc = .poll := by
  cases i with
  | poll =>
    obtain rfl := exec_open rfl hg h
    exact pollAttempt_pc s
  | trunpk bytes =>
    obtain rfl := exec_open rfl hg h
    cases unpackTrailer bytes with
    | some trailer => exact .inl rfl
    | none => exact .inl ((State.gate_eq_none s).1 hg).1
  | _ =>
    obtain rfl := exec_open rfl hg h
    exact .inl rfl

/-- The operations of the register port but RSTP touch no buffer (R131 to R134). -/
theorem exec_buffers_of_port (hc : i.ofCore = false) (hr : i ≠ .rstp) (hg : s.gate i = none) (h : exec i s = .next t) :
    t.rx = s.rx ∧ t.tx = s.tx := by
  cases i
  case rstp => exact absurd rfl hr
  case rdreg | wrreg | setb | clrb =>
    obtain rfl := exec_open rfl hg h
    exact ⟨rfl, rfl⟩
  all_goals cases hc

/-- The operations of the register port keep the invariant: RSTP resets the chip, the others make their accesses. -/
theorem exec_inv_of_port (hc : i.ofCore = false) (hg : s.gate i = none) (hs : s.Inv) (h : exec i s = .next t) : t.Inv := by
  by_cases hr : i = .rstp
  · subst hr
    obtain rfl := exec_open rfl hg h
    exact resetPulse_inv hs
  · obtain ⟨hrx, htx, -, -⟩ := id hs
    obtain ⟨hrx', htx'⟩ := exec_buffers_of_port hc hr hg h
    obtain ⟨A, u, hu, hv⟩ := exec_via s hr (by rintro rfl; cases hc)
    cases hu.symm.trans h
    exact hs.via hv (hrx' ▸ hrx) (htx' ▸ htx) (exec_pc hg h)

/-- Every operation keeps the invariant. -/
theorem exec_inv (hs : s.Inv) (h : exec i s = .next t) : t.Inv := by
  obtain ⟨cause, rfl⟩ | hg := exec_refused_or_open h
  · exact hs.refuse cause
  cases hc : i.ofCore with
  | false => exact exec_inv_of_port hc hg hs h
  | true =>
    by_cases hp : i = .poll
    · subst hp
      obtain rfl := exec_open rfl hg h
      exact pollAttempt_inv hs
    · obtain ⟨u, hu, hm⟩ := exec_moves s hc hp
      cases hu.symm.trans h
      exact hs.moves hm (exec_pc hg h)

/-- Settles O14: a step waits, attempts POLL, refuses or runs an operation, and each keeps the invariant. -/
theorem stepKeepsTheInvariant : Obligations.StepKeepsTheInvariant := by
  intro s t hs h
  obtain rfl | ⟨-, rfl⟩ | ⟨r, rest, -, ⟨cause, rfl⟩ | ⟨-, i, -, hx⟩⟩ := step_cases h
  · exact hs
  · exact pollAttempt_inv hs
  · exact (hs.withInbox rest).refuse cause
  · exact exec_inv (hs.withInbox rest) hx

end Sys2Proof.Machine
end

/-! SUPPORT. Which registers of the chip an operation reaches (R37). -/
section
namespace Sys2Proof.Machine

variable {s t : State} {i : Instr}

/-! A register outside the twelve, which only the host reaches. -/

/-- A write at a register outside the twelve stores the byte and does nothing else (log 14). -/
theorem afterWrite_of_notMem {cfg : Config} {a : RegAddr} (ha : a ∉ cfg.addresses) (n : Nat) (v : Byte) (chip : Chip) (card : Card) :
    afterWrite cfg n a v chip card = (chip.put cfg a v, card) := by
  simp only [Config.addresses, List.mem_cons, List.not_mem_nil, or_false, not_or] at ha
  simp [afterWrite, ha]

/-- A read of a register outside the twelve changes nothing in the chip. -/
theorem Chip.afterRead_of_notMem {cfg : Config} {a : RegAddr} (ha : a ∉ cfg.addresses) (c : Chip) : c.afterRead cfg a = c := by
  simp only [Config.addresses, List.mem_cons, List.not_mem_nil, or_false, not_or] at ha
  simp [Chip.afterRead, ha]

theorem writeRegister_get {addr value : Byte} (hi : s.port.chip.Inv s.cfg) (ha : toAddr addr ∉ s.cfg.addresses) :
    (writeRegister addr value s).port.chip.get s.cfg (toAddr addr) = value := by
  show (afterWrite s.cfg _ (toAddr addr) value s.port.chip s.port.card).1.get s.cfg (toAddr addr) = value
  rw [afterWrite_of_notMem ha]
  exact Chip.get_put_self _ _ _ hi

theorem readRegister_chip {addr : Byte} (ha : toAddr addr ∉ s.cfg.addresses) : (readRegister addr s).port.chip = s.port.chip :=
  Chip.afterRead_of_notMem ha _

/-! The core's operations. -/

/-- An attempt of POLL is accesses at the twelve addresses, and at most a deadline draw after them (R164). -/
theorem pollAttempt_via (s : State) : ∃ u, Via s.cfg.addresses 4063 s u ∧ (pollAttempt s).cfg = u.cfg ∧ (pollAttempt s).inbox = u.inbox ∧
    ((pollAttempt s).port = u.port ∨ (pollAttempt s).port = u.port.afterDeadline) := by
  obtain ⟨u, hm, ⟨reply, hend⟩ | hend | hend⟩ := pollAttempt_moves s
  · exact ⟨u, hm.1, hend ▸ rfl, hend ▸ rfl, .inl (hend ▸ rfl)⟩
  · exact ⟨u, hm.1, hend ▸ rfl, hend ▸ rfl, .inr (hend ▸ rfl)⟩
  · exact ⟨u, hm.1, hend ▸ rfl, hend ▸ rfl, .inr (hend ▸ rfl)⟩

/-- The trace and the chip after an operation of the core are those after accesses at the twelve addresses. -/
theorem exec_core_via (hc : i.ofCore = true) (h : exec i s = .next t) :
    ∃ n u, Via s.cfg.addresses n s u ∧ t.port.trace = u.port.trace ∧ t.port.chip = u.port.chip := by
  by_cases hp : i = .poll
  · subst hp
    obtain ⟨cause, rfl⟩ | hg := exec_refused_or_open h
    · exact ⟨0, s, Via.refl s, rfl, rfl⟩
    obtain rfl := exec_open rfl hg h
    obtain ⟨u, hv, -, -, hport | hport⟩ := pollAttempt_via s
    · exact ⟨_, u, hv, by rw [hport], by rw [hport]⟩
    · exact ⟨_, u, hv, by rw [hport]; rfl, by rw [hport]; rfl⟩
  · obtain ⟨u, hu, hm⟩ := exec_moves s hc hp
    cases hu.symm.trans h
    exact ⟨_, t, hm.1, rfl, rfl⟩

/-- Settles O17: the core's accesses are at the twelve addresses; at any other, the chip stores a write's byte and no read changes it. -/
theorem onlyTheTwelveAddresses : Obligations.OnlyTheTwelveAddresses := by
  refine ⟨fun i s t hc h => ?_, fun s addr value hr hs ha hn => ?_⟩
  · obtain ⟨n, u, hv, htrace, hchip⟩ := exec_core_via hc h
    obtain ⟨events, hev, -, hw, -, -⟩ := hv.trace
    refine ⟨events, htrace.trans hev, hw, fun a hna => ?_⟩
    rw [hchip]
    exact hv.get a hna
  · obtain ⟨-, -, ⟨hchip, -⟩, -⟩ := hs
    exact ⟨⟨_, exec_body (fun _ => rfl) hr ha, writeRegister_get hchip hn⟩,
      ⟨_, exec_body (fun _ => rfl) hr ha, readRegister_chip hn⟩⟩

end Sys2Proof.Machine
end

/-! SUPPORT. Nothing the controller holds is read by a later operation (R20, R23): from states that agree, an operation has the same outcome. -/
section
namespace Sys2Proof.Machine

variable {s s' t t' : State} {i : Instr}

/-- What the host and the port see of an operation's end: the reply, what lies beyond the port, and where the sequencer rests. -/
structure SameOutcome (t t' : State) : Prop where
  reply : t.reply = t'.reply
  port : t.port = t'.port
  pc : t.pc = t'.pc

theorem SameOutcome.finish {r r' : Reply} (hr : r = r') (hp : t.port = t'.port) : SameOutcome (t.finish r) (t'.finish r') :=
  ⟨hr, hp, rfl⟩

/-- The gate looks at the sequencer, the configuration and the operands only. -/
theorem State.gate_congr (hc : s.cfg = s'.cfg) (hp : s.pc = s'.pc) : s.gate i = s'.gate i := by
  simp [State.gate, hc, hp]

theorem AgreeSetUp.transceiveResult (h : AgreeSetUp s s') : Machine.transceiveResult s = Machine.transceiveResult s' := by
  rw [Machine.transceiveResult, Machine.transceiveResult, h.status, h.rx, h.bitLen]

theorem Agree.authenticateCommand (h : Agree s s') (out : List Byte) :
    AgreeSetUp (Machine.authenticateCommand out s) (Machine.authenticateCommand out s') := by
  rw [authenticateCommand_eq, authenticateCommand_eq, h.cfg]
  exact h.transceive _ out

theorem Agree.command (h : Agree s s') (code : Byte) : Agree (s.command code) (s'.command code) := by
  refine ⟨h.cfg, ?_⟩
  rw [State.command, State.command, h.cfg]
  exact h.write _ code

theorem Agree.crcPair (h : Agree s s') (bytes : List Byte) :
    (Machine.computeCrc bytes s).regs.crcLo = (Machine.computeCrc bytes s').regs.crcLo ∧
    (Machine.computeCrc bytes s).regs.crcHi = (Machine.computeCrc bytes s').regs.crcHi := by
  simpa [crcSuffix] using (h.computeCrc bytes).2

/-! The card frames. -/

theorem Agree.sendFrame (h : Agree s s') (op : Instr) (framing : Byte) (frame : List Byte) :
    SameOutcome (Machine.sendFrame op framing frame s) (Machine.sendFrame op framing frame s') := by
  have e : Agree (s.write s'.cfg.aBitFraming framing) (s'.write s'.cfg.aBitFraming framing) := ⟨h.cfg, h.write _ framing⟩
  have g := e.transceive s'.cfg.cmdTransceive frame
  rw [sendFrame_eq, sendFrame_eq, h.cfg]
  exact .finish g.transceiveResult g.port

theorem Agree.sendFrameWithCrc (h : Agree s s') (op : Instr) (frame : List Byte) :
    SameOutcome (Machine.sendFrameWithCrc op frame s) (Machine.sendFrameWithCrc op frame s') := by
  have g := h.exchangeWithCrc frame
  rw [sendFrameWithCrc_eq, sendFrameWithCrc_eq]
  exact .finish g.transceiveResult g.port

theorem Agree.sendAuthFrame (h : Agree s s') (op : Instr) (frame : List Byte) :
    SameOutcome (Machine.sendAuthFrame op frame s) (Machine.sendAuthFrame op frame s') := by
  have g := h.authenticateCommand frame
  rw [sendAuthFrame_eq, sendAuthFrame_eq]
  exact .finish (congrArg Reply.status g.status) g.port

/-! Every operation. -/

/-- An operation the gate lets through has the same outcome from states that agree (R20). -/
theorem Agree.exec (ha : Agree s s') (hg : s.gate i = none) (hg' : s'.gate i = none) (h : Machine.exec i s = .next t)
    (h' : Machine.exec i s' = .next t') : SameOutcome t t' := by
  cases i <;> obtain rfl := exec_open rfl hg h <;> obtain rfl := exec_open rfl hg' h'
  case rdreg addr => exact .finish (congrArg Reply.byte (ha.answer _)) (ha.afterRead _)
  case wrreg addr value => exact .finish rfl (ha.write _ value)
  case setb addr mask => exact .finish rfl (ha.setBits _ mask)
  case clrb addr mask => exact .finish rfl (ha.clearBits _ mask)
  case rstp =>
    refine .finish rfl ?_
    show ({ s.port.afterResetPulse with draws := s.port.afterResetPulse.draws + 1 } : Port) =
      { s'.port.afterResetPulse with draws := s'.port.afterResetPulse.draws + 1 }
    rw [ha.port]
  case xcv cmd out =>
    have g := ha.transceive cmd out
    exact .finish g.transceiveResult g.port
  case authcmd out =>
    have g := ha.authenticateCommand out
    exact .finish (congrArg Reply.status g.status) g.port
  case reqp =>
    have g := ha.requestPresence
    exact .finish (congrArg Reply.status g.status) g.port
  case acoll =>
    have g := ha.resolveUid
    exact .finish (congrArg₂ Reply.statusBytes g.status g.rx) g.port
  case poll =>
    obtain ⟨g, hreply, hpc⟩ := ha.pollAttempt
    exact ⟨hreply, g.port, hpc⟩
  case select id =>
    have g := ha.selectCard id
    exact .finish (congrArg Reply.byte g.selectAck) g.port
  case auth id slot block key =>
    have g := ha.authenticate id (toSlot slot) block key
    exact .finish (congrArg Reply.status g.status) g.port
  case stopc => exact .finish rfl ha.stopCrypto.port
  case authsec id slot block key =>
    have g := ha.authenticateSector id (toSlot slot) block key
    exact .finish (congrArg Reply.status g.status) g.port
  case rdblk block =>
    have g := ha.readBlock block
    exact .finish (by rw [g.blockRead]) g.port
  case wrblk block data =>
    have g := ha.writeBlock block data
    exact .finish (congrArg Reply.status g.status) g.port
  case rdsec id slot base key =>
    obtain ⟨hbytes, g⟩ := ha.readSector id (toSlot slot) base key
    exact .finish (congrArg Reply.bytes hbytes) g.port
  case crc bytes =>
    obtain ⟨hlo, hhi⟩ := ha.crcPair bytes
    exact .finish (congrArg₂ Reply.pair hlo hhi) (ha.computeCrc bytes).1.port
  case trunpk bytes =>
    cases unpackTrailer bytes with
    | some trailer => exact .finish rfl ha.port
    | none => exact ⟨rfl, ha.port, ((State.gate_eq_none s).1 hg).1.trans ((State.gate_eq_none s').1 hg').1.symm⟩
  case idle | calccrc | authent =>
    rw [ha.cfg]
    exact .finish rfl (ha.command _).port
  case transceive =>
    refine .finish rfl ?_
    show ((s.command s.cfg.cmdTransceive).setBits s.cfg.aBitFraming s.cfg.mStartSend).port = _
    rw [ha.cfg]
    exact (ha.command _).setBits _ _
  case request | anticollision =>
    rw [ha.cfg]
    exact ha.sendFrame _ _ _
  case selectCard | read | write =>
    rw [ha.cfg]
    exact ha.sendFrameWithCrc _ _
  case authA | authB =>
    rw [ha.cfg]
    exact ha.sendAuthFrame _ _
  all_goals exact .finish rfl ha.port

/-- Settles O18: the gate answers alike from both states, and so does the operation it lets through. -/
theorem oldRegistersDoNotMatter : Obligations.OldRegistersDoNotMatter := by
  intro i s s' t t' hcfg hport hpc h h'
  have hgate : s.gate i = s'.gate i := State.gate_congr hcfg hpc
  cases hg : s.gate i with
  | none =>
    obtain ⟨hreply, hport, hpc⟩ := Agree.exec ⟨hcfg, hport⟩ hg (hgate ▸ hg) h h'
    exact ⟨hreply, hport, hpc⟩
  | some cause =>
    rw [exec_refused hg h, exec_refused (hgate ▸ hg) h']
    exact ⟨rfl, hport, hpc⟩

end Sys2Proof.Machine
end

/-! SUPPORT. Which working registers an operation leaves alone (R21's column "written by"). -/
section
namespace Sys2Proof.Machine

variable {s t : State} {i : Instr} {g g' g'' : Regs}

/-- The registers that only `computeCRC` and AUTH write are as they were (R21). -/
structure Regs.KeepsCrc (g g' : Regs) : Prop where
  crcLo : g'.crcLo = g.crcLo
  crcHi : g'.crcHi = g.crcHi
  crcTo : g'.crcTo = g.crcTo
  s2 : g'.s2 = g.s2

/-- So are those that only a `transceive` under TRANSCEIVE writes besides, in T6 (R21, R147). -/
structure Regs.KeepsLengths (g g' : Regs) : Prop extends KeepsCrc g g' where
  lvl : g'.lvl = g.lvl
  lb : g'.lb = g.lb

theorem Regs.KeepsCrc.trans (h : g.KeepsCrc g') (k : g'.KeepsCrc g'') : g.KeepsCrc g'' :=
  ⟨k.crcLo.trans h.crcLo, k.crcHi.trans h.crcHi, k.crcTo.trans h.crcTo, k.s2.trans h.s2⟩

/-- The four registers as the statement lists them. -/
theorem Regs.KeepsCrc.fields (h : g.KeepsCrc g') :
    g'.crcLo = g.crcLo ∧ g'.crcHi = g.crcHi ∧ g'.crcTo = g.crcTo ∧ g'.s2 = g.s2 :=
  ⟨h.crcLo, h.crcHi, h.crcTo, h.s2⟩

theorem Regs.KeepsLengths.fields (h : g.KeepsLengths g') :
    g'.crcLo = g.crcLo ∧ g'.crcHi = g.crcHi ∧ g'.crcTo = g.crcTo ∧ g'.s2 = g.s2 ∧ g'.lvl = g.lvl ∧ g'.lb = g.lb :=
  ⟨h.crcLo, h.crcHi, h.crcTo, h.s2, h.lvl, h.lb⟩

/-! Each operation, in the order it is built of the others. -/

theorem raise_keepsLengths (s : State) (st : Status) (c : Cause) : s.regs.KeepsLengths (s.raise st c).regs :=
  ⟨⟨rfl, rfl, rfl, rfl⟩, rfl, rfl⟩

theorem demoteUnless_keepsLengths (s : State) (test : Bool) (st : Status) (c : Cause) :
    s.regs.KeepsLengths (s.demoteUnless test st c).regs := by
  unfold State.demoteUnless
  split
  · exact raise_keepsLengths s st c
  · exact ⟨⟨rfl, rfl, rfl, rfl⟩, rfl, rfl⟩

theorem transceive_keepsCrc (cmd : Byte) (out : List Byte) (s : State) : s.regs.KeepsCrc (transceive cmd out s).regs := by
  obtain ⟨-, -, hq, -⟩ := transceive_spec s cmd out
  exact ⟨hq.crcLo, hq.crcHi, hq.crcTo, hq.s2⟩

/-- Under any command but TRANSCEIVE, T6 is left out (R146, R147). -/
theorem transceive_keepsLengths {cmd : Byte} (hc : cmd ≠ s.cfg.cmdTransceive) (out : List Byte) :
    s.regs.KeepsLengths (transceive cmd out s).regs := by
  obtain ⟨_, _, _, samples, last, _, -, -, -, -, hv, hr, -, -, -, -⟩ := runPlain_spec s cmd out
  suffices hl : (transceive cmd out s).regs.lvl = s.regs.lvl ∧ (transceive cmd out s).regs.lb = s.regs.lb from
    ⟨transceive_keepsCrc cmd out s, hl.1, hl.2⟩
  rw [transceive_eq]
  generalize runPlain cmd out s = u at hv hr ⊢
  have hu : u.regs.lvl = s.regs.lvl ∧ u.regs.lb = s.regs.lb := by rw [hr]; exact ⟨rfl, rfl⟩
  have hd : ¬((decideStatus u).regs.status ≠ .error ∧ cmd = (decideStatus u).cfg.cmdTransceive) :=
    fun h => hc (h.2.trans (congrArg Config.cmdTransceive hv.cfg_eq))
  unfold concludePlain
  split
  · exact hu
  · simp only [if_neg hd]
    exact hu

theorem authenticateCommand_keepsLengths (hv : s.cfg.valid = true) (out : List Byte) :
    s.regs.KeepsLengths (authenticateCommand out s).regs := by
  rw [authenticateCommand_eq]
  exact transceive_keepsLengths (Config.valid_commands hv).1 out

theorem requestPresence_keepsCrc (s : State) : s.regs.KeepsCrc (requestPresence s).regs := by
  rw [requestPresence_eq]
  exact (transceive_keepsCrc _ _ (s.write s.cfg.aBitFraming s.cfg.framingShort)).trans (demoteUnless_keepsLengths _ _ _ _).toKeepsCrc

theorem resolveUid_keepsCrc (s : State) : s.regs.KeepsCrc (resolveUid s).regs := by
  rw [resolveUid_eq]
  exact ((transceive_keepsCrc _ _ (s.write s.cfg.aBitFraming s.cfg.framingByte)).trans
    (demoteUnless_keepsLengths _ _ _ _).toKeepsCrc).trans (demoteUnless_keepsLengths _ _ _ _).toKeepsCrc

theorem retryOrEnd_regs (s : State) : (retryOrEnd s).regs = s.regs := by
  unfold retryOrEnd
  simp only
  split <;> rfl

theorem pollAttempt_keepsCrc (s : State) : s.regs.KeepsCrc (pollAttempt s).regs := by
  have h1 := requestPresence_keepsCrc s
  rw [pollAttempt_eq]
  generalize requestPresence s = u at h1 ⊢
  have h2 := h1.trans (resolveUid_keepsCrc u)
  simp only
  generalize resolveUid u = v at h2 ⊢
  split
  · split
    · exact h2
    · rwa [retryOrEnd_regs]
  · rwa [retryOrEnd_regs]

theorem sendFrame_keepsCrc (op : Instr) (framing : Byte) (frame : List Byte) (s : State) :
    s.regs.KeepsCrc (sendFrame op framing frame s).regs := by
  simp only [sendFrame_eq, State.finish_regs]
  exact transceive_keepsCrc _ _ (s.write s.cfg.aBitFraming framing)

theorem sendAuthFrame_keepsLengths (op : Instr) (hv : s.cfg.valid = true) (frame : List Byte) :
    s.regs.KeepsLengths (sendAuthFrame op frame s).regs := by
  simp only [sendAuthFrame_eq, State.finish_regs]
  exact authenticateCommand_keepsLengths hv frame

/-- AUTH is `authenticateCommand`, a sample into `x[S2]` and perhaps a downgrade (R178). -/
theorem authenticate_regs (hv : s.cfg.valid = true) (id : List Byte) (slot : Slot) (block : Byte) (key : List Byte) :
    ∃ v, { s.regs with s2 := v }.KeepsLengths (authenticate id slot block key s).regs := by
  rw [authenticate_eq]
  obtain ⟨⟨hlo, hhi, hto, -⟩, hlvl, hlb⟩ := authenticateCommand_keepsLengths hv (authFrame s.cfg slot block key (id.take 4))
  generalize authenticateCommand (authFrame s.cfg slot block key (id.take 4)) s = u at hlo hhi hto hlvl hlb ⊢
  obtain ⟨⟨klo, khi, kto, ks2⟩, klvl, klb⟩ := demoteUnless_keepsLengths
    ((u.afterRead u.cfg.aStatus2).withRegs { u.regs with s2 := u.answer u.cfg.aStatus2 })
    (anyBit (u.answer u.cfg.aStatus2) u.cfg.mCrypto1On) .error .notAuthenticated
  exact ⟨u.answer u.cfg.aStatus2, ⟨klo.trans hlo, khi.trans hhi, kto.trans hto, ks2⟩, klvl.trans hlvl, klb.trans hlb⟩

/-! `x[S2]`, which AUTH alone writes. -/

theorem exchangeWithCrc_s2 (frame : List Byte) (s : State) : (exchangeWithCrc frame s).regs.s2 = s.regs.s2 := by
  obtain ⟨-, -, ⟨_, _, _, _, _, hr⟩, -⟩ := computeCrc_spec s frame
  unfold exchangeWithCrc
  rw [(transceive_keepsCrc _ _ (computeCrc frame s)).s2, hr]

theorem sendFrameWithCrc_s2 (op : Instr) (frame : List Byte) (s : State) : (sendFrameWithCrc op frame s).regs.s2 = s.regs.s2 := by
  simp only [sendFrameWithCrc_eq, State.finish_regs]
  exact exchangeWithCrc_s2 frame s

theorem selectCard_s2 (id : List Byte) (s : State) : (selectCard id s).regs.s2 = s.regs.s2 := by
  rw [selectCard_eq]
  exact (demoteUnless_keepsLengths _ _ _ _).s2.trans (exchangeWithCrc_s2 _ s)

theorem readBlock_s2 (block : Byte) (s : State) : (readBlock block s).regs.s2 = s.regs.s2 := by
  rw [readBlock_eq]
  exact (demoteUnless_keepsLengths _ _ _ _).s2.trans (exchangeWithCrc_s2 _ s)

theorem failWrite_s2 (s : State) : (failWrite s).regs.s2 = s.regs.s2 := rfl

theorem writeBlock_s2 (block : Byte) (data : List Byte) (s : State) : (writeBlock block data s).regs.s2 = s.regs.s2 := by
  have h1 := exchangeWithCrc_s2 (writeFrame s.cfg block) s
  have h2 := (exchangeWithCrc_s2 data (exchangeWithCrc (writeFrame s.cfg block) s)).trans h1
  rw [writeBlock_eq]
  simp only
  split
  · split
    · exact h2
    · rw [failWrite_s2, h2]
  · rw [failWrite_s2, h1]

/-! What every operation leaves alone. -/

/-- No operation changes the configuration or the inbox; the line is RSTP's (R135), the deadline draws are POLL's (R164). -/
theorem exec_static (h : exec i s = .next t) : t.cfg = s.cfg ∧ t.inbox = s.inbox ∧ (i ≠ .rstp → t.port.line = s.port.line) ∧
    (i ≠ .poll → t.port.deadlines = s.port.deadlines) := by
  obtain ⟨cause, rfl⟩ | hg := exec_refused_or_open h
  · exact ⟨rfl, rfl, fun _ => rfl, fun _ => rfl⟩
  by_cases hr : i = .rstp
  · subst hr
    obtain rfl := exec_open rfl hg h
    exact ⟨rfl, rfl, fun hne => absurd rfl hne, fun _ => rfl⟩
  by_cases hp : i = .poll
  · subst hp
    obtain rfl := exec_open rfl hg h
    obtain ⟨u, hv, hcfg, hinbox, hport⟩ := pollAttempt_via s
    obtain ⟨-, -, hline⟩ := hv.static
    refine ⟨hcfg.trans hv.cfg_eq, hinbox.trans hv.inbox_eq, fun _ => ?_, fun hne => absurd rfl hne⟩
    obtain hport | hport := hport <;> exact (congrArg Port.line hport).trans hline
  · obtain ⟨A, u, hu, hv⟩ := exec_via s hr hp
    cases hu.symm.trans h
    obtain ⟨hdeadlines, -, hline⟩ := hv.static
    exact ⟨hv.cfg_eq, hv.inbox_eq, fun _ => hline, fun _ => hdeadlines⟩

/-- An operation that ends idle with nothing but its reply given has changed only the reply: the gate had found the sequencer idle. -/
theorem finish_eq_of_open (hg : s.gate i = none) (r : Reply) : s.finish r = { s with reply := r } := by
  obtain ⟨hp, -, -⟩ := (State.gate_eq_none s).1 hg
  rw [State.finish, State.withPc, ← hp]
  rfl

/-- Settles O36: a refused request changes the reply alone; one that is let through leaves alone what the operations it runs do. -/
theorem coreRegistersFrame : Obligations.CoreRegistersFrame := by
  intro i s t h
  refine ⟨?_, exec_static h⟩
  obtain ⟨cause, rfl⟩ | hg := exec_refused_or_open h
  · cases i <;> simp [State.refuse, State.withReply]
  obtain ⟨-, hv, -⟩ := (State.gate_eq_none s).1 hg
  cases i
  case uidchk | acenc | acdec | acsetb | acchk | trpack =>
    obtain rfl := exec_open rfl hg h
    exact finish_eq_of_open hg _
  case trunpk bytes =>
    obtain rfl := exec_open rfl hg h
    cases unpackTrailer bytes with
    | some trailer => exact finish_eq_of_open hg _
    | none => rfl
  case stopc | idle | calccrc | transceive | authent =>
    obtain rfl := exec_open rfl hg h
    exact ⟨rfl, rfl, rfl⟩
  case xcv cmd out =>
    obtain rfl := exec_open rfl hg h
    simp only [State.finish_regs]
    exact (transceive_keepsCrc cmd out s).fields
  case reqp =>
    obtain rfl := exec_open rfl hg h
    simp only [State.finish_regs]
    exact (requestPresence_keepsCrc s).fields
  case acoll =>
    obtain rfl := exec_open rfl hg h
    simp only [State.finish_regs]
    exact (resolveUid_keepsCrc s).fields
  case poll =>
    obtain rfl := exec_open rfl hg h
    exact (pollAttempt_keepsCrc s).fields
  case request | anticollision =>
    obtain rfl := exec_open rfl hg h
    exact (sendFrame_keepsCrc _ _ _ s).fields
  case authcmd out =>
    obtain rfl := exec_open rfl hg h
    simp only [State.finish_regs]
    exact (authenticateCommand_keepsLengths hv out).fields
  case authA | authB =>
    obtain rfl := exec_open rfl hg h
    exact (sendAuthFrame_keepsLengths _ hv _).fields
  case auth id slot block key =>
    obtain rfl := exec_open rfl hg h
    obtain ⟨v, ⟨hlo, hhi, hto, -⟩, hlvl, hlb⟩ := authenticate_regs hv id (toSlot slot) block key
    simp only [State.finish_regs]
    exact ⟨hlo, hhi, hto, hlvl, hlb⟩
  case crc bytes =>
    obtain rfl := exec_open rfl hg h
    obtain ⟨-, -, ⟨n, i, lo, hi, late, hr⟩, hrx, -⟩ := computeCrc_spec s bytes
    refine ⟨hrx, ?_⟩
    simp only [State.finish_regs, hr]
  case select id =>
    obtain rfl := exec_open rfl hg h
    simp only [State.finish_regs]
    exact selectCard_s2 id s
  case rdblk block =>
    obtain rfl := exec_open rfl hg h
    simp only [State.finish_regs]
    exact readBlock_s2 block s
  case wrblk block data =>
    obtain rfl := exec_open rfl hg h
    simp only [State.finish_regs]
    exact writeBlock_s2 block data s
  case selectCard | read | write =>
    obtain rfl := exec_open rfl hg h
    exact sendFrameWithCrc_s2 _ _ s
  all_goals trivial

end Sys2Proof.Machine
end

/-! SUPPORT. What the gate refuses, and that nothing else is refused (R76, R260). -/
section
namespace Sys2Proof.Machine

variable {s t : State} {i : Instr}

/-- An idle controller's gate is open exactly for a valid configuration and operands in range (R76, R260). -/
theorem State.gate_eq_none_iff_of_idle (hp : s.pc = .idle) : s.gate i = none ↔ s.cfg.valid = true ∧ i.InRange := by
  rw [State.gate_eq_none, refusal_iff]
  exact and_iff_right hp

/-! No body of an operation refuses. -/

/-- The reply tells a result, or that none is there yet. -/
def Reply.Served (r : Reply) : Prop := ∀ cause, r ≠ .refused cause

/-- UIDCHK tells the identifier or the failure (R163). -/
theorem identifierReply_served (raw : List Byte) : (identifierReply raw).Served := by
  unfold identifierReply
  split <;> nofun

/-- After a failed attempt POLL tells "no card" or goes on (R164). -/
theorem retryOrEnd_served (s : State) : (retryOrEnd s).reply.Served := by
  unfold retryOrEnd
  simp only
  split <;> nofun

theorem pollAttempt_served (s : State) : (pollAttempt s).reply.Served := by
  rw [pollAttempt_eq]
  simp only
  split
  · split
    · exact identifierReply_served _
    · exact retryOrEnd_served _
  · exact retryOrEnd_served _

/-- Sixteen bytes have a trailer (R223). -/
theorem unpackTrailer_isSome {bytes : List Byte} (h : bytes.length = 16) : ∃ trailer, unpackTrailer bytes = some trailer := by
  have hd : (bytes.drop 6).length = 10 := by simp [h]
  match hb : bytes.drop 6, hd with
  | b0 :: b1 :: b2 :: b3 :: keyB, _ =>
    rw [unpackTrailer, hb]
    exact ⟨_, rfl⟩

/-- An operation the gate lets through is not refused. -/
theorem exec_served (hg : s.gate i = none) (h : exec i s = .next t) : t.reply.Served := by
  cases i <;> obtain rfl := exec_open rfl hg h
  case uidchk raw => exact identifierReply_served raw
  case poll => exact pollAttempt_served s
  case rdblk block =>
    simp only [State.finish_reply]
    split <;> nofun
  case trunpk bytes =>
    obtain ⟨-, -, hr⟩ := (State.gate_eq_none s).1 hg
    obtain ⟨trailer, ht⟩ := unpackTrailer_isSome (refuseBlock_none hr)
    simp only [ht]
    nofun
  all_goals nofun

/-- Settles O12: the gate is open exactly in range; a request it stops changes the reply alone, one it lets through is served. -/
theorem outOfRangeRequestsChangeNothing : Obligations.OutOfRangeRequestsChangeNothing := by
  intro i s hp
  obtain ⟨body, hb⟩ := exec_serves i
  refine ⟨fun hbad => ?_, fun hv hi => ?_⟩
  · cases hg : s.gate i with
    | none =>
      obtain ⟨hv, hi⟩ := (State.gate_eq_none_iff_of_idle hp).1 hg
      exact absurd hbad (by simp [hv, hi])
    | some cause => exact ⟨cause, by rw [hb, State.serve_stopped s hg]; rfl⟩
  · exact ⟨_, hb s, exec_served ((State.gate_eq_none_iff_of_idle hp).2 ⟨hv, hi⟩) (hb s)⟩

end Sys2Proof.Machine
end

/-! SUPPORT. The reference environment's CRC co-processor (R36, R80 ENV-CRC): from the flush on, its running CRC with the bytes still queued is
CRC_A's state of the bytes loaded, and with BOOT_CONFIG applied its result registers show it once CALC-CRC is issued. -/
section
namespace Sys2Proof.Machine

variable {cfg : Config} {s t : State} {c d : Chip} {crc : BitVec 16} {n room : Nat} {bytes : List Byte}

/-! BOOT_CONFIG away from the twelve addresses. -/

/-- Whether an entry of BOOT_CONFIG stands in the chip depends on its register alone (R268). -/
theorem Chip.holds_congr (e : BootAction) (h : d.get cfg e.addr = c.get cfg e.addr) : d.holds cfg e = c.holds cfg e := by
  cases e with
  | write a v => exact congrArg (· == v) h
  | set a m => exact congrArg (· &&& m == m) h

theorem Chip.booted_congr (h : ∀ e ∈ cfg.bootConfig, d.get cfg e.addr = c.get cfg e.addr) : d.booted cfg = c.booted cfg := by
  rw [Bool.eq_iff_iff, Chip.booted, Chip.booted, List.all_eq_true, List.all_eq_true]
  exact forall₂_congr fun e he => by rw [Chip.holds_congr e (h e he)]

/-- Accesses at the twelve addresses keep BOOT_CONFIG applied. -/
theorem Via.booted (hv : Via s.cfg.addresses n s t) (hn : ∀ e ∈ s.cfg.bootConfig, e.addr ∉ s.cfg.addresses) :
    t.port.chip.booted s.cfg = s.port.chip.booted s.cfg :=
  Chip.booted_congr fun e he => hv.get e.addr (hn e he)

/-! The co-processor. -/

/-- The chip while bytes are loaded: room is left for so many more, nothing is queued while CALC-CRC is active, and the running CRC, once the
queued bytes have entered it too, will be `crc` (R36). -/
structure Chip.Loading (cfg : Config) (room : Nat) (crc : BitVec 16) (c : Chip) : Prop where
  fits : c.fifo.length + room ≤ fifoCapacity
  queued : c.calculating cfg = true → c.fifo = []
  pending : c.fifo.foldl crcByte c.crc = crc

/-- A flush begins a new CRC (R33, R80). -/
theorem Chip.flush_loading (c : Chip) : (c.flush cfg).Loading cfg fifoCapacity (crcState []) :=
  ⟨(Nat.zero_add _).le, fun _ => rfl, rfl⟩

theorem Chip.Loading.mono {room' : Nat} (h : c.Loading cfg room crc) (hr : room' ≤ room) : c.Loading cfg room' crc :=
  ⟨by have := h.fits; omega, h.queued, h.pending⟩

/-- A byte loaded enters the CRC, at once if CALC-CRC is active, else with the queue (R32, R36). -/
theorem Chip.Loading.push (h : c.Loading cfg (room + 1) crc) (v : Byte) :
    (c.push cfg n v).Loading cfg room (crcByte crc v) := by
  obtain ⟨hfits, hqueued, hpending⟩ := h
  unfold Chip.push
  split
  · rename_i hc
    have hq := hqueued hc
    exact ⟨by rw [Chip.absorb_fifo]; omega, fun _ => hq, by simp [hq, ← hpending]⟩
  · rename_i hc
    have hlt : c.fifo.length < fifoCapacity := by omega
    rw [if_pos hlt]
    exact ⟨by rw [List.length_append, List.length_singleton]; omega, fun h => absurd h hc, by simp [hpending]⟩

/-- The result registers show CRC_A of some bytes. -/
def Chip.Shows (cfg : Config) (bytes : List Byte) (c : Chip) : Prop :=
  c.get cfg cfg.aCrcResultL = (crcA bytes).1 ∧ c.get cfg cfg.aCrcResultH = (crcA bytes).2

/-- CALC-CRC takes the queue in and, with BOOT_CONFIG applied, shows the result (R80 ENV-CRC). -/
theorem Chip.calcCrc_shows (hv : cfg.valid = true) (hi : c.Inv cfg) (hb : c.booted cfg = true)
    (hp : c.fifo.foldl crcByte c.crc = crcState bytes) : (c.calcCrc cfg n).Shows cfg bytes := by
  have hne := (Config.distinct hv).crcH_crcL
  have hb' : ({ c with fifo := [] } : Chip).booted cfg = true := hb
  have hi' : ({ c with fifo := [], crc := crcState bytes, divFlags := [0#8, cfg.mCrcDone] } : Chip).Inv cfg :=
    Chip.inv_of_eq cfg hi rfl (Nat.zero_le 64)
  unfold Chip.calcCrc Chip.absorb
  simp only [hb', if_true, hp]
  exact ⟨(Chip.get_put_ne cfg _ _ hne.symm).trans (Chip.get_put_self cfg _ _ hi'),
    Chip.get_put_self cfg _ _ (Chip.put_inv cfg _ _ hi')⟩

/-! C1 to C4 (R206). -/

/-- The flush of C2 leaves room for a whole FIFO, whatever the register was read as. -/
theorem State.setBits_flush_loading (hv : s.cfg.valid = true) (hf : s.cfg.mFlush ≠ 0#8) :
    (s.setBits s.cfg.aFifoLevel s.cfg.mFlush).port.chip.Loading s.cfg fifoCapacity (crcState []) := by
  show (afterWrite s.cfg _ _ _ _ _).1.Loading s.cfg _ _
  simp only [afterWrite, (Config.distinct hv).fifoLevel_fifoData, if_false, if_true, anyBit_or_self _ _ hf]
  exact Chip.flush_loading _

theorem State.write_fifoData_chip (s : State) (v : Byte) :
    (s.write s.cfg.aFifoData v).port.chip = s.port.chip.push s.cfg s.port.trace.length v := by
  show (afterWrite s.cfg _ _ _ _ _).1 = _
  rw [afterWrite, if_pos rfl]

theorem State.loadFifo_loading (h : s.port.chip.Loading s.cfg bytes.length crc) :
    (s.loadFifo bytes).port.chip.Loading s.cfg 0 (bytes.foldl crcByte crc) := by
  induction bytes generalizing s crc with
  | nil => exact h
  | cons b bs ih =>
    refine ih (s := s.write s.cfg.aFifoData b) ?_
    rw [State.write_fifoData_chip]
    exact h.push b

/-- The command of C4 makes the result registers show the CRC of the bytes loaded. -/
theorem State.write_calcCrc_shows (hv : s.cfg.valid = true) (hi : s.port.chip.Inv s.cfg) (hb : s.port.chip.booted s.cfg = true)
    (hn : ∀ e ∈ s.cfg.bootConfig, e.addr ∉ s.cfg.addresses) (hl : s.port.chip.Loading s.cfg room (crcState bytes)) :
    (s.write s.cfg.aCommand s.cfg.cmdCalcCrc).port.chip.Shows s.cfg bytes := by
  have hchip : (s.write s.cfg.aCommand s.cfg.cmdCalcCrc).port.chip =
      (({ s.port.chip with comFlags := [] } : Chip).put s.cfg s.cfg.aCommand s.cfg.cmdCalcCrc).calcCrc s.cfg s.port.trace.length := by
    show (afterWrite s.cfg _ _ _ _ _).1 = _
    rw [afterWrite_command (Config.distinct hv), startCommand, if_pos rfl]
  have hinv := Chip.put_inv s.cfg s.cfg.aCommand s.cfg.cmdCalcCrc
    (Chip.inv_of_eq (d := { s.port.chip with comFlags := [] }) s.cfg hi rfl hi.2.2)
  have hboot : (({ s.port.chip with comFlags := [] } : Chip).put s.cfg s.cfg.aCommand s.cfg.cmdCalcCrc).booted s.cfg = true :=
    (Chip.booted_congr fun e he => Chip.get_put_ne s.cfg _ _ fun h => hn e he (h ▸ Config.aCommand_mem s.cfg)).trans hb
  rw [hchip]
  exact Chip.calcCrc_shows hv hinv hboot hl.pending

/-- C1 and C2: the CRC-done flag cleared, then the flush. -/
def clearAndFlush (s : State) : State := (s.clearBits s.cfg.aDivIrq s.cfg.mCrcDone).setBits s.cfg.aFifoLevel s.cfg.mFlush

theorem clearAndFlush_via (s : State) : Via s.cfg.addresses 4 s (clearAndFlush s) :=
  (Via.clearBits s _ (Config.aDivIrq_mem s.cfg)).trans (Via.setBits _ _ (Config.aFifoLevel_mem s.cfg))

theorem clearAndFlush_loading (hv : s.cfg.valid = true) (hf : s.cfg.mFlush ≠ 0#8) :
    (clearAndFlush s).port.chip.Loading s.cfg fifoCapacity (crcState []) :=
  State.setBits_flush_loading (s := s.clearBits s.cfg.aDivIrq s.cfg.mCrcDone) hv hf

theorem startPlain_eq (s : State) :
    startPlain s = ((clearAndFlush s).loadFifo s.tx).write s.cfg.aCommand s.cfg.cmdCalcCrc := rfl

theorem startPlain_via (s : State) : Via s.cfg.addresses (5 + s.tx.length) s (startPlain s) := by
  rw [startPlain_eq]
  exact (((clearAndFlush_via s).trans (State.loadFifo_spec _ s.tx).1).trans (Via.write _ _ (Config.aCommand_mem s.cfg))).mono (by omega)

/-- C1 to C4 make the result registers show CRC_A of the bytes in `TX`. -/
theorem startPlain_shows (hv : s.cfg.valid = true) (hi : s.port.chip.Inv s.cfg ∧ s.port.card.Inv) (hl : s.tx.length ≤ fifoCapacity)
    (hf : s.cfg.mFlush ≠ 0#8) (hb : s.port.chip.booted s.cfg = true) (hn : ∀ e ∈ s.cfg.bootConfig, e.addr ∉ s.cfg.addresses) :
    (startPlain s).port.chip.Shows s.cfg s.tx := by
  have hloaded : ((clearAndFlush s).loadFifo s.tx).port.chip.Loading s.cfg 0 (crcState s.tx) :=
    State.loadFifo_loading (s := clearAndFlush s) ((clearAndFlush_loading hv hf).mono hl)
  have hvia := (clearAndFlush_via s).trans (State.loadFifo_spec (clearAndFlush s) s.tx).1
  rw [startPlain_eq]
  generalize (clearAndFlush s).loadFifo s.tx = u at hloaded hvia
  have hc := hvia.cfg_eq
  have hinv := (hvia.port_inv hi).1
  have hboot := (hvia.booted hn).trans hb
  rw [← hc] at hv hn hboot hloaded ⊢
  exact State.write_calcCrc_shows hv hinv hboot hn hloaded

/-! C5 and C6 in the reference environment (R207, R208). -/

/-- The poll of C5 reads the CRC-done register only, and leaves every other as it is (R207). -/
theorem pollCrcLoop_get (k : Nat) {b : RegAddr} (hb : b ≠ s.cfg.aDivIrq) :
    (pollCrcLoop k s).port.chip.get s.cfg b = s.port.chip.get s.cfg b := by
  induction k generalizing s with
  | zero => rfl
  | succ k ih =>
    have hread : (pollCrcOnce s).port.chip.get s.cfg b = s.port.chip.get s.cfg b := Chip.afterRead_get _ _ _ _ hb
    rw [pollCrcLoop]
    split
    · exact hread
    · exact (ih (s := pollCrcOnce s) hb).trans hread

theorem pollCrc_get (s : State) {b : RegAddr} (hb : b ≠ s.cfg.aDivIrq) : (pollCrc s).port.chip.get s.cfg b = s.port.chip.get s.cfg b :=
  pollCrcLoop_get (s := s.withRegs { s.regs with i := BitVec.ofNat 11 crcBudget }) crcBudget hb

theorem pollCrc_via (s : State) : ∃ n, Via s.cfg.addresses n s (pollCrc s) := by
  obtain ⟨samples, -, -, -, -, -, -, hv, -⟩ :=
    pollCrcLoop_spec (s.withRegs { s.regs with i := BitVec.ofNat 11 crcBudget }) crcBudget (by decide) le_rfl rfl
  exact ⟨_, ((Via.local rfl rfl rfl).trans hv).andLocal rfl rfl rfl⟩

theorem pollCrc_shows (hv : s.cfg.valid = true) (h : s.port.chip.Shows s.cfg bytes) : (pollCrc s).port.chip.Shows s.cfg bytes := by
  have hd := Config.distinct hv
  exact ⟨(pollCrc_get s hd.crcL_divIrq).trans h.1, (pollCrc_get s hd.crcH_divIrq).trans h.2⟩

/-- The chip answers: the reference environment, with the script used up (R62, R80). -/
def Port.Reference (p : Port) : Prop := p.kind = .reference ∧ p.answers = []

theorem Via.reference {A : List RegAddr} (hv : Via A n s t) (h : s.port.Reference) : t.port.Reference := by
  obtain ⟨hk, ha⟩ := h
  obtain ⟨-, hkind, -⟩ := hv.static
  obtain ⟨events, -, -, -, hanswers, -⟩ := hv.trace
  exact ⟨hkind.trans hk, by rw [hanswers, ha, List.drop_nil]⟩

/-- A register that is neither FIFO nor flags is answered as it stands. -/
theorem State.answer_reference (h : s.port.Reference) {a : RegAddr} (h1 : a ≠ s.cfg.aFifoData) (h2 : a ≠ s.cfg.aFifoLevel)
    (h3 : a ≠ s.cfg.aComIrq) (h4 : a ≠ s.cfg.aDivIrq) : s.answer a = s.port.chip.get s.cfg a := by
  obtain ⟨hk, ha⟩ := h
  simp [State.answer, Port.answer, hk, ha, Chip.answer, h1, h2, h3, h4]

/-- C6 reads what the result registers show. -/
theorem readCrc_of_shows (hv : s.cfg.valid = true) (hr : s.port.Reference) (h : s.port.chip.Shows s.cfg bytes) :
    (readCrc s).regs.crcLo = (crcA bytes).1 ∧ (readCrc s).regs.crcHi = (crcA bytes).2 := by
  have hd := Config.distinct hv
  obtain ⟨hlow, hhigh⟩ := h
  have hr' : (s.afterRead s.cfg.aCrcResultL).port.Reference := (Via.read s (Config.aCrcResultL_mem s.cfg)).reference hr
  refine ⟨(State.answer_reference hr hd.crcL_fifoData hd.crcL_fifoLevel hd.crcL_comIrq hd.crcL_divIrq).trans hlow, ?_⟩
  calc (s.afterRead s.cfg.aCrcResultL).answer s.cfg.aCrcResultH
      = (s.afterRead s.cfg.aCrcResultL).port.chip.get s.cfg s.cfg.aCrcResultH :=
        State.answer_reference hr' hd.crcH_fifoData hd.crcH_fifoLevel hd.crcH_comIrq hd.crcH_divIrq
    _ = s.port.chip.get s.cfg s.cfg.aCrcResultH := Chip.afterRead_get _ _ _ _ hd.crcH_crcL
    _ = (crcA bytes).2 := hhigh

theorem readCrc_pollCrc_of_shows (hv : s.cfg.valid = true) (hr : s.port.Reference) (h : s.port.chip.Shows s.cfg bytes) :
    (readCrc (pollCrc s)).regs.crcLo = (crcA bytes).1 ∧ (readCrc (pollCrc s)).regs.crcHi = (crcA bytes).2 := by
  obtain ⟨n, hvia⟩ := pollCrc_via s
  have hpolled := pollCrc_shows hv h
  rw [← hvia.cfg_eq] at hv hpolled
  exact readCrc_of_shows hv (hvia.reference hr) hpolled

/-- In the reference environment with BOOT_CONFIG applied, `computeCRC` is CRC_A (R80 ENV-CRC). -/
theorem computeCrc_reference (hv : s.cfg.valid = true) (hi : s.port.chip.Inv s.cfg ∧ s.port.card.Inv) (hr : s.port.Reference)
    (hl : bytes.length ≤ fifoCapacity) (hf : s.cfg.mFlush ≠ 0#8) (hb : s.port.chip.booted s.cfg = true)
    (hn : ∀ e ∈ s.cfg.bootConfig, e.addr ∉ s.cfg.addresses) :
    (computeCrc bytes s).regs.crcLo = (crcA bytes).1 ∧ (computeCrc bytes s).regs.crcHi = (crcA bytes).2 := by
  rw [computeCrc_eq]
  have hshows := startPlain_shows (s := (s.withTx bytes).withRegs { s.regs with crcTo := false }) hv hi hl hf hb hn
  have hvia := startPlain_via ((s.withTx bytes).withRegs { s.regs with crcTo := false })
  simp only [State.withRegs_cfg, State.withTx_cfg, State.withRegs_tx, State.withTx_tx] at hshows
  generalize startPlain ((s.withTx bytes).withRegs { s.regs with crcTo := false }) = u at hshows hvia ⊢
  have hc : u.cfg = s.cfg := hvia.cfg_eq
  rw [← hc] at hv hshows
  exact readCrc_pollCrc_of_shows hv (hvia.reference hr) hshows

/-- Settles O51: C1 to C4 make the result registers show CRC_A, the poll leaves them, and C6 reads them. -/
theorem referenceCrcIsCrcA : Obligations.ReferenceCrcIsCrcA := by
  intro s bytes hready hinv hkind hanswers hl hf hb hn
  obtain ⟨-, -, hport, -⟩ := hinv
  obtain ⟨hlow, hhigh⟩ := computeCrc_reference hready.2 hport ⟨hkind, hanswers⟩ hl hf hb hn
  exact ⟨_, exec_body (i := .crc bytes) (fun _ => rfl) hready hl, congrArg₂ Reply.pair hlow hhigh⟩

end Sys2Proof.Machine
end

/-! SUPPORT. Format H (R91, R106): on the requests of R91 the decoder and the encoder are inverse to each other. -/
section
namespace Sys2Proof

variable {cfg : Config} {i j : Instr} {op : Byte} {rest : List Byte} {n : Nat}

theorem Byte.eq_ofNat_of_toNat (h : op.toNat = n) : op = BitVec.ofNat 8 n := by
  rw [← h, BitVec.ofNat_toNat, BitVec.setWidth_eq]

/-! The operand forms of R91: no operand, a counted byte sequence, the operands of a handshake. -/

theorem decodeNone_eq_ok (h : decodeNone j rest = .ok i) : j = i ∧ rest = [] := by
  cases rest with
  | nil => exact ⟨Except.ok.inj h, rfl⟩
  | cons b bs => cases h

/-- The length byte tells every length that fits a byte (R91). -/
theorem decodeCounted_counted (f : List Byte → Instr) {bytes : List Byte} (h : bytes.length ≤ 255) :
    decodeCounted f (counted bytes) = .ok (f bytes) := by
  have hlen : bytes.length = (BitVec.ofNat 8 bytes.length).toNat := by
    rw [BitVec.toNat_ofNat, Nat.mod_eq_of_lt (by omega)]
  exact if_pos hlen

theorem decodeCounted_eq_ok {f : List Byte → Instr} (h : decodeCounted f rest = .ok i) :
    ∃ bytes, f bytes = i ∧ rest = counted bytes := by
  cases rest with
  | nil => cases h
  | cons len bytes =>
    by_cases hlen : bytes.length = len.toNat
    · refine ⟨bytes, Except.ok.inj ((if_pos hlen).symm.trans h), ?_⟩
      rw [counted, ← Byte.eq_ofNat_of_toNat hlen.symm]
    · cases (if_neg hlen).symm.trans h

theorem decodeHandshake_append (f : List Byte → Byte → Byte → List Byte → Instr) {id key : List Byte} (slot block : Byte)
    (hi : IdentifierOk id) (hk : key.length = 6) :
    decodeHandshake f (id ++ slot :: block :: key) = .ok (f id slot block key) := by
  obtain ⟨a, b, c, d, rfl⟩ := hi
  exact if_pos hk

theorem decodeHandshake_eq_ok {f : List Byte → Byte → Byte → List Byte → Instr} (h : decodeHandshake f rest = .ok i) :
    ∃ id slot block key, f id slot block key = i ∧ rest = id ++ slot :: block :: key := by
  unfold decodeHandshake at h
  split at h
  · split at h
    · exact ⟨_, _, _, _, Except.ok.inj h, rfl⟩
    · cases h
  · cases h

/-! The whole request. -/

/-- Every operation of R91 with operands in range is read back from its bytes. -/
theorem decodeHost_encode (hf : i.format = .host) (hi : i.InRange) : decodeHost (encode cfg i) = .ok i := by
  cases i
  case rstp | reqp | acoll | poll | stopc => rfl
  case rdreg | wrreg | setb | clrb | rdblk | acenc | acdec | acsetb | acchk => rfl
  case xcv cmd out => exact decodeCounted_counted (.xcv cmd) (Nat.le_trans hi (by decide))
  case authcmd out => exact decodeCounted_counted .authcmd (Nat.le_trans hi (by decide))
  case uidchk raw => exact decodeCounted_counted .uidchk hi
  case crc bytes => exact decodeCounted_counted .crc (Nat.le_trans hi (by decide))
  case auth id slot block key =>
    obtain ⟨hid, -, hkey⟩ := hi
    exact decodeHandshake_append .auth slot block hid hkey
  case authsec id slot block key =>
    obtain ⟨hid, -, hkey⟩ := hi
    exact decodeHandshake_append .authsec slot block hid hkey
  case rdsec id slot base key =>
    obtain ⟨hid, -, hkey, -⟩ := hi
    exact decodeHandshake_append .rdsec slot base hid hkey
  case select id => exact if_pos (Machine.IdentifierOk.length_eq hi)
  case wrblk block data => exact if_pos hi
  case trunpk bytes => exact if_pos hi
  case trpack keyA c0 c1 c2 c3 user keyB =>
    obtain ⟨hA, -, hB⟩ := hi
    match keyA, hA with
    | [a0, a1, a2, a3, a4, a5], _ => exact if_pos hB
  all_goals cases hf

/-- A request that decodes is the encoding of what it decodes to: the branch taken fixes the first byte, the form of its operands the others. -/
theorem encode_of_decodeHost_cons (h : decodeHost (op :: rest) = .ok i) : encode cfg i = op :: rest ∧ i.format = .host := by
  simp only [decodeHost] at h
  split at h
  case h_26 => cases h -- no `op` of R91
  all_goals obtain rfl := Byte.eq_ofNat_of_toNat ‹op.toNat = _›
  case h_5 | h_8 | h_9 | h_11 | h_14 => -- RSTP, REQP, ACOLL, POLL, STOPC
    obtain ⟨rfl, rfl⟩ := decodeNone_eq_ok h
    exact ⟨rfl, rfl⟩
  case h_7 | h_10 | h_19 => -- AUTHCMD, UIDCHK, CRC
    obtain ⟨bytes, rfl, rfl⟩ := decodeCounted_eq_ok h
    exact ⟨rfl, rfl⟩
  case h_6 => -- XCV
    cases rest with
    | nil => cases h
    | cons cmd more =>
      obtain ⟨out, rfl, rfl⟩ := decodeCounted_eq_ok h
      exact ⟨rfl, rfl⟩
  case h_13 | h_15 | h_18 => -- AUTH, AUTHSEC, RDSEC
    obtain ⟨id, slot, block, key, rfl, rfl⟩ := decodeHandshake_eq_ok h
    exact ⟨rfl, rfl⟩
  case h_17 | h_24 => -- WRBLK, TRPACK: first the single bytes, then the length of the block or of key B
    split at h
    · split at h
      · cases h
        exact ⟨rfl, rfl⟩
      · cases h
    · cases h
  all_goals -- the others: a fixed number of bytes
    split at h
    · cases h
      exact ⟨rfl, rfl⟩
    · cases h

theorem encode_of_decodeHost {bytes : List Byte} (h : decodeHost bytes = .ok i) : encode cfg i = bytes ∧ i.format = .host := by
  cases bytes with
  | nil => cases h
  | cons op rest => exact encode_of_decodeHost_cons h

/-- Settles O2: for each form of operands the decoder reads what the encoder wrote. -/
theorem hostRequestsRoundTrip : Obligations.HostRequestsRoundTrip :=
  fun _ _ hf hi => decodeHost_encode hf hi

/-- Settles O3: for each branch of the decoder the bytes are the encoder's. -/
theorem hostDecodingLosesNothing : Obligations.HostDecodingLosesNothing :=
  fun _ _ _ h => encode_of_decodeHost h

end Sys2Proof
end

/-! SUPPORT. Formats P and K (R92, R97 to R102): the codes are read back as long as those that must tell rows apart are distinct. -/
section
namespace Sys2Proof

variable {cfg : Config} {i : Instr}

/-- A chip command is read back when no code tested before its own is the same (R92). -/
theorem decodeChip_encode (hf : i.format = .chip) (hd : cfg.commands.Nodup) : decodeChip cfg (encode cfg i) = .ok i := by
  simp only [Config.commands, List.nodup_cons, List.mem_cons, List.not_mem_nil, or_false, not_or] at hd
  obtain ⟨⟨hIdleCrc, hIdleTrans, hIdleAuth⟩, ⟨hCrcTrans, hCrcAuth⟩, hTransAuth, -⟩ := hd
  cases i
  case idle => simp [encode, decodeChip]
  case calccrc => simp [encode, decodeChip, Ne.symm hIdleCrc]
  case transceive => simp [encode, decodeChip, Ne.symm hIdleTrans, Ne.symm hCrcTrans]
  case authent => simp [encode, decodeChip, Ne.symm hIdleAuth, Ne.symm hCrcAuth, Ne.symm hTransAuth]
  all_goals cases hf

/-- An AUTHENT frame tells its slot by its code, and its key and UID bytes by their place (R100). -/
theorem decodeCard_authFrame {code block : Byte} {key uid : List Byte} (hk : key.length = 6) (hu : uid.length = 4) :
    decodeCard cfg (code :: block :: (key ++ uid)) =
      if code = cfg.kAuthA then .ok (.authA block key uid)
      else if code = cfg.kAuthB then .ok (.authB block key uid)
      else .error .unknownOp := by
  match key, hk with
  | [k0, k1, k2, k3, k4, k5], _ => simp [decodeCard, hu]

/-- A card frame is read back when the codes of the frames of its length are distinct (R97 to R102). -/
theorem decodeCard_encode (hf : i.format = .card) (hi : i.InRange) (hd : [cfg.kAnticoll, cfg.kRead, cfg.kWrite].Nodup)
    (hAB : cfg.kAuthA ≠ cfg.kAuthB) : decodeCard cfg (encode cfg i) = .ok i := by
  simp only [List.nodup_cons, List.mem_cons, List.not_mem_nil, or_false, not_or] at hd
  obtain ⟨⟨hAntiRead, hAntiWrite⟩, hReadWrite, -⟩ := hd
  cases i
  case request => simp [encode, decodeCard]
  case anticollision level => simp [encode, decodeCard, cascadeByte]
  case read block => simp [encode, decodeCard, Ne.symm hAntiRead]
  case write block => simp [encode, decodeCard, Ne.symm hAntiWrite, Ne.symm hReadWrite]
  case selectCard id =>
    obtain ⟨a, b, c, d, rfl⟩ := hi
    simp [encode, decodeCard]
  case authA block key uid =>
    obtain ⟨hk, hu⟩ := hi
    exact (decodeCard_authFrame hk hu).trans (if_pos rfl)
  case authB block key uid =>
    obtain ⟨hk, hu⟩ := hi
    exact (decodeCard_authFrame hk hu).trans ((if_neg hAB.symm).trans (if_pos rfl))
  all_goals cases hf

/-- Settles O4: chip commands by their codes, card frames by their lengths and codes. -/
theorem chipAndCardCodesRoundTrip : Obligations.ChipAndCardCodesRoundTrip :=
  fun _ _ hi => ⟨decodeChip_encode, fun hf hd hAB => decodeCard_encode hf hi hd hAB⟩

/-- Settles O1: the decoder evaluated on the words of the tables. -/
theorem sampleRequestsDecode : Obligations.SampleRequestsDecode :=
  ⟨rfl, rfl, rfl, rfl, rfl, rfl, rfl, rfl, rfl, rfl, rfl⟩

end Sys2Proof
end

/-! SUPPORT. Requests that are refused before they run (R115, R260), and operations that only give a reply (R215). -/
section
namespace Sys2Proof.Machine

variable {s : State} {i : Instr} {r : Request} {rest : List Request}

/-- Idle, with a request whose bytes do not decode, the step takes the request and refuses it (R115). -/
theorem step_of_decode_error {cause : RefuseCause} (hp : s.pc = .idle) (hi : s.inbox = r :: rest)
    (hd : decode s.cfg r.fmt r.bytes = .error cause) : step s = .next ((s.withInbox rest).refuse cause) := by
  simp [step, fetch, hp, hi, hd]

/-- Settles O5: the bytes do not decode, or they decode to the operation they encode, which then is out of range and refused at the gate. -/
theorem bytesOfNoOperationAreRefused : Obligations.BytesOfNoOperationAreRefused := by
  intro s r rest hp hi hf hnone
  cases hd : decode s.cfg r.fmt r.bytes with
  | error cause => exact ⟨cause, step_of_decode_error hp hi hd⟩
  | ok i =>
    obtain ⟨hbytes, hformat⟩ := hostDecodingLosesNothing s.cfg r.bytes i (hf ▸ hd)
    have hout : ¬ i.InRange := fun hrange => hnone i hformat hrange hbytes
    rw [stepRunsTheDecodedRequest s r rest i hp hi hd]
    exact (outOfRangeRequestsChangeNothing i { s with inbox := rest } hp).1 (.inr hout)

/-- An operation whose body only gives a reply changes nothing else (R215). -/
theorem exec_of_finish {reply : Reply} (h : ∀ s, exec i s = .next (s.serve i (·.finish reply))) (hr : s.Ready) (hi : i.InRange) :
    exec i s = .next { s with reply := reply } := by
  rw [exec_body h hr hi, finish_eq_of_open (hr.gate hi)]

/-- Key A is six bytes, so the access bytes begin at byte 6 (R113). -/
theorem unpackTrailer_append {keyA : List Byte} (hA : keyA.length = 6) (b0 b1 b2 b3 : Byte) (keyB : List Byte) :
    unpackTrailer (keyA ++ [b0, b1, b2, b3] ++ keyB) = some ⟨⟨.a, keyA⟩, decodeWord b0 b1 b2 b3, ⟨.b, keyB⟩⟩ := by
  match keyA, hA with
  | [a0, a1, a2, a3, a4, a5], _ => rfl

/-- Settles O56: TRPACK puts what ACENC gives between the keys, and TRUNPK finds there what ACDEC takes. -/
theorem packsAndUnpacksTrailers : Obligations.PacksAndUnpacksTrailers := by
  refine ⟨fun s keyA c0 c1 c2 c3 user keyB hr hi => ?_, fun s keyA keyB b0 b1 b2 b3 hr hA hB => ?_⟩
  · obtain ⟨hA, hcodes, hB⟩ := id hi
    exact ⟨encodeWord (toWord c0 c1 c2 c3 user), exec_of_finish (fun _ => rfl) hr hcodes, exec_of_finish (fun _ => rfl) hr hi,
      by simp [encodeWord, hA, hB]⟩
  · have hserves : ∀ s : State, exec (.trunpk (keyA ++ [b0, b1, b2, b3] ++ keyB)) s =
        .next (s.serve _ (·.finish (.trailer ⟨⟨.a, keyA⟩, decodeWord b0 b1 b2 b3, ⟨.b, keyB⟩⟩))) := fun s => by
      rw [exec, execTrunpk, unpackTrailer_append hA]
    exact ⟨decodeWord b0 b1 b2 b3, exec_of_finish (fun _ => rfl) hr trivial,
      exec_of_finish hserves hr (by simp [Instr.InRange, hA, hB])⟩

end Sys2Proof.Machine
end

/-! SUPPORT. The chip commands and the card frames as requests of their own (R92, R97 to R102, log 11): each is the write of its code, or the
exchange of its frame as CRC, XCV and AUTHCMD make it. -/
section
namespace Sys2Proof.Machine

variable {s : State} {frame : List Byte}

/-- Settles O58: each command is one write of its code, TRANSCEIVE's followed by the read and the write of `setBits`. -/
theorem chipCommands : Obligations.ChipCommands := by
  intro s hr
  refine ⟨⟨_, exec_body (fun _ => rfl) hr trivial, rfl, rfl, rfl⟩, ⟨_, exec_body (fun _ => rfl) hr trivial, rfl, rfl, rfl⟩,
    ⟨_, exec_body (fun _ => rfl) hr trivial, rfl, rfl, rfl⟩, ?_⟩
  refine ⟨_, (s.command s.cfg.cmdTransceive).answer s.cfg.aBitFraming, exec_body (fun _ => rfl) hr trivial, ?_, rfl, rfl⟩
  show ((s.command s.cfg.cmdTransceive).setBits s.cfg.aBitFraming s.cfg.mStartSend).port.trace = _
  rw [State.setBits_trace, State.command, State.write_trace, List.append_assoc]
  rfl

/-! What CRC, XCV and AUTHCMD do once let through, and what of it the card frames are. -/

theorem exec_xcv (cmd : Byte) (hr : s.Ready) (hl : frame.length ≤ 64) :
    exec (.xcv cmd frame) s = .next ((transceive cmd frame s).finish (transceiveResult (transceive cmd frame s))) :=
  exec_body (i := .xcv cmd frame) (fun _ => rfl) hr hl

theorem exec_crc (hr : s.Ready) (hl : frame.length ≤ 64) :
    exec (.crc frame) s =
      .next ((computeCrc frame s).finish (.pair (computeCrc frame s).regs.crcLo (computeCrc frame s).regs.crcHi)) :=
  exec_body (i := .crc frame) (fun _ => rfl) hr hl

/-- A frame without a CRC suffix is XCV of it after the write of its framing (R97, R98). -/
theorem exec_xcv_of_sendFrame (op : Instr) (framing : Byte) (hr : s.Ready) (hl : frame.length ≤ 64) :
    exec (.xcv s.cfg.cmdTransceive frame) (s.write s.cfg.aBitFraming framing) = .next (sendFrame op framing frame s) := by
  rw [exec_xcv (s := s.write s.cfg.aBitFraming framing) _ hr hl, sendFrame_eq]

/-- An AUTHENT frame is AUTHCMD of it (R100, R148). -/
theorem exec_authcmd_of_sendAuthFrame (op : Instr) (hr : s.Ready) (hl : frame.length ≤ 64) :
    exec (.authcmd frame) s = .next (sendAuthFrame op frame s) := by
  rw [exec_body (i := .authcmd frame) (fun _ => rfl) hr hl, sendAuthFrame_eq]

/-- An exchange does not see what was told before it. -/
theorem transceive_finish (cmd : Byte) (out : List Byte) (s : State) (reply : Reply) :
    transceive cmd out (s.finish reply) = (transceive cmd out s).told reply .idle := transceive_told s reply .idle cmd out

/-- A frame with a CRC suffix is CRC of it, then XCV of it with the pair (R105). -/
theorem exec_crc_xcv_of_sendFrameWithCrc (op : Instr) (hr : s.Ready) (hl : frame.length ≤ 62) :
    ∃ (u : State) (low high : Byte), exec (.crc frame) s = .next u ∧ u.reply = .pair low high ∧
      exec (.xcv s.cfg.cmdTransceive (frame ++ [low, high])) u = .next (sendFrameWithCrc op frame s) := by
  have hcfg : (computeCrc frame s).cfg = s.cfg := (computeCrc_moves s (by omega)).cfg_eq
  have hready : ∀ reply, ((computeCrc frame s).finish reply).Ready := fun _ => ⟨rfl, (congrArg Config.valid hcfg).trans hr.2⟩
  refine ⟨_, _, _, exec_crc hr (by omega), rfl, ?_⟩
  rw [exec_xcv _ (hready _) (by simp; omega), transceive_finish, State.finish_told, sendFrameWithCrc_eq, exchangeWithCrc, hcfg]
  rfl

/-- Settles O59: REQUEST and ANTICOLLISION are XCV after the write of their framing, AUTH_A and AUTH_B are AUTHCMD. -/
theorem plainCardFrames : Obligations.PlainCardFrames := by
  intro s hr
  refine ⟨⟨_, exec_body (fun _ => rfl) hr trivial, exec_xcv_of_sendFrame _ _ hr (by simp)⟩, fun level => ?_, fun block key uid hk hu => ?_⟩
  · cases level
    exact ⟨_, exec_body (fun _ => rfl) hr trivial, exec_xcv_of_sendFrame _ _ hr (by simp)⟩
  · have hl : ∀ code, ([code, block] ++ key ++ uid).length ≤ 64 := fun code => by simp [hk, hu]
    exact ⟨⟨_, exec_body (fun _ => rfl) hr ⟨hk, hu⟩, exec_authcmd_of_sendAuthFrame _ hr (hl _)⟩,
      ⟨_, exec_body (fun _ => rfl) hr ⟨hk, hu⟩, exec_authcmd_of_sendAuthFrame _ hr (hl _)⟩⟩

/-- Settles O60: SELECT_CARD, READ and WRITE each send their frame with its CRC suffix. -/
theorem suffixedCardFrames : Obligations.SuffixedCardFrames := by
  intro s i frame hr hi
  have hsends : frame.length ≤ 62 ∧ exec i s = .next (sendFrameWithCrc i frame s) := by
    obtain ⟨id, hid, rfl, rfl⟩ | ⟨block, rfl, rfl⟩ | ⟨block, rfl, rfl⟩ := hi
    · exact ⟨by simp [IdentifierOk.length_eq hid],
        exec_body (body := fun s => sendFrameWithCrc _ (selectFrame s.cfg id) s) (fun _ => rfl) hr hid⟩
    · exact ⟨by simp, exec_body (body := fun s => sendFrameWithCrc _ (readFrame s.cfg block) s) (fun _ => rfl) hr trivial⟩
    · exact ⟨by simp, exec_body (body := fun s => sendFrameWithCrc _ (writeFrame s.cfg block) s) (fun _ => rfl) hr trivial⟩
  obtain ⟨hl, hexec⟩ := hsends
  obtain ⟨u, low, high, hcrc, hpair, hxcv⟩ := exec_crc_xcv_of_sendFrameWithCrc i hr hl
  exact ⟨u, _, low, high, hcrc, hpair, hexec, hxcv⟩

end Sys2Proof.Machine
end

/-! SUPPORT. The register operations (R131 to R135): one read, one write, or a read and then a write at one address, and the reset pulse; what each
does in the model's chip (R67) and what it leaves alone. -/
section
namespace Sys2Proof.Machine

variable {s t : State} {i : Instr} {cfg : Config} {addr v mask : Byte} {a : RegAddr} {n : Nat} {p q : Port} {c : Chip}

/-! The operand as an address, and on the wire (R61, R65). -/

theorem toAddr_toNat (h : addr.toNat ≤ 0x3F) : (toAddr addr).toNat = addr.toNat := by
  rw [toAddr, BitVec.toNat_setWidth, Nat.mod_eq_of_lt (by omega)]

/-- No bit of an operand in range is lost. -/
theorem toAddr_setWidth (h : addr.toNat ≤ 0x3F) : (toAddr addr).setWidth 8 = addr := by
  apply BitVec.eq_of_toNat_eq
  rw [BitVec.toNat_setWidth, toAddr_toNat h, Nat.mod_eq_of_lt addr.isLt]

theorem wireBytes_read (h : addr.toNat ≤ 0x3F) (v : Byte) : wireBytes (.read (toAddr addr) v) = [0x80#8 ||| addr <<< 1] := by
  rw [wireBytes, wireRead, toAddr_setWidth h]

theorem wireBytes_write (h : addr.toNat ≤ 0x3F) (v : Byte) : wireBytes (.write (toAddr addr) v) = [addr <<< 1, v] := by
  rw [wireBytes, wireWrite, toAddr_setWidth h]

/-! What each operation is, once it is let through. The sequencer's call leaves nothing behind. -/

theorem exec_rdreg (hr : s.Ready) (ha : addr.toNat ≤ 0x3F) :
    exec (.rdreg addr) s = .next ((s.afterRead (toAddr addr)).finish (.byte (s.answer (toAddr addr)))) :=
  exec_body (body := readRegister addr) (fun _ => rfl) hr ha

theorem exec_wrreg (hr : s.Ready) (ha : addr.toNat ≤ 0x3F) :
    exec (.wrreg addr v) s = .next ((s.write (toAddr addr) v).finish .done) :=
  exec_body (body := writeRegister addr v) (fun _ => rfl) hr ha

theorem exec_setb (hr : s.Ready) (ha : addr.toNat ≤ 0x3F) :
    exec (.setb addr mask) s = .next ((s.setBits (toAddr addr) mask).finish .done) :=
  exec_body (body := fun s => (s.setBits (toAddr addr) mask).finish .done) (fun _ => rfl) hr ha

theorem exec_clrb (hr : s.Ready) (ha : addr.toNat ≤ 0x3F) :
    exec (.clrb addr mask) s = .next ((s.clearBits (toAddr addr) mask).finish .done) :=
  exec_body (body := fun s => (s.clearBits (toAddr addr) mask).finish .done) (fun _ => rfl) hr ha

/-- An operand out of range is refused, and nothing but the reply changes (R260). -/
theorem exec_refuses (hr : s.Ready) (hi : ¬ i.InRange) : ∃ cause, exec i s = .next { s with reply := .refused cause } :=
  (outOfRangeRequestsChangeNothing i s hr.1).1 (.inr hi)

/-- The script's head is what a read returns, and its tail what is left (R62). -/
theorem State.read_script {w : Byte} {rest : List Byte} (a : RegAddr) (h : s.port.answers = w :: rest) :
    s.answer a = w ∧ s.port.answers.tail = rest :=
  ⟨State.answer_of_script s a h, by rw [h, List.tail_cons]⟩

/-- A read of the FIFO port removes its oldest byte (R32, R67). -/
theorem Chip.afterRead_fifoData (cfg : Config) (c : Chip) : (c.afterRead cfg cfg.aFifoData).fifo = c.fifo.tail := by
  rw [Chip.afterRead, if_pos rfl]

/-! What a write does in the model's chip (R31, R32, R33, R36; log 14). -/

/-- Outside CALC-CRC a byte is queued last, as long as there is room (R32, R75). -/
theorem Chip.push_fifo_of_queueing (h : c.get cfg cfg.aCommand ≠ cfg.cmdCalcCrc) :
    (c.push cfg n v).fifo = if c.fifo.length < 64 then c.fifo ++ [v] else c.fifo := by
  have hcalc : ¬ c.calculating cfg = true := fun e => h (beq_iff_eq.1 e)
  rw [Chip.push, if_neg hcalc]
  exact apply_ite Chip.fifo _ _ _

/-- While CALC-CRC is active a byte enters the running CRC and is not queued (R36). -/
theorem Chip.push_of_calculating (h : c.get cfg cfg.aCommand = cfg.cmdCalcCrc) : c.push cfg n v = c.absorb cfg n [v] :=
  if_pos (beq_iff_eq.2 h)

/-- M_FLUSH written to the level register flushes the FIFO (R33, R67). -/
theorem State.write_fifoLevel_chip (hv : s.cfg.valid = true) (hf : v &&& s.cfg.mFlush ≠ 0#8) :
    (s.write s.cfg.aFifoLevel v).port.chip = s.port.chip.flush s.cfg := by
  show (afterWrite s.cfg _ _ _ _ _).1 = _
  rw [afterWrite, if_neg (Config.distinct hv).fifoLevel_fifoData, if_pos rfl, if_pos (anyBit_eq_true.2 hf)]

/-- The status-2 register is none of those a write treats before it. -/
theorem Config.status2_distinct (h : cfg.valid = true) :
    cfg.aStatus2 ≠ cfg.aFifoData ∧ cfg.aStatus2 ≠ cfg.aFifoLevel ∧ cfg.aStatus2 ≠ cfg.aComIrq ∧ cfg.aStatus2 ≠ cfg.aDivIrq := by
  simp only [Config.valid, Config.addresses, Bool.and_eq_true, decide_eq_true_eq, List.nodup_cons, List.mem_cons, not_or] at h
  grind

/-- What status-2 reads after a write to it. -/
theorem State.write_status2_get (hv : s.cfg.valid = true) (hi : s.port.chip.Inv s.cfg) :
    (s.write s.cfg.aStatus2 v).port.chip.get s.cfg s.cfg.aStatus2 =
      status2AfterWrite s.cfg (s.port.chip.get s.cfg s.cfg.aStatus2) v := by
  obtain ⟨hfifo, hlevel, hcom, hdiv⟩ := Config.status2_distinct hv
  show Chip.get _ (afterWrite s.cfg _ _ _ _ _).1 _ = _
  rw [afterWrite, if_neg hfifo, if_neg hlevel, if_neg hcom, if_neg hdiv, if_pos rfl]
  exact Chip.get_put_self _ _ _ hi

/-- A bit of status-2 after a write, from the bits before it, written, and named by the configuration. -/
theorem status2AfterWrite_getLsbD (old : Byte) {k : Nat} (hk : k < 8) :
    (status2AfterWrite cfg old v).getLsbD k =
      if cfg.mCrypto1On.getLsbD k then v.getLsbD k && old.getLsbD k else if k < 3 then old.getLsbD k else v.getLsbD k := by
  have hlow : (0x07#8).getLsbD k = decide (k < 3) := by interval_cases k <;> rfl
  simp only [status2AfterWrite, modemState, BitVec.getLsbD_or, BitVec.getLsbD_and, BitVec.getLsbD_not, hlow, hk]
  cases cfg.mCrypto1On.getLsbD k <;> by_cases h : k < 3 <;> simp [h]

/-- The crypto1-on bit written clear is clear (R31). -/
theorem status2AfterWrite_crypto (old : Byte) (h : v &&& cfg.mCrypto1On = 0#8) :
    status2AfterWrite cfg old v &&& cfg.mCrypto1On = 0#8 := by
  apply BitVec.eq_of_getLsbD_eq
  intro k hk
  have hbit : (v.getLsbD k && cfg.mCrypto1On.getLsbD k) = false := by rw [← BitVec.getLsbD_and, h, BitVec.getLsbD_zero]
  rw [BitVec.getLsbD_and, status2AfterWrite_getLsbD old hk, BitVec.getLsbD_zero]
  cases hm : cfg.mCrypto1On.getLsbD k with
  | false => exact Bool.and_false _
  | true =>
    have hv : v.getLsbD k = false := by simpa [hm] using hbit
    simp [hv]

/-- `ModemState` keeps its bits (R31). -/
theorem status2AfterWrite_modemState (old : Byte) {k : Nat} (hk : k < 3) (h : cfg.mCrypto1On.getLsbD k = false) :
    (status2AfterWrite cfg old v).getLsbD k = old.getLsbD k := by
  simp [status2AfterWrite_getLsbD old (show k < 8 by omega), h, hk]

/-! What accesses at one register leave alone (R37, R67; logs 14, 15, 30). -/

/-- What is left alone beyond the port: the card's bytes but a waiting block's, the registers but `a` and the twelve, and, for `a` outside the
twelve, everything but the register `a`. -/
structure Port.FrameAt (cfg : Config) (a : RegAddr) (p q : Port) : Prop where
  card : ∀ x, (∀ b, a = cfg.aBitFraming ∨ a = cfg.aCommand → p.card.writing = some b → Outside b x) → q.card.get x = p.card.get x
  register : ∀ b, b ∉ cfg.addresses → b ≠ a → q.chip.get cfg b = p.chip.get cfg b
  outside : a ∉ cfg.addresses → q.card = p.card ∧ q.chip.fifo = p.chip.fifo ∧ q.chip.crc = p.chip.crc ∧
    q.chip.comFlags = p.chip.comFlags ∧ q.chip.divFlags = p.chip.divFlags ∧ ∀ b, b ≠ a → q.chip.get cfg b = p.chip.get cfg b

theorem Port.FrameAt.refl (cfg : Config) (a : RegAddr) (p : Port) : p.FrameAt cfg a p :=
  ⟨fun _ _ => rfl, fun _ _ _ => rfl, fun _ => ⟨rfl, rfl, rfl, rfl, rfl, fun _ _ => rfl⟩⟩

/-- A write at `a` has the frame: the card is reached through the bit framing and the command only. -/
theorem Port.afterWrite_frameAt (cfg : Config) (a : RegAddr) (v : Byte) (p : Port) : p.FrameAt cfg a (p.afterWrite cfg a v) where
  card x hx := by
    by_cases ha : a = cfg.aBitFraming ∨ a = cfg.aCommand
    · exact (afterWrite_moves cfg _ a v p.chip p.card).get x fun b => hx b ha
    · obtain ⟨hframing, hcommand⟩ := not_or.1 ha
      exact congrArg (Card.get · x) (afterWrite_card cfg _ v p.chip p.card hcommand hframing)
  register b hb hne := afterWrite_get cfg _ v p.chip p.card hb hne
  outside ha := by
    rw [Port.afterWrite, afterWrite_of_notMem ha]
    exact ⟨rfl, rfl, rfl, rfl, rfl, fun b hne => Chip.get_put_ne cfg v p.chip hne⟩

/-- A read at `a` before accesses with the frame keeps it: it reaches no card, and outside the twelve it changes nothing in the chip. -/
theorem Port.FrameAt.of_afterRead (h : (p.afterRead cfg a).FrameAt cfg a q) : p.FrameAt cfg a q where
  card := h.card
  register b hb hne := (h.register b hb hne).trans (Chip.afterRead_get cfg a b p.chip hne)
  outside ha := by
    have hchip : (p.afterRead cfg a).chip = p.chip := Chip.afterRead_of_notMem ha p.chip
    have houtside := h.outside ha
    rwa [hchip] at houtside

/-- The accesses of a register operation at its address: a read, a write, or a read and then a write (R131 to R134). -/
inductive State.Accesses (a : RegAddr) (s : State) : State → Prop
  | read : Accesses a s (s.afterRead a)
  | write (v : Byte) : Accesses a s (s.write a v)
  | readWrite (v : Byte) : Accesses a s ((s.afterRead a).write a v)

theorem State.Accesses.buffers (h : s.Accesses a t) : t.regs = s.regs ∧ t.tx = s.tx ∧ t.rx = s.rx := by
  cases h <;> exact ⟨rfl, rfl, rfl⟩

theorem State.Accesses.frameAt (h : s.Accesses a t) : s.port.FrameAt s.cfg a t.port := by
  cases h with
  | read => exact .of_afterRead (.refl ..)
  | write v => exact Port.afterWrite_frameAt ..
  | readWrite v => exact .of_afterRead (Port.afterWrite_frameAt ..)

/-- The four register operations that name an address (R131 to R134). -/
def AccessesRegister (addr : Byte) (i : Instr) : Prop :=
  i = .rdreg addr ∨ (∃ v, i = .wrreg addr v) ∨ (∃ m, i = .setb addr m) ∨ ∃ m, i = .clrb addr m

/-- Each of the four, let through, makes its accesses and gives its reply. -/
theorem exec_accesses (hi : AccessesRegister addr i) (hg : s.gate i = none) (h : exec i s = .next t) :
    ∃ u reply, s.Accesses (toAddr addr) u ∧ t = u.finish reply := by
  obtain rfl | ⟨v, rfl⟩ | ⟨m, rfl⟩ | ⟨m, rfl⟩ := hi <;> obtain rfl := exec_open rfl hg h
  · exact ⟨_, _, .read, rfl⟩
  · exact ⟨_, _, .write v, rfl⟩
  · exact ⟨_, _, .readWrite (s.answer (toAddr addr) ||| m), rfl⟩
  · exact ⟨_, _, .readWrite (s.answer (toAddr addr) &&& ~~~m), rfl⟩

end Sys2Proof.Machine

/-! The statements, in a namespace of their own: `Sys2Proof.Machine` has operations of these names. -/
namespace Sys2Proof.RegisterPort
open Sys2Proof.Machine

/-- Settles O25: a refused request changes the reply alone; one let through, its accesses at the one address. -/
theorem registerPortFrame : Obligations.RegisterPortFrame := by
  intro i addr s t hi h
  obtain ⟨hcfg, hinbox, hline, hdeadlines⟩ := exec_static h
  have hlocal : t.regs = s.regs ∧ t.tx = s.tx ∧ t.rx = s.rx ∧ t.pc = s.pc ∧ s.port.FrameAt s.cfg (toAddr addr) t.port := by
    obtain ⟨cause, rfl⟩ | hg := exec_refused_or_open h
    · exact ⟨rfl, rfl, rfl, rfl, .refl ..⟩
    · obtain ⟨u, reply, ha, rfl⟩ := exec_accesses hi hg h
      obtain ⟨hregs, htx, hrx⟩ := ha.buffers
      obtain ⟨hpc, -, -⟩ := (State.gate_eq_none s).1 hg
      exact ⟨hregs, htx, hrx, hpc.symm, ha.frameAt⟩
  obtain ⟨hregs, htx, hrx, hpc, hframe⟩ := hlocal
  have hne : i ≠ .rstp ∧ i ≠ .poll := by
    obtain rfl | ⟨_, rfl⟩ | ⟨_, rfl⟩ | ⟨_, rfl⟩ := hi <;> exact ⟨nofun, nofun⟩
  exact ⟨hregs, htx, hrx, hcfg, hinbox, hpc, hline hne.1, hdeadlines hne.2, hframe.card, hframe.register, hframe.outside⟩

/-- Settles O21: the operation is one read at its address. -/
theorem readRegister : Obligations.ReadRegister := by
  intro s addr hr
  refine ⟨rfl, fun ha => ?_, fun ha => exec_refuses hr (Nat.not_le.2 ha)⟩
  refine ⟨_, exec_rdreg hr ha, toAddr_toNat ha, rfl, rfl, fun w rest => State.read_script _, fun hfifo => ?_, wireBytes_read ha,
    rfl, rfl, rfl, rfl⟩
  show (s.port.chip.afterRead s.cfg (toAddr addr)).fifo = _
  rw [hfifo, Chip.afterRead_fifoData]

/-- Settles O22: the operation is one write at its address, and the chip's part is that of the register written. -/
theorem writeRegister : Obligations.WriteRegister := by
  intro s addr value hr
  refine ⟨rfl, fun ha => ?_, fun ha => exec_refuses hr (Nat.not_le.2 ha)⟩
  refine ⟨_, exec_wrreg hr ha, toAddr_toNat ha, rfl, rfl, rfl, wireBytes_write ha _, rfl, rfl, rfl, rfl, ?_⟩
  simp only [State.finish_port]
  refine ⟨fun he hc => ?_, fun he hc => ?_, fun he hf => ?_, fun he hs => ?_⟩
  · rw [he, State.write_fifoData_chip, Chip.push_fifo_of_queueing hc]
  · rw [he, State.write_fifoData_chip, Chip.push_of_calculating hc]
    exact ⟨rfl, rfl⟩
  · rw [he, State.write_fifoLevel_chip hr.2 hf]
    exact ⟨rfl, rfl⟩
  · obtain ⟨-, -, ⟨hchip, -⟩, -⟩ := hs
    rw [he, State.write_status2_get hr.2 hchip]
    exact ⟨status2AfterWrite_crypto _, fun k => status2AfterWrite_modemState _⟩

/-- Settles O23: the operations are `setBits` and `clearBits` at their address. -/
theorem setAndClearBits : Obligations.SetAndClearBits := by
  intro s addr mask hr ha
  refine ⟨rfl, rfl, ?_, ?_⟩
  · exact ⟨_, _, exec_setb hr ha, rfl, State.setBits_trace s _ _, fun w rest => State.read_script _, rfl, rfl, rfl, rfl⟩
  · have hmask : 0xFF#8 ^^^ mask = ~~~mask := BitVec.allOnes_xor
    rw [hmask]
    exact ⟨_, _, exec_clrb hr ha, rfl, State.clearBits_trace s _ _, fun w rest => State.read_script _, rfl, rfl, rfl, rfl⟩

/-- Settles O24: the pulse is two events of the line, neither a transaction. -/
theorem resetPulse : Obligations.ResetPulse := by
  intro s hr
  refine ⟨_, exec_body (body := Machine.resetPulse) (fun _ => rfl) hr trivial, rfl, rfl, rfl, rfl, ?_, rfl, rfl, rfl, rfl, rfl, rfl, rfl⟩
  show transactions (s.port.trace ++ [.line .low, .line .high]) = transactions s.port.trace
  simp [transactions, Event.isTransaction]

end Sys2Proof.RegisterPort
end

/-! SUPPORT. The transceiver engine (R140 to R150): which bytes of the script its reads are, what each of its steps leaves in the working
registers, and how many transactions the six steps make. -/
section
namespace Sys2Proof.Machine

variable {s t : State} {cfg : Config} {cmd : Byte} {out bytes : List Byte} {events : List Event}

/-! Traces: the values read, the reads of one register, the transactions. -/

@[simp] theorem readValues_map_read (a : RegAddr) (l : List Byte) : readValues (l.map fun v => .read a v) = l := by
  induction l with
  | nil => rfl
  | cons v l ih => exact congrArg (v :: ·) ih

@[simp] theorem readValues_map_write (a : RegAddr) (l : List Byte) : readValues (l.map fun v => .write a v) = [] := by
  induction l with
  | nil => rfl
  | cons v l ih => exact ih

@[simp] theorem readsOf_nil (a : RegAddr) : readsOf a [] = 0 := rfl

@[simp] theorem readsOf_append (a : RegAddr) (es fs : List Event) : readsOf a (es ++ fs) = readsOf a es + readsOf a fs :=
  List.countP_append

@[simp] theorem readsOf_read (a b : RegAddr) (v : Byte) (es : List Event) :
    readsOf a (.read b v :: es) = readsOf a es + if b = a then 1 else 0 := by
  simp [readsOf, List.countP_cons]

@[simp] theorem readsOf_write (a b : RegAddr) (v : Byte) (es : List Event) : readsOf a (.write b v :: es) = readsOf a es :=
  List.countP_cons_of_neg Bool.false_ne_true

@[simp] theorem readsOf_map_read (a b : RegAddr) (l : List Byte) :
    readsOf a (l.map fun v => .read b v) = if b = a then l.length else 0 := by
  induction l with
  | nil => simp
  | cons v l ih =>
    rw [List.map_cons, readsOf_read, ih]
    split <;> simp

@[simp] theorem readsOf_map_write (a b : RegAddr) (l : List Byte) : readsOf a (l.map fun v => .write b v) = 0 := by
  induction l with
  | nil => rfl
  | cons v l ih => rw [List.map_cons, readsOf_write, ih]

@[simp] theorem transactions_nil : transactions [] = 0 := rfl

@[simp] theorem transactions_append (es fs : List Event) : transactions (es ++ fs) = transactions es + transactions fs :=
  List.countP_append

@[simp] theorem transactions_read (a : RegAddr) (v : Byte) (es : List Event) : transactions (.read a v :: es) = transactions es + 1 :=
  List.countP_cons_of_pos rfl

@[simp] theorem transactions_write (a : RegAddr) (v : Byte) (es : List Event) : transactions (.write a v :: es) = transactions es + 1 :=
  List.countP_cons_of_pos rfl

@[simp] theorem transactions_map_read (a : RegAddr) (l : List Byte) : transactions (l.map fun v => .read a v) = l.length := by
  induction l with
  | nil => rfl
  | cons v l ih => rw [List.map_cons, transactions_read, ih, List.length_cons]

@[simp] theorem transactions_map_write (a : RegAddr) (l : List Byte) : transactions (l.map fun v => .write a v) = l.length := by
  induction l with
  | nil => rfl
  | cons v l ih => rw [List.map_cons, transactions_write, ih, List.length_cons]

/-! The script: what is known of the trace says which of its bytes were read (R62). -/

/-- The values read, in order, are taken from the head of the script, as long as it lasts. -/
theorem Port.FollowsScript.reads {p q : Port} (h : p.FollowsScript q) (ht : q.trace = p.trace ++ events) :
    q.answers = p.answers.drop (readValues events).length ∧ p.answers.take (readValues events).length <+: readValues events := by
  obtain ⟨events', htrace, hanswers, hread⟩ := h
  cases List.append_cancel_left (ht.symm.trans htrace)
  exact ⟨hanswers, hread⟩

/-- A script that lasts answers every read. -/
theorem Port.FollowsScript.reads_of_le {p q : Port} (h : p.FollowsScript q) (ht : q.trace = p.trace ++ events)
    (hl : (readValues events).length ≤ p.answers.length) :
    readValues events = p.answers.take (readValues events).length ∧ q.answers = p.answers.drop (readValues events).length := by
  obtain ⟨hanswers, hread⟩ := h.reads ht
  exact ⟨(hread.eq_of_length (List.length_take_of_le hl)).symm, hanswers⟩

/-! T1: the masks (R141). -/

theorem enableMask_authent (cfg : Config) : enableMask cfg cfg.cmdAuthent = 0x12#8 := if_pos rfl

theorem waitMask_authent (cfg : Config) : waitMask cfg cfg.cmdAuthent = 0x10#8 := if_pos rfl

theorem enableMask_transceive (h : cmd ≠ cfg.cmdAuthent) (h' : cmd = cfg.cmdTransceive) : enableMask cfg cmd = 0x77#8 := by
  rw [enableMask, if_neg h, if_pos h']

theorem waitMask_transceive (h : cmd ≠ cfg.cmdAuthent) (h' : cmd = cfg.cmdTransceive) : waitMask cfg cmd = 0x30#8 := by
  rw [waitMask, if_neg h, if_pos h']

theorem enableMask_other (h : cmd ≠ cfg.cmdAuthent) (h' : cmd ≠ cfg.cmdTransceive) : enableMask cfg cmd = 0x00#8 := by
  rw [enableMask, if_neg h, if_neg h']

theorem waitMask_other (h : cmd ≠ cfg.cmdAuthent) (h' : cmd ≠ cfg.cmdTransceive) : waitMask cfg cmd = 0x00#8 := by
  rw [waitMask, if_neg h, if_neg h']

/-! T3: what ends the poll (R144). -/

theorem endsPoll_eq_false {v wait : Byte} : endsPoll v wait = false ↔ v &&& 0x01#8 = 0#8 ∧ v &&& wait = 0#8 := by
  rw [endsPoll, Bool.or_eq_false_iff, anyBit_eq_false, anyBit_eq_false, mTimer]

theorem endsPoll_eq_true {v wait : Byte} : endsPoll v wait = true ↔ v &&& 0x01#8 ≠ 0#8 ∨ v &&& wait ≠ 0#8 := by
  rw [endsPoll, Bool.or_eq_true, anyBit_eq_true, anyBit_eq_true, mTimer]

/-! T5: status and cause (R146). -/

section
variable {n irqen e : Byte}

theorem transceiveOutcome_masked (he : e &&& 0x1B#8 ≠ 0#8) : transceiveOutcome n irqen e = (.error, .chipError) :=
  if_pos (anyBit_eq_true.2 he)

theorem transceiveOutcome_timer (he : e &&& 0x1B#8 = 0#8) (hn : n &&& irqen &&& 0x01#8 ≠ 0#8) :
    transceiveOutcome n irqen e = (.noTag, .timer) :=
  (if_neg fun h => anyBit_eq_true.1 h he).trans (if_pos (anyBit_eq_true.2 hn))

theorem transceiveOutcome_ok (he : e &&& 0x1B#8 = 0#8) (hn : n &&& irqen &&& 0x01#8 = 0#8) :
    transceiveOutcome n irqen e = (.ok, .none) :=
  (if_neg fun h => anyBit_eq_true.1 h he).trans (if_neg fun h => anyBit_eq_true.1 h hn)

/-- An error is a masked error bit, told with its cause. -/
theorem transceiveOutcome_error (h : (transceiveOutcome n irqen e).1 = .error) : (transceiveOutcome n irqen e).2 = .chipError := by
  by_cases he : e &&& 0x1B#8 = 0#8
  · by_cases hn : n &&& irqen &&& 0x01#8 = 0#8
    · rw [transceiveOutcome_ok he hn] at h
      cases h
    · rw [transceiveOutcome_timer he hn] at h
      cases h
  · rw [transceiveOutcome_masked he]

/-- Where the timer bit is not enabled, the timer makes no NO_TAG. -/
theorem transceiveOutcome_ne_noTag (hn : n &&& irqen &&& 0x01#8 = 0#8) : (transceiveOutcome n irqen e).1 ≠ .noTag := by
  by_cases he : e &&& 0x1B#8 = 0#8
  · rw [transceiveOutcome_ok he hn]
    decide
  · rw [transceiveOutcome_masked he]
    decide

end

/-- The masks of AUTHENT and of the commands that wait for nothing do not enable the timer bit. -/
theorem timer_disabled {irqen : Byte} (h : irqen = 0x12#8 ∨ irqen = 0x00#8) (n : Byte) : n &&& irqen &&& 0x01#8 = 0#8 := by
  have hmask : irqen &&& 0x01#8 = 0#8 := by obtain rfl | rfl := h <;> rfl
  rw [BitVec.and_assoc, hmask, BitVec.and_zero]

/-- T5 and T6 when the loop was not exhausted: the status decides whether T6 is run. -/
theorem concludeTransceive_of_ne_zero (hi : s.regs.i ≠ 0#11) : concludeTransceive cmd s =
    if (decideStatus s).regs.status ≠ .error ∧ cmd = s.cfg.cmdTransceive then receive ((decideStatus (s.goto 5)).goto 6)
    else decideStatus (s.goto 5) := if_neg hi

/-! T6: lengths and drain (R147). -/

theorem lastBits_toNat (control : Byte) : (lastBits control).toNat = (control &&& 0x07#8).toNat := by
  rw [lastBits, BitVec.toNat_setWidth, BitVec.toNat_and]
  exact (Nat.and_two_pow_sub_one_eq_mod control.toNat 3).symm

theorem drainCount_eq (level : Byte) :
    drainCount level = if level.toNat = 0 then 1 else if 16 < level.toNat then 16 else level.toNat := by
  rw [drainCount, maxLen]
  split
  · omega
  · split <;> omega

/-- T6 with the samples it takes: the level and the control register, and from them the lengths; then the drain. -/
theorem receive_samples (s : State) : ∃ (level control : Byte) (bytes : List Byte),
    (receive s).port.trace = s.port.trace ++ ([.read s.cfg.aFifoLevel level, .read s.cfg.aControl control] ++
      bytes.map (fun b => Event.read s.cfg.aFifoData b)) ∧
    bytes.length = drainCount level ∧ (receive s).rx = s.rx ++ bytes ∧
    (receive s).regs = { s.regs with
      lvl := level, lb := lastBits control, bitLen := BitVec.ofInt 12 (answerBits level (lastBits control)) } := by
  obtain ⟨bytes, hlen, hrx, htrace, -, -, hregs⟩ := (sampleLengths s).drainFifo_spec (drainCount (sampleLengths s).regs.lvl)
  refine ⟨s.answer s.cfg.aFifoLevel, (s.afterRead s.cfg.aFifoLevel).answer s.cfg.aControl, bytes, htrace.trans ?_, hlen, hrx, hregs⟩
  simp only [sampleLengths, State.withRegs_port, State.withRegs_cfg, State.afterRead_trace, State.afterRead_cfg, List.append_assoc,
    List.cons_append, List.nil_append]

/-! The six steps as a whole. -/

/-- T5 and T6: nothing on exhaustion; T5 alone after a masked error or under another command; else T5 and the drain. -/
theorem concludePlain_cases (cmd : Byte) (s : State) :
    (s.regs.i = 0#11 ∧ concludePlain cmd s = s) ∨
    (concludePlain cmd s = decideStatus s ∧ ((decideStatus s).regs.cause = .chipError ∨ cmd ≠ s.cfg.cmdTransceive)) ∨
    concludePlain cmd s = receive (decideStatus s) := by
  by_cases hi : s.regs.i = 0#11
  · exact .inl ⟨hi, if_pos hi⟩
  have hne : concludePlain cmd s =
      if (decideStatus s).regs.status ≠ .error ∧ cmd = s.cfg.cmdTransceive then receive (decideStatus s) else decideStatus s := if_neg hi
  by_cases hst : (decideStatus s).regs.status = .error
  · exact .inr (.inl ⟨hne.trans (if_neg fun h => h.1 hst), .inl (transceiveOutcome_error hst)⟩)
  by_cases hT : cmd = s.cfg.cmdTransceive
  · exact .inr (.inr (hne.trans (if_pos ⟨hst, hT⟩)))
  · exact .inr (.inl ⟨hne.trans (if_neg fun h => hT h.2), .inr hT⟩)

/-- A TRANSCEIVE that ends without an error leaves in `x[LVL]` the level it read, and has drained by it (R147). -/
theorem transceive_level (hT : cmd = s.cfg.cmdTransceive) (hex : (transceive cmd out s).regs.cause ≠ .exhausted)
    (hce : (transceive cmd out s).regs.cause ≠ .chipError) (ht : (transceive cmd out s).port.trace = s.port.trace ++ events) :
    Event.read s.cfg.aFifoLevel (transceive cmd out s).regs.lvl ∈ events ∧
    (transceive cmd out s).rx.length = drainCount (transceive cmd out s).regs.lvl := by
  obtain ⟨irq, lvl, frm, samples, last, frm', -, -, -, htrace, hvia, hregs, hrx, -, -, -⟩ := runPlain_spec s cmd out
  rw [transceive_eq] at hex hce ht ⊢
  obtain ⟨-, hc⟩ | ⟨hc, hout⟩ | hc := concludePlain_cases cmd (runPlain cmd out s) <;> rw [hc] at hex hce ht ⊢
  · exact absurd (congrArg Regs.cause hregs) hex
  · exact (hout.elim hce fun h => h (hT.trans (congrArg Config.cmdTransceive hvia.cfg_eq.symm))).elim
  · obtain ⟨level, control, bytes, htr, hlen, hbytes, hr⟩ := receive_samples (decideStatus (runPlain cmd out s))
    have hpre : (decideStatus (runPlain cmd out s)).port.trace = (runPlain cmd out s).port.trace ++
        [.read (runPlain cmd out s).cfg.aError ((runPlain cmd out s).answer (runPlain cmd out s).cfg.aError)] := rfl
    have hcfg : (decideStatus (runPlain cmd out s)).cfg = s.cfg := hvia.cfg_eq
    rw [ht, hpre, htrace, hcfg, List.append_assoc, List.append_assoc] at htr
    rw [List.append_cancel_left htr, hr, hbytes, show (decideStatus (runPlain cmd out s)).rx = [] from hrx]
    exact ⟨by simp, hlen⟩

/-- Of the registers the engine reads, none other is the interrupt-status register in a valid configuration (R61). -/
theorem Config.ne_comIrq {cfg : Config} (h : cfg.valid = true) : cfg.aFifoLevel ≠ cfg.aComIrq ∧ cfg.aBitFraming ≠ cfg.aComIrq ∧
    cfg.aError ≠ cfg.aComIrq ∧ cfg.aControl ≠ cfg.aComIrq ∧ cfg.aFifoData ≠ cfg.aComIrq := by
  have hnodup : cfg.addresses.Nodup := by simp only [Config.valid, Bool.and_eq_true, decide_eq_true_eq] at h; exact h.1
  simp only [Config.addresses, List.nodup_cons, List.mem_cons, not_or] at hnodup
  obtain ⟨-, -, ⟨-, herror, -, hfifo, hlevel, hcontrol, hframing, -⟩, -⟩ := hnodup
  exact ⟨Ne.symm hlevel, Ne.symm hframing, Ne.symm herror, Ne.symm hcontrol, Ne.symm hfifo⟩

/-- AUTHCMD is the six steps under AUTHENT, with the status told (R148). -/
theorem exec_authcmd (hr : s.Ready) (hl : out.length ≤ 64) : exec (.authcmd out) s =
    .next ((transceive s.cfg.cmdAuthent out s).finish (.status (transceive s.cfg.cmdAuthent out s).regs.status)) := by
  rw [exec_body (i := .authcmd out) (fun _ => rfl) hr hl, authenticateCommand_eq]

variable {status : Status} {cause : Cause} {bitLen : Int}

/-- T2 reads the interrupt-status register once; TRANSCEIVE's start send is two transactions more (R142, R143). -/
theorem openingTrace_counts (hv : cfg.valid = true) (cmd : Byte) (out : List Byte) (irq lvl frm : Byte) :
    readsOf cfg.aComIrq (openingTrace cfg cmd out irq lvl frm) = 1 ∧
    transactions (openingTrace cfg cmd out irq lvl frm) = out.length + if cmd = cfg.cmdTransceive then 9 else 7 := by
  obtain ⟨hlevel, hframing, -⟩ := Config.ne_comIrq hv
  rw [openingTrace]
  split
  · exact ⟨by simp [hlevel, hframing], by simp⟩
  · exact ⟨by simp [hlevel], by simp⟩

/-- T3 reads the interrupt-status register once a sample, and T4 not at all (R144, R145). -/
theorem pollTrace_counts (hv : cfg.valid = true) (samples : List Byte) (frm : Byte) :
    readsOf cfg.aComIrq (pollTrace cfg samples frm) = samples.length ∧ transactions (pollTrace cfg samples frm) = samples.length + 2 := by
  obtain ⟨-, hframing, -⟩ := Config.ne_comIrq hv
  exact ⟨by simp [pollTrace, hframing], by simp [pollTrace]⟩

/-- The transactions of a `transceive`, counted (R150): T2, the `r` polls, T4, and the reads after them by how it ended. -/
theorem XcvTranscript.counts (hv : cfg.valid = true) (h : XcvTranscript cfg cmd out events status cause bytes bitLen) :
    ∃ r, readsOf cfg.aComIrq events = r + 1 ∧ 1 ≤ r ∧ r ≤ 2000 ∧ (cause = .exhausted ↔ r = 2000) ∧
      transactions events =
        if cmd = cfg.cmdTransceive then
          if cause = .exhausted then 2011 + out.length
          else if cause = .chipError then 12 + out.length + r
          else 14 + out.length + r + bytes.length
        else if cause = .exhausted then 2009 + out.length else 10 + out.length + r := by
  obtain ⟨hlevel, -, herror, hcontrol, hfifo⟩ := Config.ne_comIrq hv
  obtain ⟨irq, lvl, frm, samples, last, frm', tail, rfl, -, hend⟩ := h
  have htail : samples.length + 1 ≤ 2000 ∧ (cause = .exhausted ↔ samples.length + 1 = 2000) ∧ readsOf cfg.aComIrq tail = 0 ∧
      transactions tail =
        if cause = .exhausted then 0 else if cmd = cfg.cmdTransceive ∧ cause ≠ .chipError then 3 + bytes.length else 1 := by
    obtain ⟨hn, rfl, -, rfl, -⟩ | ⟨hn, -, e, ⟨-, rfl, -, rfl, -⟩ | ⟨-, hcause, hdrain⟩⟩ := hend
    · exact ⟨hn.le, by simp [hn], rfl, by simp⟩
    · exact ⟨hn.le, by simp [hn.ne], by simp [herror], by simp⟩
    have hne : cause ≠ .exhausted ∧ cause ≠ .chipError := by
      split at hcause <;> obtain ⟨-, rfl⟩ := hcause <;> exact ⟨nofun, nofun⟩
    obtain ⟨hT, rfl, -⟩ | ⟨hT, level, control, rfl, -⟩ := hdrain
    · exact ⟨hn.le, by simp [hne, hn.ne], by simp [herror], by simp [hne, hT]⟩
    · exact ⟨hn.le, by simp [hne, hn.ne], by simp [herror, hlevel, hcontrol, hfifo], by simp [hne, hT]; omega⟩
  obtain ⟨hle, hiff, htailReads, htailCount⟩ := htail
  obtain ⟨hopenReads, hopenCount⟩ := openingTrace_counts hv cmd out irq lvl frm
  obtain ⟨hpollReads, hpollCount⟩ := pollTrace_counts hv (samples ++ [last]) frm'
  rw [List.length_append, List.length_singleton] at hpollReads hpollCount
  refine ⟨samples.length + 1, ?_, Nat.succ_le_succ (Nat.zero_le _), hle, hiff, ?_⟩
  · rw [readsOf_append, readsOf_append, hopenReads, hpollReads, htailReads]
    omega
  · rw [transactions_append, transactions_append, hopenCount, hpollCount, htailCount]
    by_cases hx : cause = .exhausted
    · have hr := hiff.1 hx
      simp only [hx, if_true]
      split <;> omega
    · by_cases hT : cmd = cfg.cmdTransceive <;> simp only [hx, hT, if_true, if_false, true_and, false_and, ne_eq, ite_not]
      · split <;> omega
      · omega

/-- Bytes are drained under TRANSCEIVE without an error only (R147, R148). -/
theorem XcvTranscript.nothing_received (h : XcvTranscript cfg cmd out events status cause bytes bitLen)
    (hc : ¬ (cmd = cfg.cmdTransceive ∧ cause ≠ .exhausted ∧ cause ≠ .chipError)) : bytes = [] ∧ bitLen = 0 := by
  obtain ⟨irq, lvl, frm, samples, last, frm', tail, -, -, hend⟩ := h
  obtain ⟨-, -, -, -, hb⟩ | ⟨-, -, e, ⟨-, -, -, -, hb⟩ | ⟨-, hcause, ⟨-, -, hb⟩ | ⟨hT, -⟩⟩⟩ := hend
  · exact hb
  · exact hb
  · exact hb
  · refine absurd ⟨hT, ?_⟩ hc
    split at hcause <;> obtain ⟨-, rfl⟩ := hcause <;> exact ⟨nofun, nofun⟩

/-- Under a mask that does not enable the timer bit the status is never NO_TAG (R146, R148). -/
theorem XcvTranscript.ne_noTag (h : XcvTranscript cfg cmd out events status cause bytes bitLen)
    (hm : enableMask cfg cmd = 0x12#8 ∨ enableMask cfg cmd = 0x00#8) : status ≠ .noTag := by
  obtain ⟨irq, lvl, frm, samples, last, frm', tail, -, -, hend⟩ := h
  obtain ⟨-, -, rfl, -⟩ | ⟨-, -, e, ⟨-, -, rfl, -⟩ | ⟨-, hstatus, -⟩⟩ := hend
  · nofun
  · nofun
  · rw [if_neg (not_not.2 (timer_disabled hm last))] at hstatus
    obtain ⟨rfl, -⟩ := hstatus
    nofun

end Sys2Proof.Machine

/-! The statements, in a namespace of their own: `Sys2Proof.Machine` has an operation of one of these names. -/
namespace Sys2Proof.Transceiver
open Sys2Proof.Machine

/-- Settles O26: the masks are chosen by the command byte, and T1 makes no access. -/
theorem selectsMasks : Obligations.SelectsMasks := by
  intro cmd s
  refine ⟨?_, fun h h' => ⟨enableMask_transceive h h', waitMask_transceive h h'⟩,
    fun h h' => ⟨enableMask_other h h', waitMask_other h h'⟩, rfl, rfl, rfl, rfl, rfl⟩
  rintro rfl
  exact ⟨enableMask_authent s.cfg, waitMask_authent s.cfg⟩

/-- Settles O27: the trace is `armAndFlush_trace`, the script answers its two reads; the armed values are those of the default masks. -/
theorem armsAndFlushes : Obligations.ArmsAndFlushes := by
  refine ⟨fun s => ?_, fun s hc => ?_⟩
  · obtain ⟨irq, lvl, htrace⟩ := armAndFlush_trace s
    obtain ⟨hquiet, hregs, hrx⟩ := armAndFlush_quiet s
    refine ⟨irq, lvl, htrace, fun v w rest ha => ?_, hregs, hquiet.tx, hrx⟩
    obtain ⟨hanswers, hread⟩ := (armAndFlush_via s).followsScript.reads htrace
    simp only [ha, readValues, List.length_cons, List.length_nil, List.take_succ_cons, List.take_zero, List.cons_prefix_cons] at hread
    obtain ⟨rfl, rfl, -⟩ := hread
    rw [ha] at hanswers
    exact ⟨rfl, rfl, hanswers⟩
  · show enableMask s.cfg _ ||| s.cfg.mIrqInv = _ ∧ enableMask s.cfg _ ||| s.cfg.mIrqInv = _ ∧
      ∀ cmd, _ → _ → enableMask s.cfg cmd ||| s.cfg.mIrqInv = _
    rw [hc]
    exact ⟨rfl, rfl, fun cmd h h' => by rw [enableMask_other h h']; rfl⟩

/-- Settles O28: the trace is `issueCommand_trace`, the script answers its one read. -/
theorem loadsAndIssues : Obligations.LoadsAndIssues := by
  intro cmd s
  obtain ⟨frm, htrace⟩ := issueCommand_trace s cmd
  obtain ⟨hquiet, hregs, hrx⟩ := issueCommand_quiet s cmd
  refine ⟨frm, htrace, fun v rest hT ha => ?_, hregs, hquiet.tx, hrx⟩
  rw [if_pos hT, List.append_assoc, List.append_assoc] at htrace
  obtain ⟨hanswers, hread⟩ := (issueCommand_via s cmd).followsScript.reads htrace
  simp only [ha, readValues_append, readValues_map_write, readValues, List.nil_append, List.length_cons, List.length_nil,
    List.take_succ_cons, List.take_zero, List.cons_prefix_cons] at hanswers hread
  obtain ⟨rfl, -⟩ := hread
  exact ⟨rfl, hanswers⟩

/-- Settles O29: the loop started from a counter of 2000 (`pollIrqLoop_spec`), the script answering its samples. -/
theorem pollsInterruptStatus : Obligations.PollsInterruptStatus := by
  intro s
  obtain ⟨samples, last, hle, hsamples, hlast, hregs, htrace, hvia, hquiet, hrx⟩ :=
    pollIrqLoop_spec (s.withRegs { s.regs with i := BitVec.ofNat 11 pollBudget }) pollBudget (by decide) (Nat.le_refl _) rfl
  change (pollIrq s).regs = _ at hregs
  have hi : (pollIrq s).regs.i.toNat = 2000 - (samples.length + 1) := by
    rw [hregs]
    exact Nat.mod_eq_of_lt (by simp only [pollBudget]; omega)
  refine ⟨samples, last, hle, fun v hv => endsPoll_eq_false.1 (hsamples v hv), hlast.imp_right endsPoll_eq_true.1, by rw [hregs], hi,
    by rw [hregs]; rfl, hquiet.tx, hrx, htrace, fun hl => ?_⟩
  have hscript := hvia.followsScript.reads_of_le htrace
  rw [readValues_map_read, List.length_append, List.length_singleton] at hscript
  exact hscript hl

/-- Settles O30: T4 is `clearBits` of the start-send bit. -/
theorem clearsStartSend : Obligations.ClearsStartSend :=
  fun s => ⟨s.answer s.cfg.aBitFraming, State.clearBits_trace s _ _, rfl, rfl, rfl⟩

/-- Settles O31: the outcome is `transceiveOutcome` of the sample, the enable mask and the error register, and T6 follows by it. -/
theorem decidesStatus : Obligations.DecidesStatus := by
  intro cmd s
  have houtcome : ((decideStatus s).regs.status, (decideStatus s).regs.cause) =
      transceiveOutcome s.regs.n s.regs.irqen (s.answer s.cfg.aError) := rfl
  refine ⟨fun hi => if_pos hi, fun hm _ => transceiveOutcome_ne_noTag (timer_disabled hm _), fun hi => ?_⟩
  refine ⟨s.answer s.cfg.aError, rfl, rfl, fun v rest => State.read_script _, fun he => ?_, fun he hn => ?_, fun he hn => ?_,
    fun hT => ?_, fun hT hst => ?_, rfl⟩
  · obtain ⟨hstatus, hcause⟩ := Prod.mk.inj (houtcome.trans (transceiveOutcome_masked he))
    exact ⟨hstatus, hcause, (concludeTransceive_of_ne_zero hi).trans (if_neg fun h => h.1 hstatus)⟩
  · exact Prod.mk.inj (houtcome.trans (transceiveOutcome_timer he hn))
  · exact Prod.mk.inj (houtcome.trans (transceiveOutcome_ok he hn))
  · exact (concludeTransceive_of_ne_zero hi).trans (if_neg fun h => hT h.2)
  · exact (concludeTransceive_of_ne_zero hi).trans (if_pos ⟨hst, hT⟩)

/-- Settles O32: the samples of `receive_samples`, whose lengths the registers hold exactly. -/
theorem measuresAndDrains : Obligations.MeasuresAndDrains := by
  intro s hrx
  obtain ⟨level, control, bytes, htrace, hlen, hbytes, hregs⟩ := receive_samples s
  obtain ⟨_, _, _, -, -, -, -, hvia, hquiet, -, -⟩ := receive_spec s
  rw [hrx, List.nil_append] at hbytes
  have hbitLen : (receive s).regs.bitLen.toInt = bitLength level control := by
    rw [hregs]
    exact bitLength_toInt level control
  refine ⟨level, control, bytes, by rw [htrace, List.append_assoc], fun v w rest ha => ?_, by rw [hregs], ?_, fun hc => ?_, fun hc => ?_,
    hlen.trans (drainCount_eq level), hbytes, ?_, hquiet.tx, by rw [hregs]⟩
  · obtain ⟨hanswers, hread⟩ := hvia.followsScript.reads htrace
    simp only [ha, readValues, readValues_map_read, List.cons_append, List.nil_append, List.length_cons,
      List.take_succ_cons, List.drop_succ_cons, List.cons_prefix_cons] at hanswers hread
    obtain ⟨rfl, rfl, hread⟩ := hread
    exact ⟨rfl, rfl, fun hl => ⟨(hread.eq_of_length (List.length_take_of_le hl)).symm, hanswers⟩⟩
  · rw [hregs]
    exact lastBits_toNat control
  · rw [hbitLen, bitLength, if_pos hc]
  · rw [hbitLen, bitLength, if_neg (not_not.2 hc)]
  · rw [State.rxCnt, hbytes, BitVec.toNat_ofNat]
    have hbounds := drainCount_bounds level
    omega

/-- Settles O33: what `transceive_spec` says of the six steps, once the request is let through. -/
theorem transceiveTranscript : Obligations.TransceiveTranscript := by
  intro s cmd out hr hl
  obtain ⟨⟨events, htrace, hscript⟩, -, hquiet, -⟩ := transceive_spec s cmd out
  exact ⟨_, events, _, exec_xcv cmd hr hl, htrace, hscript, rfl, rfl, hquiet.tx, rfl⟩

/-- Settles O34: AUTHCMD runs XCV's six steps under AUTHENT, whose mask does not enable the timer bit. -/
theorem authenticateCommand : Obligations.AuthenticateCommand := by
  intro s out hr hl
  obtain ⟨⟨events, htrace, hscript⟩, -, -, -⟩ := transceive_spec s s.cfg.cmdAuthent out
  have hT : s.cfg.cmdAuthent ≠ s.cfg.cmdTransceive := (Config.valid_commands hr.2).1
  obtain ⟨hrx, hbitLen⟩ := hscript.nothing_received fun h => hT h.1
  obtain ⟨r, hreads, hpos, hle, hex, hcount⟩ := hscript.counts hr.2
  have hsum : transactions events =
      6 + out.length + 1 + r + 2 + if (transceive s.cfg.cmdAuthent out s).regs.cause = .exhausted then 0 else 1 := by
    rw [hcount, if_neg hT]
    split
    next hx => have hr := hex.1 hx; omega
    next => omega
  refine ⟨_, _, events, r, exec_xcv _ hr hl, exec_authcmd hr hl, htrace, hreads, rfl, hscript.ne_noTag (.inl (enableMask_authent s.cfg)), hrx,
    BitVec.eq_of_toInt_eq hbitLen, hpos, hle, hex, ?_⟩
  rw [State.finish_port, htrace, transactions_append, hsum]
  rfl

/-- Settles O35: the counts of the transcript, and the level register, which holds the level the drain went by. -/
theorem transactionCounts : Obligations.TransactionCounts := by
  intro s t cmd out hr hl h
  cases (exec_xcv cmd hr hl).symm.trans h
  obtain ⟨⟨events, htrace, hscript⟩, -, -, -⟩ := transceive_spec s cmd out
  obtain ⟨r, hreads, hpos, hle, hex, hcount⟩ := hscript.counts hr.2
  refine ⟨events, r, htrace, hreads, hpos, hle, hex, ?_, ?_⟩
  · split
    next hd => exact transceive_level hd.1 hd.2.1 hd.2.2 htrace
    next hd => exact (hscript.nothing_received hd).1
  · rw [State.finish_port, htrace, transactions_append, hcount]
    rfl

end Sys2Proof.Transceiver
end

/-! SUPPORT. Anti-collision and presence (R161 to R164): REQP and ACOLL are an exchange followed by tests that change its status and cause alone,
UIDCHK is a test of its operand, and an attempt of POLL is the three in turn. -/
section
namespace Sys2Proof.Machine

variable {s t u : State} {cfg : Config} {cmd : Byte} {out bytes : List Byte} {events : List Event} {status : Status} {cause : Cause}
  {bitLen : Int}

/-! A test on an answer (R243): at most the status and the cause are changed. -/

/-- `t` is `s` with another status and cause, if any. -/
def State.Judged (s t : State) : Prop := t = s.raise t.regs.status t.regs.cause

theorem State.Judged.trans (h : s.Judged t) (g : t.Judged u) : s.Judged u := by
  rw [State.Judged] at h g ⊢
  rw [h] at g
  exact g

theorem State.demoteUnless_judged (s : State) (test : Bool) (st : Status) (c : Cause) : s.Judged (s.demoteUnless test st c) := by
  unfold State.demoteUnless
  split <;> rfl

theorem State.Judged.rx_eq (h : s.Judged t) : t.rx = s.rx := by
  rw [State.Judged] at h
  rw [h, State.raise_rx]

/-- What a judged state leaves once its result is told, seen from the state before with another result told. -/
theorem State.Judged.finish_eq (h : s.Judged t) (r r' : Reply) : t.finish r = { s.finish r' with
    regs := { (s.finish r').regs with status := t.regs.status, cause := t.regs.cause }, reply := r } :=
  congrArg (State.finish · r) h

/-! The exchange before the tests. -/

/-- An exchange that ends OK has no cause (R146, R237). -/
theorem XcvTranscript.cause_of_ok (h : XcvTranscript cfg cmd out events status cause bytes bitLen) (hs : status = .ok) : cause = .none := by
  obtain ⟨irq, lvl, frm, samples, last, frm', tail, -, -, hend⟩ := h
  subst hs
  obtain ⟨-, -, ⟨⟩, -⟩ | ⟨-, -, e, ⟨-, -, ⟨⟩, -⟩ | ⟨-, houtcome, -⟩⟩ := hend
  split at houtcome
  · obtain ⟨⟨⟩, -⟩ := houtcome
  · exact houtcome.2

theorem transceive_cause_of_ok (h : (transceive cmd out s).regs.status = .ok) : (transceive cmd out s).regs.cause = .none := by
  obtain ⟨⟨events, -, hscript⟩, -⟩ := transceive_spec s cmd out
  exact hscript.cause_of_ok h

/-- REQP's exchange: the short framing, then the REQUEST frame (R161). -/
def requestExchange (s : State) : State :=
  transceive s.cfg.cmdTransceive (requestFrame s.cfg) (s.write s.cfg.aBitFraming s.cfg.framingShort)

/-- ACOLL's exchange: the byte framing, then the ANTICOLLISION frame (R162). -/
def uidExchange (s : State) : State :=
  transceive s.cfg.cmdTransceive (anticollisionFrame s.cfg .one) (s.write s.cfg.aBitFraming s.cfg.framingByte)

/-- REQP's exchange is XCV of the REQUEST code after the write of its framing. -/
theorem exec_xcv_request (hr : s.Ready) : exec (.xcv s.cfg.cmdTransceive [s.cfg.kRequest]) (s.write s.cfg.aBitFraming s.cfg.framingShort) =
    .next ((requestExchange s).finish (transceiveResult (requestExchange s))) :=
  exec_xcv (s := s.write s.cfg.aBitFraming s.cfg.framingShort) _ hr (by simp)

/-- ACOLL's exchange is XCV of the ANTICOLLISION frame after the write of its framing. -/
theorem exec_xcv_anticollision (hr : s.Ready) :
    exec (.xcv s.cfg.cmdTransceive [s.cfg.kAnticoll, s.cfg.kCascade]) (s.write s.cfg.aBitFraming s.cfg.framingByte) =
      .next ((uidExchange s).finish (transceiveResult (uidExchange s))) :=
  exec_xcv (s := s.write s.cfg.aBitFraming s.cfg.framingByte) _ hr (by simp)

/-! REQP, by what its exchange answered (R161). -/

theorem requestPresence_eq_demoteUnless (s : State) : requestPresence s =
    (requestExchange s).demoteUnless ((requestExchange s).regs.bitLen == atqaBits) .noTag .lengthMismatch := requestPresence_eq s

theorem requestPresence_judged (s : State) : (requestExchange s).Judged (requestPresence s) := by
  rw [requestPresence_eq_demoteUnless]
  exact State.demoteUnless_judged _ _ _ _

theorem atqaBits_iff (b : BitVec 12) : (b == atqaBits) = true ↔ b.toInt = 16 := by
  rw [beq_iff_eq, ← BitVec.toInt_inj]
  rfl

theorem requestPresence_of_not_ok (h : (requestExchange s).regs.status ≠ .ok) : requestPresence s = requestExchange s := by
  rw [requestPresence_eq_demoteUnless, State.demoteUnless_not_ok h]

theorem requestPresence_of_bits (h : (requestExchange s).regs.bitLen.toInt = 16) : requestPresence s = requestExchange s := by
  rw [requestPresence_eq_demoteUnless, State.demoteUnless_holds ((atqaBits_iff _).2 h)]

theorem requestPresence_of_wrong_bits (h : (requestExchange s).regs.status = .ok) (hb : (requestExchange s).regs.bitLen.toInt ≠ 16) :
    requestPresence s = (requestExchange s).raise .noTag .lengthMismatch := by
  rw [requestPresence_eq_demoteUnless, State.demoteUnless_fails h (Bool.eq_false_iff.2 (mt (atqaBits_iff _).1 hb))]

/-! ACOLL, by what its exchange answered (R162): the count is tested first, then the checksum. -/

/-- ACOLL's exchange after the first of its tests. -/
def uidCounted (s : State) : State :=
  (uidExchange s).demoteUnless ((uidExchange s).rx.length == uidRespBytes) .error .lengthMismatch

theorem resolveUid_eq_demoteUnless (s : State) : resolveUid s =
    (uidCounted s).demoteUnless (checksumOk (uidCounted s).rx) .error .checksumMismatch := resolveUid_eq s

theorem resolveUid_judged (s : State) : (uidExchange s).Judged (resolveUid s) := by
  rw [resolveUid_eq_demoteUnless]
  exact (State.demoteUnless_judged _ _ _ _).trans (State.demoteUnless_judged _ _ _ _)

theorem uidCounted_of_count (h : (uidExchange s).rx.length = 5) : uidCounted s = uidExchange s :=
  State.demoteUnless_holds (beq_iff_eq.2 h)

theorem resolveUid_of_not_ok (h : (uidExchange s).regs.status ≠ .ok) : resolveUid s = uidExchange s := by
  have hcounted : uidCounted s = uidExchange s := State.demoteUnless_not_ok h
  rw [resolveUid_eq_demoteUnless, hcounted, State.demoteUnless_not_ok h]

theorem resolveUid_of_wrong_count (h : (uidExchange s).regs.status = .ok) (hl : (uidExchange s).rx.length ≠ 5) :
    resolveUid s = (uidExchange s).raise .error .lengthMismatch := by
  have hcounted : uidCounted s = (uidExchange s).raise .error .lengthMismatch := State.demoteUnless_fails h (beq_eq_false_iff_ne.2 hl)
  rw [resolveUid_eq_demoteUnless, hcounted, State.demoteUnless_not_ok (by rw [State.raise_status]; nofun)]

theorem resolveUid_of_wrong_checksum (h : (uidExchange s).regs.status = .ok) (hl : (uidExchange s).rx.length = 5)
    (hc : checksumOk (uidExchange s).rx = false) : resolveUid s = (uidExchange s).raise .error .checksumMismatch := by
  rw [resolveUid_eq_demoteUnless, uidCounted_of_count hl, State.demoteUnless_fails h hc]

theorem resolveUid_of_checksum (hl : (uidExchange s).rx.length = 5) (hc : checksumOk (uidExchange s).rx = true) :
    resolveUid s = uidExchange s := by
  rw [resolveUid_eq_demoteUnless, uidCounted_of_count hl, State.demoteUnless_holds hc]

/-- ACOLL ends OK only with five bytes and their checksum (R162). -/
theorem resolveUid_ok (h : (resolveUid s).regs.status = .ok) : (resolveUid s).rx.length = 5 ∧ checksumOk (resolveUid s).rx = true := by
  by_cases hs : (uidExchange s).regs.status = .ok
  · by_cases hl : (uidExchange s).rx.length = 5
    · cases hc : checksumOk (uidExchange s).rx with
      | true =>
        rw [resolveUid_of_checksum hl hc]
        exact ⟨hl, hc⟩
      | false =>
        rw [resolveUid_of_wrong_checksum hs hl hc] at h
        cases h
    · rw [resolveUid_of_wrong_count hs hl] at h
      cases h
  · rw [resolveUid_of_not_ok hs] at h
    exact absurd h hs

/-! UIDCHK, by the length and the checksum of its operand (R163). -/

theorem checksumOk_append (uid : List Byte) (x : Byte) : checksumOk (uid ++ [x]) = true ↔ xorAll uid = x := by
  rw [checksumOk, List.getLast?_concat, List.dropLast_concat, beq_iff_eq, Option.some.injEq, eq_comm]

theorem identifierReply_of_checksum (hl : bytes.length = 5 ∨ bytes.length = 8) (hc : checksumOk bytes = true) :
    identifierReply bytes = .identifier bytes := by
  have hlength : ¬ (bytes.length ≠ 5 ∧ bytes.length ≠ 8) := by omega
  rw [identifierReply, identifierFailure, if_neg hlength, if_pos hc]

theorem identifierReply_of_wrong_checksum (hl : bytes.length = 5 ∨ bytes.length = 8) (hc : ¬ checksumOk bytes = true) :
    identifierReply bytes = .fail .checksumMismatch := by
  have hlength : ¬ (bytes.length ≠ 5 ∧ bytes.length ≠ 8) := by omega
  rw [identifierReply, identifierFailure, if_neg hlength, if_neg hc]

theorem identifierReply_of_wrong_length (h5 : bytes.length ≠ 5) (h8 : bytes.length ≠ 8) : identifierReply bytes = .fail .badLength := by
  rw [identifierReply, identifierFailure, if_pos ⟨h5, h8⟩]

/-- The bytes ACOLL ends OK with are an identifier (R162, R163). -/
theorem identifierReply_resolveUid (h : (resolveUid s).regs.status = .ok) :
    identifierReply (resolveUid s).rx = .identifier (resolveUid s).rx := by
  obtain ⟨hl, hc⟩ := resolveUid_ok h
  exact identifierReply_of_checksum (.inl hl) hc

/-! POLL, by how far its attempt came (R164). -/

/-- A failed attempt draws the deadline once, and ends POLL or stays in it (R164). -/
theorem retryOrEnd_eq_fields (s : State) : retryOrEnd s = { s with
    pc := if s.port.deadline then .idle else .poll, reply := if s.port.deadline then .noCard else .pending,
    port := { s.port with deadlines := s.port.deadlines.tail, draws := s.port.draws + 1 } } := by
  unfold retryOrEnd
  cases s.port.deadline <;> rfl

/-- What a failed attempt leaves, seen from the state in which the failed operation's result was told. -/
theorem retryOrEnd_eq_fields_of_finish (s : State) (reply : Reply) : retryOrEnd s = { s.finish reply with
    pc := if (s.finish reply).port.deadline then .idle else .poll,
    reply := if (s.finish reply).port.deadline then .noCard else .pending,
    port := { (s.finish reply).port with
      deadlines := (s.finish reply).port.deadlines.tail, draws := (s.finish reply).port.draws + 1 } } := by
  rw [← retryOrEnd_told s reply .idle, retryOrEnd_eq_fields, State.finish_eq_told]

/-- What an identifier told leaves, seen from the state in which the last operation's result was told. -/
theorem State.finish_identifier_eq_of_finish (s : State) (reply : Reply) :
    s.finish (.identifier s.rx) = { s.finish reply with reply := .identifier (s.finish reply).rx } := rfl

/-- The deadline's script is drawn from before its free values (R164, R256). -/
theorem Port.deadline_of_script {p : Port} {d : Bool} {rest : List Bool} (h : p.deadlines = d :: rest) : p.deadline = d := by
  rw [Port.deadline, h]

theorem pollAttempt_of_no_tag (h : (requestPresence s).regs.status ≠ .ok) : pollAttempt s = retryOrEnd (requestPresence s) := by
  rw [pollAttempt_eq]
  exact if_neg h

theorem pollAttempt_of_no_uid (h : (requestPresence s).regs.status = .ok) (hu : (resolveUid (requestPresence s)).regs.status ≠ .ok) :
    pollAttempt s = retryOrEnd (resolveUid (requestPresence s)) := by
  rw [pollAttempt_eq]
  exact (if_pos h).trans (if_neg hu)

theorem pollAttempt_of_uid (h : (requestPresence s).regs.status = .ok) (hu : (resolveUid (requestPresence s)).regs.status = .ok) :
    pollAttempt s = (resolveUid (requestPresence s)).finish (.identifier (resolveUid (requestPresence s)).rx) := by
  rw [pollAttempt_eq, ← identifierReply_resolveUid hu]
  exact (if_pos h).trans (if_pos hu)

/-- Inside POLL, when no request waits or the oldest one waits for its turn, the step is an attempt (R164, R259; log 10). -/
theorem step_of_poll (hp : s.pc = .poll) (hi : ∀ r rest, s.inbox = r :: rest → r.waits = true) : step s = .next (pollAttempt s) := by
  have hfetch : fetch s = goOn .poll := by
    cases hb : s.inbox with
    | nil => simp [fetch, hp, hb, Pc.poll]
    | cons r rest => simp [fetch, hp, hb, Pc.poll, hi r rest hb]
  rw [step, hfetch]
  rfl

/-! What the operations do once let through. -/

theorem exec_reqp (hr : s.Ready) : exec .reqp s = .next ((requestPresence s).finish (.status (requestPresence s).regs.status)) :=
  exec_body (i := .reqp) (fun _ => rfl) hr trivial

theorem exec_acoll (hr : s.Ready) :
    exec .acoll s = .next ((resolveUid s).finish (.statusBytes (resolveUid s).regs.status (resolveUid s).rx)) :=
  exec_body (i := .acoll) (fun _ => rfl) hr trivial

theorem exec_poll (hr : s.Ready) : exec .poll s = .next (pollAttempt s) := exec_body (i := .poll) (fun _ => rfl) hr trivial

theorem exec_uidchk (hr : s.Ready) (hl : bytes.length ≤ 255) :
    exec (.uidchk bytes) s = .next { s with reply := identifierReply bytes } :=
  exec_of_finish (i := .uidchk bytes) (fun _ => rfl) hr hl

/-- ACOLL after an operation does not see what that one told. -/
theorem exec_acoll_finish {reply : Reply} (hv : s.cfg.valid = true) : exec .acoll (s.finish reply) =
    .next ((resolveUid s).finish (.statusBytes (resolveUid s).regs.status (resolveUid s).rx)) := by
  rw [exec_acoll (s := s.finish reply) ⟨rfl, hv⟩, State.finish_eq_told s, resolveUid_told, State.finish_told, State.told_regs,
    State.told_rx]


end Sys2Proof.Machine

/-! The statements, in a namespace of their own: `Sys2Proof.Machine` has operations of these names. -/
namespace Sys2Proof.Anticollision
open Sys2Proof.Machine

/-- Settles O38: the tests change status and cause alone, and the bit length decides them. -/
theorem requestPresence : Obligations.RequestPresence := by
  intro s hr
  refine ⟨_, _, _, _, exec_xcv_request hr, rfl, exec_reqp hr,
    (requestPresence_judged s).finish_eq _ _, ?_⟩
  simp only [State.finish_regs]
  refine ⟨fun hs => ?_, fun hs hb => ?_, fun hs hb => ?_⟩
  · rw [requestPresence_of_not_ok hs]
    exact ⟨rfl, rfl⟩
  · rw [requestPresence_of_bits hb]
    exact ⟨hs, transceive_cause_of_ok hs⟩
  · rw [requestPresence_of_wrong_bits hs hb]
    exact ⟨rfl, rfl⟩

/-- Settles O39: the tests change status and cause alone; the count decides first, then the checksum. -/
theorem resolveUid : Obligations.ResolveUid := by
  intro s hr
  have hexec := exec_acoll hr
  rw [(resolveUid_judged s).rx_eq, ← State.finish_rx (uidExchange s) (transceiveResult (uidExchange s))] at hexec
  refine ⟨rfl, _, _, _, _, exec_xcv_anticollision hr, rfl, hexec, (resolveUid_judged s).finish_eq _ _, ?_⟩
  simp only [State.finish_regs, State.finish_rx]
  refine ⟨fun hs => ?_, fun hs hl => ?_, fun hs a b c d e hb hx => ?_, fun hs a b c d e hb hx => ?_⟩
  · rw [resolveUid_of_not_ok hs]
    exact ⟨rfl, rfl⟩
  · rw [resolveUid_of_wrong_count hs hl]
    exact ⟨rfl, rfl⟩
  · rw [resolveUid_of_checksum (congrArg List.length hb) ((congrArg checksumOk hb).trans ((checksumOk_five a b c d e).2 hx.symm))]
    exact ⟨hs, transceive_cause_of_ok hs⟩
  · rw [resolveUid_of_wrong_checksum hs (congrArg List.length hb)
      ((congrArg checksumOk hb).trans (Bool.eq_false_iff.2 fun h => hx ((checksumOk_five a b c d e).1 h).symm))]
    exact ⟨rfl, rfl⟩

/-- Settles O40: UIDCHK tells `identifierReply` of its operand and does nothing else. -/
theorem constructIdentifier : Obligations.ConstructIdentifier := by
  intro s raw hr hl
  refine ⟨hostRequestsRoundTrip s.cfg (.uidchk raw) rfl hl, fun h5 h8 => ?_, ?_⟩
  · rw [exec_uidchk hr hl, identifierReply_of_wrong_length h5 h8]
  · rintro uid x rfl hu
    have hlength : (uid ++ [x]).length = 5 ∨ (uid ++ [x]).length = 8 := by
      rw [List.length_append, List.length_singleton]
      omega
    refine ⟨fun hx => ?_, fun hx => ?_⟩
    · rw [exec_uidchk hr hl, identifierReply_of_checksum hlength ((checksumOk_append uid x).2 hx)]
    · rw [exec_uidchk hr hl, identifierReply_of_wrong_checksum hlength (mt (checksumOk_append uid x).1 hx)]

/-- Settles O41: by whether REQP and then ACOLL ended OK; neither ACOLL nor the deadline sees what REQP told. -/
theorem pollAttempt : Obligations.PollAttempt := by
  intro s hr
  have hv : (Machine.requestPresence s).cfg.valid = true := (congrArg Config.valid (requestPresence_moves s).cfg_eq).trans hr.2
  refine ⟨_, _, exec_reqp hr, exec_poll hr, fun hs => ⟨_, exec_acoll_finish hv, fun hu => ?_, fun hu => ?_⟩, fun hs => ?_,
    fun d rest => Port.deadline_of_script⟩
  · rw [State.finish_regs] at hs hu
    rw [pollAttempt_of_uid hs hu]
    exact State.finish_identifier_eq_of_finish _ _
  · rw [State.finish_regs] at hs hu
    rw [pollAttempt_of_no_uid hs hu]
    exact retryOrEnd_eq_fields_of_finish _ _
  · rw [State.finish_regs] at hs
    rw [pollAttempt_of_no_tag hs]
    exact retryOrEnd_eq_fields_of_finish _ _

/-- Settles O10: the step is an attempt, which does not look at the sequencer. -/
theorem pollGoesOn : Obligations.PollGoesOn := by
  intro s hp hv hi
  rw [step_of_poll hp hi, exec_poll (s := { s with pc := .idle }) ⟨rfl, hv⟩]
  exact congrArg Host.Outcome.next (pollAttempt_told s s.reply .idle).symm

end Sys2Proof.Anticollision
end

/-! SUPPORT. Authentication (R175 to R181): SELECT is an exchange with CRC whose length is tested, AUTH an exchange under AUTHENT whose crypto1-on bit
is tested; AUTHSEC is the two in turn. -/
section
namespace Sys2Proof.Machine

variable {s : State} {id out frame key : List Byte} {slot : Slot} {block : Byte}

/-- A test on an answer changes status and cause alone: both of an OK that fails it, neither otherwise (R243). -/
theorem State.demoteUnless_eq_raise (s : State) (test : Bool) (status : Status) (cause : Cause) :
    ∃ st ca, s.demoteUnless test status cause = s.raise st ca ∧
      (s.regs.status = .ok → test = false → st = status ∧ ca = cause) ∧
      (s.regs.status ≠ .ok ∨ test = true → st = s.regs.status ∧ ca = s.regs.cause) := by
  by_cases h : s.regs.status = .ok ∧ test = false
  · refine ⟨status, cause, if_pos h, fun _ _ => ⟨rfl, rfl⟩, fun hn => ?_⟩
    exact hn.elim (absurd h.1) fun ht => absurd (h.2.symm.trans ht) Bool.false_ne_true
  · exact ⟨s.regs.status, s.regs.cause, if_neg h, fun hs ht => absurd ⟨hs, ht⟩ h, fun _ => ⟨rfl, rfl⟩⟩

/-! SELECT: the exchange (R176). -/

/-- An exchange under TRANSCEIVE that ends OK has drained at least one byte (R147). -/
theorem transceive_rx_ne_nil (h : (transceive s.cfg.cmdTransceive out s).regs.status = .ok) :
    (transceive s.cfg.cmdTransceive out s).rx ≠ [] := by
  have hcause := transceive_cause_of_ok h
  obtain ⟨⟨events, htrace, -⟩, -⟩ := transceive_spec s s.cfg.cmdTransceive out
  obtain ⟨-, hlen⟩ := transceive_level rfl (by rw [hcause]; nofun) (by rw [hcause]; nofun) htrace
  have hpos := (drainCount_bounds (transceive s.cfg.cmdTransceive out s).regs.lvl).1
  exact List.ne_nil_of_length_pos (by omega)

theorem exchangeWithCrc_of_ok (h : (exchangeWithCrc frame s).regs.status = .ok) :
    (exchangeWithCrc frame s).regs.cause = .none ∧ (exchangeWithCrc frame s).rx ≠ [] :=
  ⟨transceive_cause_of_ok h, transceive_rx_ne_nil h⟩

/-- SELECT's exchange: its frame with the CRC of the frame (R99, R176). -/
def selectExchange (id : List Byte) (s : State) : State := exchangeWithCrc (selectFrame s.cfg id) s

/-- SELECT's exchange is CRC of its frame, then XCV of the frame with the pair. -/
theorem exec_crc_xcv_select (hr : s.Ready) (hid : IdentifierOk id) :
    ∃ (u : State) (low high : Byte), exec (.crc ([s.cfg.kSelect, 0x70#8] ++ id)) s = .next u ∧ u.reply = .pair low high ∧
      exec (.xcv s.cfg.cmdTransceive ([s.cfg.kSelect, 0x70#8] ++ id ++ [low, high])) u =
        .next ((selectExchange id s).finish (transceiveResult (selectExchange id s))) := by
  have hl : ([s.cfg.kSelect, 0x70#8] ++ id).length ≤ 62 := by simp [IdentifierOk.length_eq hid]
  exact sendFrameWithCrc_eq s (.select id) (selectFrame s.cfg id) ▸ exec_crc_xcv_of_sendFrameWithCrc (.select id) hr hl

theorem exec_select (hr : s.Ready) (hid : IdentifierOk id) :
    exec (.select id) s = .next ((selectCard id s).finish (.byte (selectAck (selectCard id s)))) :=
  exec_body (i := .select id) (fun _ => rfl) hr hid

/-! SELECT, by what its exchange answered (R176). -/

theorem sakBits_iff (b : BitVec 12) : b = sakBits ↔ b.toInt = 24 := by
  rw [← BitVec.toInt_inj]
  rfl

/-- SELECT keeps the status of its exchange, and takes a cause for an OK with a length other than 24 bits. -/
theorem selectCard_eq_raise (id : List Byte) (s : State) :
    ∃ ca, selectCard id s = (selectExchange id s).raise (selectExchange id s).regs.status ca ∧
      ((selectExchange id s).regs.status = .ok → (selectExchange id s).regs.bitLen.toInt ≠ 24 → ca = .lengthMismatch) ∧
      ((selectExchange id s).regs.status ≠ .ok ∨ (selectExchange id s).regs.bitLen.toInt = 24 →
        ca = (selectExchange id s).regs.cause) := by
  obtain ⟨st, ca, heq, hfails, hholds⟩ := (selectExchange id s).demoteUnless_eq_raise
    ((selectExchange id s).regs.bitLen == sakBits) .ok .lengthMismatch
  rw [beq_eq_false_iff_ne, Ne, sakBits_iff] at hfails
  rw [beq_iff_eq, sakBits_iff] at hholds
  obtain rfl : st = (selectExchange id s).regs.status := by
    by_cases h : (selectExchange id s).regs.status = .ok ∧ (selectExchange id s).regs.bitLen.toInt ≠ 24
    · rw [(hfails h.1 h.2).1, h.1]
    · exact (hholds (by tauto)).1
  exact ⟨ca, (selectCard_eq s id).trans heq, fun hs hb => (hfails hs hb).2, fun h => (hholds h).2⟩

theorem selectAck_of_ok (hs : s.regs.status = .ok) (hb : s.regs.bitLen.toInt = 24) (hrx : s.rx ≠ []) :
    s.rx.head? = some (selectAck s) := by
  obtain ⟨v, rest, hrx⟩ := List.exists_cons_of_ne_nil hrx
  rw [selectAck, hrx, List.head?_cons]
  exact congrArg some (if_pos ⟨hs, (sakBits_iff _).2 hb⟩).symm

theorem selectAck_eq_zero (h : s.regs.status = .ok → s.regs.bitLen.toInt ≠ 24) : selectAck s = 0x00#8 := by
  unfold selectAck
  split
  · exact if_neg fun ⟨hs, hb⟩ => h hs ((sakBits_iff _).1 hb)
  · rfl

/-! AUTH (R178). -/

/-- AUTH's exchange: its frame under AUTHENT. -/
def authExchange (id : List Byte) (slot : Slot) (block : Byte) (key : List Byte) (s : State) : State :=
  transceive s.cfg.cmdAuthent (authFrame s.cfg slot block key (id.take 4)) s

theorem authExchange_cfg : (authExchange id slot block key s).cfg = s.cfg := by
  obtain ⟨-, hvia, -⟩ := transceive_spec s s.cfg.cmdAuthent (authFrame s.cfg slot block key (id.take 4))
  exact hvia.cfg_eq

/-- The status-2 register read into its working register (R178). -/
def State.sampleStatus2 (s : State) : State :=
  (s.afterRead s.cfg.aStatus2).withRegs { s.regs with s2 := s.answer s.cfg.aStatus2 }

theorem authenticate_eq_demoteUnless (id : List Byte) (slot : Slot) (block : Byte) (key : List Byte) (s : State) :
    authenticate id slot block key s = (authExchange id slot block key s).sampleStatus2.demoteUnless
      (anyBit ((authExchange id slot block key s).answer (authExchange id slot block key s).cfg.aStatus2)
        (authExchange id slot block key s).cfg.mCrypto1On) .error .notAuthenticated := by
  rw [authenticate_eq, authenticateCommand_eq]
  rfl

/-- AUTH is its exchange, the sample on every path, and a status and a cause by the crypto1-on bit sampled. -/
theorem authenticate_eq_raise (id : List Byte) (slot : Slot) (block : Byte) (key : List Byte) (s : State) :
    ∃ st ca, authenticate id slot block key s = (authExchange id slot block key s).sampleStatus2.raise st ca ∧
      ((authExchange id slot block key s).regs.status = .ok →
        (authExchange id slot block key s).answer s.cfg.aStatus2 &&& s.cfg.mCrypto1On = 0#8 → st = .error ∧ ca = .notAuthenticated) ∧
      ((authExchange id slot block key s).regs.status ≠ .ok ∨
        (authExchange id slot block key s).answer s.cfg.aStatus2 &&& s.cfg.mCrypto1On ≠ 0#8 →
        st = (authExchange id slot block key s).regs.status ∧ ca = (authExchange id slot block key s).regs.cause) := by
  rw [authenticate_eq_demoteUnless, authExchange_cfg, ← anyBit_eq_false, ← anyBit_eq_true]
  exact State.demoteUnless_eq_raise _ _ _ _

theorem exec_auth {slot : Byte} (hr : s.Ready) (hi : (Instr.auth id slot block key).InRange) : exec (.auth id slot block key) s =
    .next ((authenticate id (toSlot slot) block key s).finish (.status (authenticate id (toSlot slot) block key s).regs.status)) :=
  exec_body (i := .auth id slot block key) (fun _ => rfl) hr hi

/-- AUTH's exchange is AUTHCMD of its frame, whose mode byte is the slot's (R100, R116). -/
theorem exec_authcmd_auth {slot : Byte} (hr : s.Ready) (hi : (Instr.auth id slot block key).InRange) :
    exec (.authcmd ([if slot = 0#8 then s.cfg.kAuthA else s.cfg.kAuthB, block] ++ key ++ id.take 4)) s =
      .next ((authExchange id (toSlot slot) block key s).finish (.status (authExchange id (toSlot slot) block key s).regs.status)) := by
  obtain ⟨hid, -, hkey⟩ := hi
  have hframe : [if slot = 0#8 then s.cfg.kAuthA else s.cfg.kAuthB, block] ++ key ++ id.take 4 =
      authFrame s.cfg (toSlot slot) block key (id.take 4) := by
    rw [toSlot]
    split <;> rfl
  rw [hframe]
  exact exec_authcmd hr (by rw [authFrame_length _ _ _ hkey (by simp [IdentifierOk.length_eq hid])]; decide)

/-! AUTHSEC (R181). -/

theorem authenticateSector_of_no_ack (h : selectAck (selectCard id s) = 0x00#8) :
    authenticateSector id slot block key s = (selectCard id s).raise .error .notAuthenticated := by
  rw [authenticateSector_eq]
  exact if_pos h

theorem authenticateSector_of_ack (h : selectAck (selectCard id s) ≠ 0x00#8) :
    authenticateSector id slot block key s = authenticate id slot block key (selectCard id s) := by
  rw [authenticateSector_eq]
  exact if_neg h

theorem exec_authsec {slot : Byte} (hr : s.Ready) (hi : (Instr.authsec id slot block key).InRange) :
    exec (.authsec id slot block key) s = .next ((authenticateSector id (toSlot slot) block key s).finish
      (.status (authenticateSector id (toSlot slot) block key s).regs.status)) :=
  exec_body (i := .authsec id slot block key) (fun _ => rfl) hr hi

/-- AUTH after an operation does not see what that one told. -/
theorem exec_auth_finish {slot : Byte} {reply : Reply} (hv : s.cfg.valid = true) (hi : (Instr.auth id slot block key).InRange) :
    exec (.auth id slot block key) (s.finish reply) =
      .next ((authenticate id (toSlot slot) block key s).finish (.status (authenticate id (toSlot slot) block key s).regs.status)) := by
  rw [exec_auth (s := s.finish reply) ⟨rfl, hv⟩ hi, State.finish_eq_told s, authenticate_told, State.finish_told, State.told_regs]

/-! STOPC (R180). -/

theorem exec_stopc (hr : s.Ready) : exec .stopc s = .next ((stopCrypto s).finish .done) :=
  exec_body (body := fun s => (stopCrypto s).finish .done) (fun _ => rfl) hr trivial

/-- In the chip the crypto1-on bit is clear afterwards (R31). -/
theorem stopCrypto_status2 (hv : s.cfg.valid = true) (hi : s.port.chip.Inv s.cfg) :
    (stopCrypto s).port.chip.get s.cfg s.cfg.aStatus2 &&& s.cfg.mCrypto1On = 0#8 := by
  have hget := State.write_status2_get (s := s.afterRead s.cfg.aStatus2) (v := s.answer s.cfg.aStatus2 &&& ~~~s.cfg.mCrypto1On) hv
    (Chip.afterRead_inv s.cfg s.cfg.aStatus2 hi)
  exact (congrArg (· &&& s.cfg.mCrypto1On) hget).trans (status2AfterWrite_crypto _ (and_not_and _ _))

end Sys2Proof.Machine

/-! The statements, in a namespace of their own: `Sys2Proof.Machine` has operations of these names. -/
namespace Sys2Proof.Authentication
open Sys2Proof.Machine

/-- Settles O42: SELECT's exchange is CRC and then XCV; the status and the bit length it ends with decide the cause and the acknowledge. -/
theorem selectCard : Obligations.SelectCard := by
  intro s id hr hid
  obtain ⟨u, low, high, hcrc, hpair, hxcv⟩ := exec_crc_xcv_select hr hid
  obtain ⟨ca, hselect, hwrong, hkept⟩ := selectCard_eq_raise id s
  have hexec := exec_select hr hid
  rw [hselect] at hexec
  refine ⟨u, _, _, low, high, _, ca, hcrc, hpair, hxcv, hexec, rfl, ?_⟩
  simp only [State.finish_regs, State.finish_rx]
  refine ⟨fun hs hb => ?_, fun hs hb => ⟨selectAck_eq_zero fun _ => hb, hwrong hs hb⟩,
    fun hs => ⟨selectAck_eq_zero fun h => absurd h hs, hkept (.inl hs)⟩⟩
  obtain ⟨hcause, hrx⟩ := exchangeWithCrc_of_ok hs
  exact ⟨selectAck_of_ok (s := (selectExchange id s).raise _ _) hs hb hrx, (hkept (.inr hb)).trans hcause⟩

/-- Settles O43: AUTH's exchange is AUTHCMD; the sample follows it, and the bit sampled decides status and cause. -/
theorem authenticate : Obligations.Authenticate := by
  intro s id slot block key hr hid hslot hkey
  obtain ⟨st, ca, hauth, hclear, hset⟩ := authenticate_eq_raise id (toSlot slot) block key s
  have hi : (Instr.auth id slot block key).InRange := ⟨hid, hslot, hkey⟩
  have hexec := exec_auth hr hi
  rw [hauth] at hexec
  have hcommand := exec_authcmd_auth hr hi
  have hcfg : (authExchange id (toSlot slot) block key s).cfg = s.cfg := authExchange_cfg
  generalize authExchange id (toSlot slot) block key s = x at hexec hcommand hcfg hclear hset
  refine ⟨_, _, _, hcommand, hexec, rfl, ?_⟩
  rw [← hcfg] at hclear hset ⊢
  exact ⟨rfl, rfl, rfl, rfl, rfl, rfl, rfl, hclear, hset⟩

/-- Settles O45: by the acknowledge SELECT gives; AUTH does not see that it was told. -/
theorem authenticateSector : Obligations.AuthenticateSector := by
  intro s id slot block key hr hid hslot hkey
  refine ⟨_, _, _, exec_select hr hid, rfl, exec_authsec hr ⟨hid, hslot, hkey⟩, fun hack => ?_, fun hack => ?_⟩
  · rw [authenticateSector_of_no_ack hack]
    rfl
  · have hv : (Machine.selectCard id s).cfg.valid = true :=
      (congrArg Config.valid (selectCard_moves s (IdentifierOk.length_eq hid)).cfg_eq).trans hr.2
    rw [authenticateSector_of_ack hack, exec_auth_finish hv ⟨hid, hslot, hkey⟩]

/-- Settles O44: STOPC is `clearBits` of the crypto1-on bit in the status-2 register. -/
theorem stopCrypto : Obligations.StopCrypto := by
  intro s hr
  refine ⟨rfl, _, _, exec_stopc hr, rfl, State.clearBits_trace s _ _, fun w rest => State.read_script _, rfl, rfl, rfl, rfl, fun hinv => ?_⟩
  obtain ⟨-, -, ⟨hchip, -⟩, -⟩ := hinv
  exact stopCrypto_status2 hr.2 hchip

end Sys2Proof.Authentication
end

/-! SUPPORT. Block input and output (R190 to R195): RDBLK is an exchange with CRC whose count is tested, WRBLK two exchanges whose acknowledge is
tested, and RDSEC is AUTHSEC, three reads and STOPC in turn. -/
section
namespace Sys2Proof.Machine

variable {s : State} {frame id data key : List Byte} {block slot base : Byte} {reply : Reply}

/-! The exchange with CRC that both are made of (R105). -/

/-- An exchange with CRC is CRC of its frame, then XCV of the frame with the pair. -/
theorem exec_crc_xcv (hr : s.Ready) (hl : frame.length ≤ 62) :
    ∃ (u : State) (low high : Byte), exec (.crc frame) s = .next u ∧ u.reply = .pair low high ∧
      exec (.xcv s.cfg.cmdTransceive (frame ++ [low, high])) u =
        .next ((exchangeWithCrc frame s).finish (transceiveResult (exchangeWithCrc frame s))) :=
  sendFrameWithCrc_eq s .idle frame ▸ exec_crc_xcv_of_sendFrameWithCrc .idle hr hl

theorem exchangeWithCrc_finish (frame : List Byte) (s : State) (r : Reply) :
    exchangeWithCrc frame (s.finish r) = (exchangeWithCrc frame s).told r .idle := exchangeWithCrc_told s r .idle frame

theorem transceiveResult_told (s : State) (r : Reply) (p : Pc) : transceiveResult (s.told r p) = transceiveResult s := rfl

/-- After an operation it is the same exchange, whatever that one told. -/
theorem exec_crc_xcv_finish (hv : s.cfg.valid = true) (hl : frame.length ≤ 62) :
    ∃ (u : State) (low high : Byte), exec (.crc frame) (s.finish reply) = .next u ∧ u.reply = .pair low high ∧
      exec (.xcv s.cfg.cmdTransceive (frame ++ [low, high])) u =
        .next ((exchangeWithCrc frame s).finish (transceiveResult (exchangeWithCrc frame s))) := by
  have h := exec_crc_xcv (s := s.finish reply) ⟨rfl, hv⟩ hl
  rw [exchangeWithCrc_finish, State.finish_told, transceiveResult_told] at h
  exact h

theorem exchangeWithCrc_cfg (hl : frame.length ≤ 62) : (exchangeWithCrc frame s).cfg = s.cfg := (exchangeWithCrc_moves s hl).cfg_eq

/-- What was told before is no part of a finished operation. -/
theorem State.finish_eq_with_reply (s : State) (r r' : Reply) : s.finish r = { s.finish r' with reply := r } := rfl

/-! RDBLK (R191). -/

/-- RDBLK's exchange: its frame with the CRC of the frame (R101). -/
def readExchange (block : Byte) (s : State) : State := exchangeWithCrc (readFrame s.cfg block) s

theorem exec_crc_xcv_read (hr : s.Ready) :
    ∃ (u : State) (low high : Byte), exec (.crc [s.cfg.kRead, block]) s = .next u ∧ u.reply = .pair low high ∧
      exec (.xcv s.cfg.cmdTransceive [s.cfg.kRead, block, low, high]) u =
        .next ((readExchange block s).finish (transceiveResult (readExchange block s))) :=
  exec_crc_xcv (frame := readFrame s.cfg block) hr (by simp [readFrame])

theorem readExchange_cause (h : (readExchange block s).regs.status = .ok) : (readExchange block s).regs.cause = .none :=
  (exchangeWithCrc_of_ok h).1

theorem readBlock_eq_demoteUnless (block : Byte) (s : State) : readBlock block s =
    (readExchange block s).demoteUnless ((readExchange block s).rx.length == blockBytes) .ok .lengthMismatch := readBlock_eq s block

/-- RDBLK keeps the status of its exchange, and takes a cause for an OK with a count other than 16. -/
theorem readBlock_eq_raise (block : Byte) (s : State) :
    ∃ ca, readBlock block s = (readExchange block s).raise (readExchange block s).regs.status ca ∧
      ((readExchange block s).regs.status = .ok → (readExchange block s).rx.length ≠ 16 → ca = .lengthMismatch) ∧
      ((readExchange block s).regs.status ≠ .ok ∨ (readExchange block s).rx.length = 16 → ca = (readExchange block s).regs.cause) := by
  rw [readBlock_eq_demoteUnless]
  generalize readExchange block s = e
  by_cases h : e.regs.status = .ok ∧ (e.rx.length == blockBytes) = false
  · obtain ⟨hs, hl⟩ := h
    have hne : e.rx.length ≠ 16 := beq_eq_false_iff_ne.1 hl
    exact ⟨.lengthMismatch, by rw [State.demoteUnless_fails hs hl, hs], fun _ _ => rfl, fun hn => absurd hn (by tauto)⟩
  · exact ⟨e.regs.cause, if_neg h, fun hs hl => absurd ⟨hs, beq_eq_false_iff_ne.2 hl⟩ h, fun _ => rfl⟩

/-- What RDBLK tells: the block it read, or that it is absent (R191). -/
def blockReply (s : State) : Reply :=
  match blockRead s with
  | some bytes => .block bytes
  | none => .absent

theorem blockReply_told (s : State) (r : Reply) (p : Pc) : blockReply (s.told r p) = blockReply s := rfl

theorem blockReply_raise_status (s : State) (ca : Cause) : blockReply (s.raise s.regs.status ca) = blockReply s := rfl

theorem blockReply_of_count (hs : s.regs.status = .ok) (hl : s.rx.length = 16) : blockReply s = .block s.rx := by
  have h : blockRead s = some s.rx := if_pos ⟨hs, hl⟩
  rw [blockReply, h]

theorem blockReply_absent (h : s.regs.status = .ok → s.rx.length ≠ 16) : blockReply s = .absent := by
  have h : blockRead s = none := if_neg fun ⟨hs, hl⟩ => h hs hl
  rw [blockReply, h]

/-- A sector read gets from RDBLK the bytes it tells, and none from an absent block (R194). -/
theorem blockOf_blockReply (s : State) : blockOf (blockReply s) = (blockRead s).getD [] := by
  unfold blockReply
  cases blockRead s <;> rfl

theorem exec_rdblk (hr : s.Ready) :
    exec (.rdblk block) s = .next ((readBlock block s).finish (blockReply (readBlock block s))) :=
  exec_body (i := .rdblk block) (body := fun s => (readBlock block s).finish (blockReply (readBlock block s))) (fun _ => rfl) hr trivial

/-- RDBLK after an operation does not see what that one told. -/
theorem exec_rdblk_finish (hv : s.cfg.valid = true) :
    exec (.rdblk block) (s.finish reply) = .next ((readBlock block s).finish (blockReply (readBlock block s))) := by
  rw [exec_rdblk (s := s.finish reply) ⟨rfl, hv⟩, State.finish_eq_told s, readBlock_told, State.finish_told, blockReply_told]

/-! WRBLK (R192, R193). -/

theorem lowNibble_eq_ack (b : Byte) : lowNibble b = ackNibble ↔ b &&& 0x0F#8 = 0x0A#8 := by
  revert b
  decide

/-- The acknowledge test, as R193 gives it. -/
theorem State.isAcked_iff (s : State) : s.isAcked = true ↔
    s.regs.status = .ok ∧ s.regs.bitLen.toInt = 4 ∧ ∃ b, s.rx.head? = some b ∧ b &&& 0x0F#8 = 0x0A#8 := by
  have hbits : s.regs.bitLen = 4#12 ↔ s.regs.bitLen.toInt = 4 := by
    rw [← BitVec.toInt_inj]
    rfl
  simp only [State.isAcked, acked, Bool.and_eq_true, beq_iff_eq, Option.map_eq_some_iff, hbits, lowNibble_eq_ack, and_assoc]

/-- WRBLK's first exchange: the WRITE frame with its CRC (R102). -/
def writeExchange (block : Byte) (s : State) : State := exchangeWithCrc (writeFrame s.cfg block) s

theorem exec_crc_xcv_write (hr : s.Ready) :
    ∃ (u : State) (low high : Byte), exec (.crc [s.cfg.kWrite, block]) s = .next u ∧ u.reply = .pair low high ∧
      exec (.xcv s.cfg.cmdTransceive [s.cfg.kWrite, block, low, high]) u =
        .next ((writeExchange block s).finish (transceiveResult (writeExchange block s))) :=
  exec_crc_xcv (frame := writeFrame s.cfg block) hr (by simp [writeFrame])

theorem writeBlock_of_not_acked (h : ¬ (writeExchange block s).isAcked = true) :
    writeBlock block data s = failWrite (writeExchange block s) := by
  rw [writeBlock_eq]
  exact if_neg h

/-- Acknowledged, the data frame is exchanged, and its acknowledge decides. -/
theorem writeBlock_of_acked (h : (writeExchange block s).isAcked = true) : writeBlock block data s =
    if (exchangeWithCrc data (writeExchange block s)).isAcked then exchangeWithCrc data (writeExchange block s)
    else failWrite (exchangeWithCrc data (writeExchange block s)) := by
  rw [writeBlock_eq]
  exact if_pos h

theorem exec_wrblk (hr : s.Ready) (hl : data.length = 16) : exec (.wrblk block data) s =
    .next ((writeBlock block data s).finish (.status (writeBlock block data s).regs.status)) :=
  exec_body (i := .wrblk block data) (fun _ => rfl) hr hl

/-! RDSEC (R194). -/

/-- Three blocks read one after the other (R194). -/
theorem readBlocks_three (b₀ b₁ b₂ : Byte) (s : State) : readBlocks [b₀, b₁, b₂] [] s =
    ((blockRead (readBlock b₀ s)).getD [] ++ (blockRead (readBlock b₁ (readBlock b₀ s))).getD [] ++
      (blockRead (readBlock b₂ (readBlock b₁ (readBlock b₀ s)))).getD [], readBlock b₂ (readBlock b₁ (readBlock b₀ s))) := by
  simp only [readBlocks, List.nil_append]

theorem readBlock_valid (block : Byte) (hv : s.cfg.valid = true) : (readBlock block s).cfg.valid = true :=
  (congrArg Config.valid (readBlock_moves s block).cfg_eq).trans hv

theorem exec_rdsec (hr : s.Ready) (hi : (Instr.rdsec id slot base key).InRange) : exec (.rdsec id slot base key) s =
    .next ((readSector id (toSlot slot) base key s).2.finish (.bytes (readSector id (toSlot slot) base key s).1)) :=
  exec_body (i := .rdsec id slot base key) (fun _ => rfl) hr hi

theorem exec_stopc_finish (hv : s.cfg.valid = true) : exec .stopc (s.finish reply) = .next ((stopCrypto s).finish .done) :=
  exec_stopc (s := s.finish reply) ⟨rfl, hv⟩

end Sys2Proof.Machine

/-! The statements, in a namespace of their own: `Sys2Proof.Machine` has operations of these names. -/
namespace Sys2Proof.BlockIO
open Sys2Proof.Machine

/-- Settles O46: RDBLK's exchange is CRC and then XCV; its status and the count of bytes drained decide the cause and what is told. -/
theorem readBlock : Obligations.ReadBlock := by
  intro s block hr
  obtain ⟨u, low, high, hcrc, hpair, hxcv⟩ := exec_crc_xcv_read (block := block) hr
  obtain ⟨ca, hread, hwrong, hkept⟩ := readBlock_eq_raise block s
  have hexec := exec_rdblk (block := block) hr
  have hcause := readExchange_cause (block := block) (s := s)
  rw [hread, blockReply_raise_status] at hexec
  generalize readExchange block s = e at hxcv hwrong hkept hexec hcause
  refine ⟨u, _, _, low, high, hcrc, hpair, hxcv, hexec, fun hs hl => ?_, fun hs hl => ?_, fun hs => ?_⟩
  · obtain rfl := hkept (.inr hl)
    rw [blockReply_of_count (s := e) hs hl]
    exact ⟨rfl, hcause hs⟩
  · obtain rfl := hwrong hs hl
    rw [blockReply_absent (s := e) fun _ => hl]
    rfl
  · obtain rfl := hkept (.inl hs)
    rw [blockReply_absent (s := e) fun h => absurd h hs]
    rfl

/-- Settles O47: each phase is CRC and then XCV, and `State.isAcked` of the state it leaves decides. -/
theorem writeBlock : Obligations.WriteBlock := by
  intro s block data hr hl acknowledged failed
  have hacked (e : State) (r : Reply) : acknowledged (e.finish r) ↔ e.isAcked = true := e.isAcked_iff.symm
  obtain ⟨u, low, high, hcrc, hpair, hxcv⟩ := exec_crc_xcv_write (block := block) hr
  have hcfg : (writeExchange block s).cfg = s.cfg := exchangeWithCrc_cfg (by simp [writeFrame])
  refine ⟨u, _, _, low, high, hcrc, hpair, hxcv, exec_wrblk hr hl, fun hn => ?_, fun ha => ?_⟩
  · rw [writeBlock_of_not_acked (mt (hacked _ _).2 hn)]
    rfl
  · rw [writeBlock_of_acked ((hacked _ _).1 ha)]
    obtain ⟨w, low', high', hcrc', hpair', hxcv'⟩ := exec_crc_xcv_finish (s := writeExchange block s) (frame := data)
      ((congrArg Config.valid hcfg).trans hr.2) (by omega)
    rw [hcfg] at hxcv'
    have hok := exchangeWithCrc_of_ok (frame := data) (s := writeExchange block s)
    generalize exchangeWithCrc data (writeExchange block s) = e at hxcv' hok ⊢
    refine ⟨w, _, low', high', hcrc', hpair', hxcv', fun hx => ?_, fun hx => ?_⟩
    · have hs : e.regs.status = .ok := hx.1
      rw [if_pos ((hacked e _).1 hx), hs]
      exact ⟨State.finish_eq_with_reply e _ _, (hok hs).1⟩
    · rw [if_neg (mt (hacked e _).2 hx)]
      rfl

/-- Settles O48: AUTHSEC, and then each RDBLK and STOPC, follows on the state the one before left, whatever that one told. -/
theorem readSector : Obligations.ReadSector := by
  intro s id slot base key hr hid hslot hkey hbase
  have hopen := authenticateSector_moves s hr.2 (IdentifierOk.length_eq hid) hkey (toSlot slot) (base + 3#8)
  have hv := (congrArg Config.valid hopen.cfg_eq).trans hr.2
  have hauthsec := exec_authsec (block := base + 3#8) hr ⟨hid, hslot, hkey⟩
  have hrdsec := exec_rdsec hr ⟨hid, hslot, hkey, hbase⟩
  rw [readSector_eq] at hrdsec
  generalize authenticateSector id (toSlot slot) (base + 3#8) key s = o at hv hauthsec hrdsec
  refine ⟨_, _, hauthsec, hrdsec, fun hs => ?_, fun hs => ?_⟩
  · simp only [if_neg (show ¬o.regs.status = .ok from hs)]
    exact ⟨_, exec_stopc_finish hv, State.finish_eq_with_reply _ _ _⟩
  · have hv₀ := readBlock_valid base hv
    have hv₁ := readBlock_valid (base + 1#8) hv₀
    simp only [if_pos (show o.regs.status = .ok from hs), readBlocks_three, ← blockOf_blockReply]
    refine ⟨_, _, _, _, exec_rdblk_finish hv, exec_rdblk_finish hv₀, exec_rdblk_finish hv₁,
      exec_stopc_finish (readBlock_valid (base + 2#8) hv₁), ?_⟩
    simp only [State.finish_reply]
    exact State.finish_eq_with_reply _ _ _

end Sys2Proof.BlockIO
end

/-! SUPPORT. Which bytes of the card's blocks an operation of the core leaves alone (R69, R192, R278; logs 15, 30): a byte outside the block that waits
for its data stays as it is, and no block comes to wait but one a WRITE command names, so the exchanges of a composite can be taken one by one. -/
section
namespace Sys2Proof.Machine

variable {cfg : Config} {s t u : State} {a n : Nat} {cmd framing code : Byte} {out frame id key data : List Byte} {c d : Card}

/-! One exchange. -/

/-- The byte at `a` is outside the block that the frame asks to write, if it is a WRITE command a card takes (R102). -/
def FrameSpares (cfg : Config) (a : Nat) (frame : List Byte) : Prop :=
  ∀ block x y, frame = [cfg.kWrite, block, x, y] → cfg.kWrite ≠ cfg.kRead → Outside block a

theorem FrameSpares.of_length (h : frame.length ≠ 4) : FrameSpares cfg a frame := by
  rintro block x y rfl
  exact absurd rfl h

theorem FrameSpares.of_read (block : Byte) (suffix : List Byte) : FrameSpares cfg a (readFrame cfg block ++ suffix) :=
  fun _ _ _ h hne => absurd (List.cons.inj h).1.symm hne

theorem FrameSpares.of_write {block : Byte} (h : Outside block a) (suffix : List Byte) :
    FrameSpares cfg a (writeFrame cfg block ++ suffix) := by
  intro b x y he _
  obtain ⟨-, hrest⟩ := List.cons.inj he
  obtain ⟨rfl, -⟩ := List.cons.inj hrest
  exact h

/-- A frame that spares the byte brings no block to wait that holds it. -/
theorem Card.Moves.outside (hm : Card.Moves cfg frame c d) (hf : FrameSpares cfg a frame)
    (hc : ∀ b, c.writing = some b → Outside b a) : ∀ b, d.writing = some b → Outside b a := by
  intro b hb
  obtain hnone | hsame | ⟨block, x, y, hframe, hne, hblock⟩ := hm.writing
  · rw [hnone] at hb
    cases hb
  · exact hc b (hsame ▸ hb)
  · rw [hblock] at hb
    cases hb
    exact hf b x y hframe hne

/-- What the frame of an operation rests on: a configuration that is valid, flushes, and starts no transmission with a framing byte; the chip and the
card in form; and the byte at `a` outside the block that waits for its data. -/
structure State.Guards (a : Nat) (s : State) : Prop where
  valid : s.cfg.valid = true
  flush : s.cfg.mFlush ≠ 0#8
  short : s.cfg.framingShort &&& s.cfg.mStartSend = 0#8
  byte : s.cfg.framingByte &&& s.cfg.mStartSend = 0#8
  inv : s.port.chip.Inv s.cfg ∧ s.port.card.Inv
  waiting : ∀ b, s.port.card.writing = some b → Outside b a

/-- The byte at `a`, outside the block that waits, is left as it is and outside the block that waits then. -/
def Spares (a : Nat) (s t : State) : Prop := s.Guards a → t.Guards a ∧ t.port.card.get a = s.port.card.get a

theorem Spares.refl (s : State) : Spares a s s := fun hg => ⟨hg, rfl⟩

theorem Spares.trans (h : Spares a s t) (k : Spares a t u) : Spares a s u := fun hg =>
  have ⟨ht, hget⟩ := h hg
  have ⟨hu, hget'⟩ := k ht
  ⟨hu, hget'.trans hget⟩

theorem Spares.card_get (h : Spares a s t) (hg : s.Guards a) : t.port.card.get a = s.port.card.get a := (h hg).2

/-- Accesses keep the chip and the card in form, so the card is left to see to. -/
theorem Via.spares {A : List RegAddr} (hv : Via A n s t)
    (h : s.Guards a → t.port.card.get a = s.port.card.get a ∧ ∀ b, t.port.card.writing = some b → Outside b a) : Spares a s t := by
  intro hg
  obtain ⟨hget, hwaiting⟩ := h hg
  have hinv := hv.port_inv hg.inv
  have hcfg := hv.cfg_eq
  exact ⟨⟨hcfg ▸ hg.valid, hcfg ▸ hg.flush, hcfg ▸ hg.short, hcfg ▸ hg.byte, hinv, hwaiting⟩, hget⟩

theorem State.card_get_congr (h : t.port.card = s.port.card) : t.port.card.get a = s.port.card.get a := by rw [h]

theorem Via.spares_of_card {A : List RegAddr} (hv : Via A n s t) (h : s.Guards a → t.port.card = s.port.card) : Spares a s t :=
  hv.spares fun hg => ⟨State.card_get_congr (h hg), h hg ▸ hg.waiting⟩

theorem Spares.raise (st : Status) (ca : Cause) : Spares a s (s.raise st ca) :=
  (raise_moves s st ca).1.spares_of_card fun _ => rfl

theorem Spares.demoteUnless (test : Bool) (st : Status) (ca : Cause) : Spares a s (s.demoteUnless test st ca) := by
  unfold State.demoteUnless
  split
  · exact .raise st ca
  · exact .refl s

/-! The engine: `transceive` sends one frame, `computeCRC` none. -/

/-- Whatever frame it sends, a `transceive` leaves every byte outside the block that waits. -/
theorem transceive_card_get (hg : s.Guards a) (hl : out.length ≤ 64) : (transceive cmd out s).port.card.get a = s.port.card.get a :=
  (transceive_card hg.valid hg.flush hl hg.inv).1.get a hg.waiting

theorem transceive_spares (hl : out.length ≤ 64) (hf : FrameSpares s.cfg a out) : Spares a s (transceive cmd out s) :=
  (transceive_moves s cmd hl).1.spares fun hg =>
    ⟨transceive_card_get hg hl, (transceive_card hg.valid hg.flush hl hg.inv).1.outside hf hg.waiting⟩

theorem computeCrc_spares (hl : frame.length ≤ 64) : Spares a s (computeCrc frame s) :=
  (computeCrc_moves s hl).1.spares_of_card fun hg => computeCrc_card frame hg.valid

theorem exchangeWithCrc_card_get (hg : s.Guards a) (hl : frame.length ≤ 62) :
    (exchangeWithCrc frame s).port.card.get a = s.port.card.get a := by
  obtain ⟨hguards, hget⟩ := computeCrc_spares (frame := frame) (by omega) hg
  exact (transceive_card_get hguards (by simp [crcSuffix]; omega)).trans hget

theorem exchangeWithCrc_spares (hl : frame.length ≤ 62) (hf : ∀ low high, FrameSpares s.cfg a (frame ++ [low, high])) :
    Spares a s (exchangeWithCrc frame s) := by
  refine (computeCrc_spares (by omega)).trans (transceive_spares (by simp [crcSuffix]; omega) ?_)
  rw [(computeCrc_moves s (bytes := frame) (by omega)).cfg_eq]
  exact hf _ _

/-- A framing byte that starts no transmission reaches no card. -/
theorem writeFraming_spares (hf : s.Guards a → framing &&& s.cfg.mStartSend = 0#8) : Spares a s (s.write s.cfg.aBitFraming framing) :=
  (Via.write s framing (Config.aBitFraming_mem s.cfg)).spares_of_card fun hg =>
    State.write_framing_card (Config.distinct hg.valid) (hf hg)

/-! The operations built of exchanges. -/

theorem requestPresence_spares : Spares a s (requestPresence s) := by
  rw [requestPresence_eq]
  exact ((writeFraming_spares State.Guards.short).trans
    (transceive_spares (by simp [requestFrame]) (.of_length (by simp [requestFrame])))).trans (.demoteUnless _ _ _)

theorem resolveUid_spares : Spares a s (resolveUid s) := by
  rw [resolveUid_eq]
  exact (((writeFraming_spares State.Guards.byte).trans
    (transceive_spares (by simp [anticollisionFrame]) (.of_length (by simp [anticollisionFrame])))).trans
      (.demoteUnless _ _ _)).trans (.demoteUnless _ _ _)

/-- What follows a failed attempt of POLL is no exchange (R164). -/
theorem retryOrEnd_card (s : State) : (retryOrEnd s).port.card = s.port.card := by
  unfold retryOrEnd
  simp only
  split <;> rfl

theorem pollAttempt_card_get (hg : s.Guards a) : (pollAttempt s).port.card.get a = s.port.card.get a := by
  by_cases hr : (requestPresence s).regs.status = .ok
  · have hget := (requestPresence_spares.trans resolveUid_spares).card_get hg
    by_cases hu : (resolveUid (requestPresence s)).regs.status = .ok
    · rw [pollAttempt_of_uid hr hu, State.finish_port]
      exact hget
    · rw [pollAttempt_of_no_uid hr hu, retryOrEnd_card]
      exact hget
  · rw [pollAttempt_of_no_tag hr, retryOrEnd_card]
    exact requestPresence_spares.card_get hg

theorem selectCard_spares (hid : id.length = 5) : Spares a s (selectCard id s) := by
  have hl : (selectFrame s.cfg id).length = 7 := by simp [selectFrame, hid]
  rw [selectCard_eq]
  exact (exchangeWithCrc_spares (by omega) fun low high => .of_length (by simp [hl])).trans (.demoteUnless _ _ _)

theorem sampleStatus2_spares : Spares a s s.sampleStatus2 :=
  ((Via.read s (Config.aStatus2_mem s.cfg)).andLocal (u := s.sampleStatus2) rfl rfl rfl).spares_of_card fun _ => rfl

theorem authenticate_spares (slot : Slot) (block : Byte) (hid : id.length = 5) (hkey : key.length = 6) :
    Spares a s (authenticate id slot block key s) := by
  have hl := authFrame_length s.cfg slot block hkey (uid := id.take 4) (by simp [hid])
  have hexchange : Spares a s (authExchange id slot block key s) := transceive_spares (by omega) (.of_length (by omega))
  rw [authenticate_eq_demoteUnless]
  exact (hexchange.trans sampleStatus2_spares).trans (.demoteUnless _ _ _)

/-- STOPC writes the status-2 register, which reaches no card (R180). -/
theorem stopCrypto_card (hv : s.cfg.valid = true) : (stopCrypto s).port.card = s.port.card :=
  have hd := Config.distinct hv
  State.write_card_of_ne (s := s.afterRead s.cfg.aStatus2) _ hd.command_status2.symm hd.framing_status2.symm

theorem stopCrypto_spares : Spares a s (stopCrypto s) :=
  (stopCrypto_moves s).1.spares_of_card fun hg => stopCrypto_card hg.valid

theorem authenticateSector_spares (slot : Slot) (block : Byte) (hid : id.length = 5) (hkey : key.length = 6) :
    Spares a s (authenticateSector id slot block key s) := by
  by_cases hack : selectAck (selectCard id s) = 0x00#8
  · rw [authenticateSector_of_no_ack hack]
    exact (selectCard_spares hid).trans (.raise _ _)
  · rw [authenticateSector_of_ack hack]
    exact (selectCard_spares hid).trans (authenticate_spares slot block hid hkey)

theorem readBlock_spares (block : Byte) : Spares a s (readBlock block s) := by
  rw [readBlock_eq]
  exact (exchangeWithCrc_spares (by simp [readFrame]) fun low high => .of_read block _).trans (.demoteUnless _ _ _)

theorem readBlocks_spares (blocks bytes : List Byte) : Spares a s (readBlocks blocks bytes s).2 := by
  induction blocks generalizing s bytes with
  | nil => exact .refl s
  | cons block blocks ih => exact (readBlock_spares block).trans (ih _)

theorem readSector_spares (slot : Slot) (base : Byte) (hid : id.length = 5) (hkey : key.length = 6) :
    Spares a s (readSector id slot base key s).2 := by
  have hauth := authenticateSector_spares (a := a) (s := s) slot (base + 3#8) hid hkey
  rw [readSector_eq]
  refine (hauth.trans ?_).trans stopCrypto_spares
  split
  · exact readBlocks_spares _ _
  · exact .refl _

/-- Phase 1 brings no block to wait but the one written, and phase 2 sends no command (R192). -/
theorem writeBlock_spares {block : Byte} (ha : Outside block a) (hl : data.length = 16) : Spares a s (writeBlock block data s) := by
  have hcommand : Spares a s (writeExchange block s) :=
    exchangeWithCrc_spares (by simp [writeFrame]) fun low high => .of_write ha _
  have hdata := hcommand.trans (exchangeWithCrc_spares (frame := data) (by omega) fun low high => .of_length (by simp [hl]))
  by_cases h : (writeExchange block s).isAcked = true
  · rw [writeBlock_of_acked h]
    split
    · exact hdata
    · exact hdata.trans (.raise _ _)
  · rw [writeBlock_of_not_acked h]
    exact hcommand.trans (.raise _ _)

/-! The chip commands and the card frames as requests of their own (log 11): one exchange, whatever its frame. -/

theorem exec_idle (hr : s.Ready) : exec .idle s = .next ((s.command s.cfg.cmdIdle).finish .done) :=
  exec_body (body := fun s => (s.command s.cfg.cmdIdle).finish .done) (fun _ => rfl) hr trivial

theorem exec_calccrc (hr : s.Ready) : exec .calccrc s = .next ((s.command s.cfg.cmdCalcCrc).finish .done) :=
  exec_body (body := fun s => (s.command s.cfg.cmdCalcCrc).finish .done) (fun _ => rfl) hr trivial

theorem exec_transceive (hr : s.Ready) : exec .transceive s =
    .next (((s.command s.cfg.cmdTransceive).setBits s.cfg.aBitFraming s.cfg.mStartSend).finish .done) :=
  exec_body (body := fun s => ((s.command s.cfg.cmdTransceive).setBits s.cfg.aBitFraming s.cfg.mStartSend).finish .done)
    (fun _ => rfl) hr trivial

theorem exec_authent (hr : s.Ready) : exec .authent s = .next ((s.command s.cfg.cmdAuthent).finish .done) :=
  exec_body (body := fun s => (s.command s.cfg.cmdAuthent).finish .done) (fun _ => rfl) hr trivial

/-- A command other than AUTHENT reaches no card (R26, R67). -/
theorem command_card (hv : s.cfg.valid = true) (hc : code ≠ s.cfg.cmdAuthent) : (s.command code).port.card = s.port.card :=
  State.write_command_card (Config.distinct hv) hc

theorem State.write_card_get (hg : s.Guards a) (addr : RegAddr) (v : Byte) : (s.write addr v).port.card.get a = s.port.card.get a :=
  (afterWrite_moves s.cfg _ addr v s.port.chip s.port.card).get a hg.waiting

theorem command_spares (hc : s.Guards a → code ≠ s.cfg.cmdAuthent) : Spares a s (s.command code) :=
  (command_moves s code).1.spares_of_card fun hg => command_card hg.valid (hc hg)

/-- TRANSCEIVE sends what is queued in the chip, once the start-send bit is written (R67, R143). -/
theorem transceiveCommand_card_get (hg : s.Guards a) :
    ((s.command s.cfg.cmdTransceive).setBits s.cfg.aBitFraming s.cfg.mStartSend).port.card.get a = s.port.card.get a := by
  have hread : Spares a (s.command s.cfg.cmdTransceive) ((s.command s.cfg.cmdTransceive).afterRead s.cfg.aBitFraming) :=
    (Via.read _ (Config.aBitFraming_mem s.cfg)).spares_of_card fun _ => rfl
  obtain ⟨hguards, hget⟩ := (command_spares fun hg => (Config.valid_commands hg.valid).1.symm).trans hread hg
  exact (State.write_card_get hguards _ _).trans hget

theorem sendFrame_card_get (op : Instr) (hg : s.Guards a) (hf : framing &&& s.cfg.mStartSend = 0#8) (hl : frame.length ≤ 64) :
    (sendFrame op framing frame s).port.card.get a = s.port.card.get a := by
  obtain ⟨hguards, hget⟩ := writeFraming_spares (fun _ => hf) hg
  simp only [sendFrame_eq, State.finish_port]
  exact (transceive_card_get hguards hl).trans hget

theorem sendFrameWithCrc_card_get (op : Instr) (hg : s.Guards a) (hl : frame.length ≤ 62) :
    (sendFrameWithCrc op frame s).port.card.get a = s.port.card.get a := by
  simp only [sendFrameWithCrc_eq, State.finish_port]
  exact exchangeWithCrc_card_get hg hl

theorem sendAuthFrame_card_get (op : Instr) (hg : s.Guards a) (hl : frame.length ≤ 64) :
    (sendAuthFrame op frame s).port.card.get a = s.port.card.get a := by
  simp only [sendAuthFrame_eq, authenticateCommand_eq, State.finish_port]
  exact transceive_card_get hg hl

/-- The reply that ends an operation is no part of the card. -/
theorem card_get_of_exec {i : Instr} {r : Reply} (hx : exec i s = .next (u.finish r)) (h : exec i s = .next t)
    (hu : u.port.card.get a = s.port.card.get a) : t.port.card.get a = s.port.card.get a := by
  cases hx.symm.trans h
  exact hu

/-- Settles O37: a refused request reaches no card; one let through is exchanges that spare the byte, of which the last may send any frame, or it sends
none. -/
theorem cardMemoryFrame : Obligations.CardMemoryFrame := by
  intro i s t hs hc hflush hshort hbyte h a ha
  obtain ⟨cause, rfl⟩ | hg := exec_refused_or_open h
  · rfl
  obtain ⟨hpc, hv, hr⟩ := (State.gate_eq_none s).1 hg
  have hi := (refusal_iff i).1 hr
  have hready : s.Ready := ⟨hpc, hv⟩
  obtain ⟨-, -, hport, -⟩ := hs
  have guards (hw : ∀ b, s.port.card.writing = some b → Outside b a) : s.Guards a := ⟨hv, hflush, hshort, hbyte, hport, hw⟩
  obtain ⟨-, -, -, hcalc, -, hidle⟩ := Config.valid_commands hv
  cases i
  case rdreg | wrreg | setb | clrb | rstp => cases hc
  case uidchk | acenc | acdec | acsetb | acchk | trpack =>
    obtain rfl := exec_open rfl hg h
    rfl
  case trunpk bytes =>
    obtain rfl := exec_open rfl hg h
    cases unpackTrailer bytes <;> rfl
  case crc bytes => exact card_get_of_exec (exec_crc hready hi) h (State.card_get_congr (computeCrc_card bytes hv))
  case stopc => exact card_get_of_exec (exec_stopc hready) h (State.card_get_congr (stopCrypto_card hv))
  case idle => exact card_get_of_exec (exec_idle hready) h (State.card_get_congr (command_card hv hidle))
  case calccrc => exact card_get_of_exec (exec_calccrc hready) h (State.card_get_congr (command_card hv hcalc.symm))
  case transceive => exact card_get_of_exec (exec_transceive hready) h (transceiveCommand_card_get (guards ha))
  case authent => exact card_get_of_exec (exec_authent hready) h (State.write_card_get (guards ha) _ _)
  case xcv cmd out => exact card_get_of_exec (exec_xcv cmd hready hi) h (transceive_card_get (guards ha) hi)
  case authcmd out => exact card_get_of_exec (exec_authcmd hready hi) h (transceive_card_get (guards ha) hi)
  case reqp => exact card_get_of_exec (exec_reqp hready) h (requestPresence_spares.card_get (guards ha))
  case acoll => exact card_get_of_exec (exec_acoll hready) h (resolveUid_spares.card_get (guards ha))
  case poll =>
    cases (exec_poll hready).symm.trans h
    exact pollAttempt_card_get (guards ha)
  case select id => exact card_get_of_exec (exec_select hready hi) h ((selectCard_spares (IdentifierOk.length_eq hi)).card_get (guards ha))
  case auth identifier slot block key =>
    obtain ⟨hid, -, hkey⟩ := id hi
    exact card_get_of_exec (exec_auth hready hi) h ((authenticate_spares _ block (IdentifierOk.length_eq hid) hkey).card_get (guards ha))
  case authsec identifier slot block key =>
    obtain ⟨hid, -, hkey⟩ := id hi
    exact card_get_of_exec (exec_authsec hready hi) h ((authenticateSector_spares _ block (IdentifierOk.length_eq hid) hkey).card_get (guards ha))
  case rdblk block => exact card_get_of_exec (exec_rdblk hready) h ((readBlock_spares block).card_get (guards ha))
  case wrblk block data =>
    obtain ⟨hblock, hwaiting⟩ := ha
    exact card_get_of_exec (exec_wrblk hready hi) h ((writeBlock_spares hblock hi).card_get (guards hwaiting))
  case rdsec identifier slot base key =>
    obtain ⟨hid, -, hkey, -⟩ := id hi
    exact card_get_of_exec (exec_rdsec hready hi) h ((readSector_spares _ base (IdentifierOk.length_eq hid) hkey).card_get (guards ha))
  case request =>
    obtain rfl := exec_open rfl hg h
    exact sendFrame_card_get _ (guards ha) hshort (by simp [requestFrame])
  case anticollision level =>
    obtain rfl := exec_open rfl hg h
    exact sendFrame_card_get _ (guards ha) hbyte (by simp [anticollisionFrame])
  case selectCard =>
    obtain rfl := exec_open rfl hg h
    exact sendFrameWithCrc_card_get _ (guards ha) (by simp [selectFrame, IdentifierOk.length_eq hi])
  case read | write =>
    obtain rfl := exec_open rfl hg h
    exact sendFrameWithCrc_card_get _ (guards ha) (show 2 ≤ 62 by decide)
  case authA | authB =>
    obtain ⟨hkey, huid⟩ := hi
    obtain rfl := exec_open rfl hg h
    exact sendAuthFrame_card_get _ (guards ha) (by simp [authFrame, hkey, huid])

end Sys2Proof.Machine
end

/-! SUPPORT. CRC (R205 to R211): `computeCrc_spec` says what the operation is; of CRC_A (R210) what is shown is the law that a byte sequence with its
CRC suffix leaves the state zero. -/
section
namespace Sys2Proof.Machine

/-- Settles O49: the operation is `computeCRC` and then its reply, so `computeCrc_spec` gives all but the reply and the idle sequencer. -/
theorem crcTranscripts : Obligations.CrcTranscripts := by
  intro s bytes hr hl
  obtain ⟨⟨events, htrace, htranscript⟩, -, ⟨n, i, low, high, late, hregs⟩, -, htx, -, -⟩ := computeCrc_spec s bytes
  refine ⟨_, events, _, _, exec_crc hr hl, htrace, htranscript, rfl, rfl, rfl, ?status, ?cause, htx, rfl⟩
  case status => rw [State.finish_regs, hregs]
  case cause => rw [State.finish_regs, hregs]

/-! The law of CRC_A: a zero at the low end is shifted out and feeds nothing back, so a byte equal to the low byte of the state moves the state
right by eight, and the two bytes of the pair move it to zero. -/

variable {n : Nat}

theorem crcShift_of_lowBit_zero {c : BitVec 16} (h : c.getLsbD 0 = false) : crcShift c = c >>> 1 := by
  rw [crcShift, h, if_neg Bool.false_ne_true]

theorem crcShift_iterate_of_lowBits_zero {c : BitVec 16} (h : ∀ i < n, c.getLsbD i = false) : crcShift^[n] c = c >>> n := by
  induction n with
  | zero => rfl
  | succ n ih =>
    have hlow : (c >>> n).getLsbD 0 = false := by
      rw [BitVec.getLsbD_ushiftRight]
      exact h n n.lt_succ_self
    calc crcShift^[n + 1] c = crcShift (c >>> n) := by
          rw [Function.iterate_succ_apply', ih fun i hi => h i (hi.trans n.lt_succ_self)]
      _ = c >>> (n + 1) := by rw [crcShift_of_lowBit_zero hlow, BitVec.shiftRight_add]

theorem crcByte_eq_iterate (c : BitVec 16) (b : Byte) : crcByte c b = crcShift^[8] (c ^^^ b.setWidth 16) := rfl

theorem xor_lowByte (c : BitVec 16) : c ^^^ (c.setWidth 8).setWidth 16 = (c >>> 8) <<< 8 := by
  ext i hi
  by_cases h : i < 8
  · simp [h, BitVec.getLsbD_eq_getElem hi]
  · simp [h, Nat.add_sub_cancel' (Nat.le_of_not_lt h), BitVec.getLsbD_eq_getElem hi]

theorem crcByte_lowByte (c : BitVec 16) : crcByte c (c.setWidth 8) = c >>> 8 := by
  rw [crcByte_eq_iterate, xor_lowByte, crcShift_iterate_of_lowBits_zero fun i hi => by simp [hi]]
  ext i hi
  simpa using BitVec.lt_of_getLsbD

theorem crcByte_suffix (c : BitVec 16) : crcByte (crcByte c (c.setWidth 8)) ((c >>> 8).setWidth 8) = 0#16 := by
  rw [crcByte_lowByte, crcByte_lowByte, ← BitVec.shiftRight_add]
  exact BitVec.ushiftRight_eq_zero le_rfl

/-- Settles O50: the two bytes appended are those of the state they meet; the check value is computed. -/
theorem crcResidueIsZero : Obligations.CrcResidueIsZero := by
  refine ⟨fun bytes => ?_, by decide +kernel⟩
  rw [crcState, List.foldl_append]
  exact crcByte_suffix (crcState bytes)

end Sys2Proof.Machine
end

/-! SUPPORT. The access-bits codec (R216 to R224): a byte is its two nibbles and a word its three planes and the user byte, so that the bytes which
encode a word are the well-formed ones which decode to it. -/
section
namespace Sys2Proof.Machine

variable {s : State} {w : AccessWord} {b0 b1 b2 b3 c0 c1 c2 c3 user block bitIndex value v : Byte} {c d : BitVec 3} {p q p1 p2 p3 : BitVec 4}
  {i j k : Nat}

/-! The nibbles of a byte. -/

theorem getLsbD_highNibble (hk : k < 4) : (highNibble v).getLsbD k = v.getLsbD (k + 4) := by
  simp [highNibble, hk, Nat.add_comm]

theorem getLsbD_lowNibble (hk : k < 4) : (lowNibble v).getLsbD k = v.getLsbD k := by
  simp [lowNibble, hk]

theorem append_eq_iff_nibbles : p ++ q = v ↔ p = highNibble v ∧ q = lowNibble v := by
  constructor
  · rintro rfl
    exact ⟨BitVec.extractLsb'_append_eq_left.symm, BitVec.extractLsb'_append_eq_right.symm⟩
  · rintro ⟨rfl, rfl⟩
    exact BitVec.extractLsb'_append_extractLsb'

theorem eq_not_iff_getLsbD : p = ~~~q ↔ ∀ k < 4, p.getLsbD k = !q.getLsbD k := by
  rw [BitVec.eq_of_getLsbD_eq_iff]
  refine forall₂_congr fun k hk => ?_
  simp [hk]

/-! The codes of a word and its planes (R216). -/

/-- The four codes of a word, block by block. -/
def codes (w : AccessWord) : List (BitVec 3) := [w.c0, w.c1, w.c2, w.c3]

/-- Bit `k` of a plane is the plane's bit of block `k`'s code. -/
theorem getLsbD_plane (h : (codes w)[k]? = some c) : (plane j w).getLsbD k = c.getLsbD j := by
  have hplane : plane j w = (((BitVec.ofBool (w.c3.getLsbD j)).concat (w.c2.getLsbD j)).concat (w.c1.getLsbD j)).concat (w.c0.getLsbD j) := rfl
  match k, h with
  | 0, rfl | 1, rfl | 2, rfl | 3, rfl => simp [hplane, BitVec.getElem_concat]

/-- Three planes give a code its three bits. -/
theorem getLsbD_codeOf : (codeOf p1 p2 p3 k).getLsbD 2 = p1.getLsbD k ∧ (codeOf p1 p2 p3 k).getLsbD 1 = p2.getLsbD k ∧
    (codeOf p1 p2 p3 k).getLsbD 0 = p3.getLsbD k := by
  have hcode : codeOf p1 p2 p3 k = ((BitVec.ofBool (p1.getLsbD k)).concat (p2.getLsbD k)).concat (p3.getLsbD k) := rfl
  simp [hcode, BitVec.getElem_concat]

theorem code_ext (h2 : c.getLsbD 2 = d.getLsbD 2) (h1 : c.getLsbD 1 = d.getLsbD 1) (h0 : c.getLsbD 0 = d.getLsbD 0) : c = d :=
  BitVec.eq_of_getLsbD_eq fun i hi =>
    match i, hi with
    | 0, _ => h0
    | 1, _ => h1
    | 2, _ => h2

/-- The code of a block, put together from the planes of its word. -/
theorem codeOf_planes (h : (codes w)[k]? = some c) : codeOf (plane 2 w) (plane 1 w) (plane 0 w) k = c := by
  obtain ⟨h2, h1, h0⟩ := getLsbD_codeOf (p1 := plane 2 w) (p2 := plane 1 w) (p3 := plane 0 w) (k := k)
  exact code_ext (h2.trans (getLsbD_plane h)) (h1.trans (getLsbD_plane h)) (h0.trans (getLsbD_plane h))

/-! The word and its bytes (R217, R219, R220, R224). -/

/-- The codes ACDEC gives are put together from the plain copies. -/
theorem codes_decodeWord (hk : k < 4) :
    (codes (decodeWord b0 b1 b2 b3))[k]? = some (codeOf (highNibble b1) (lowNibble b2) (highNibble b2) k) :=
  match k, hk with
  | 0, _ | 1, _ | 2, _ | 3, _ => rfl

/-- The planes of the word ACDEC gives are the plain copies. -/
theorem planes_decodeWord : plane 2 (decodeWord b0 b1 b2 b3) = highNibble b1 ∧ plane 1 (decodeWord b0 b1 b2 b3) = lowNibble b2 ∧
    plane 0 (decodeWord b0 b1 b2 b3) = highNibble b2 := by
  have hbit : ∀ j, ∀ k < 4, (plane j (decodeWord b0 b1 b2 b3)).getLsbD k =
      (codeOf (highNibble b1) (lowNibble b2) (highNibble b2) k).getLsbD j := fun j k hk => getLsbD_plane (codes_decodeWord hk)
  exact ⟨BitVec.eq_of_getLsbD_eq fun k hk => (hbit 2 k hk).trans getLsbD_codeOf.1,
    BitVec.eq_of_getLsbD_eq fun k hk => (hbit 1 k hk).trans getLsbD_codeOf.2.1,
    BitVec.eq_of_getLsbD_eq fun k hk => (hbit 0 k hk).trans getLsbD_codeOf.2.2⟩

/-- ACDEC gives the word whose planes the plain copies are. -/
theorem decodeWord_eq_iff : decodeWord b0 b1 b2 b3 = w ↔
    (highNibble b1 = plane 2 w ∧ lowNibble b2 = plane 1 w ∧ highNibble b2 = plane 0 w) ∧ b3 = w.user := by
  constructor
  · rintro rfl
    obtain ⟨h2, h1, h0⟩ := planes_decodeWord (b0 := b0) (b1 := b1) (b2 := b2) (b3 := b3)
    exact ⟨⟨h2.symm, h1.symm, h0.symm⟩, rfl⟩
  · rintro ⟨⟨h2, h1, h0⟩, rfl⟩
    simp only [decodeWord, h2, h1, h0]
    rw [codeOf_planes (c := w.c0) rfl, codeOf_planes (c := w.c1) rfl, codeOf_planes (c := w.c2) rfl, codeOf_planes (c := w.c3) rfl]

theorem wordConsistent_iff : wordConsistent b0 b1 b2 = true ↔
    highNibble b0 = ~~~lowNibble b2 ∧ lowNibble b0 = ~~~highNibble b1 ∧ lowNibble b1 = ~~~highNibble b2 := by
  simp [wordConsistent, and_assoc]

/-- The nibbles of the bytes ACENC gives are the planes, inverted and plain. -/
theorem encodeWord_eq_iff_nibbles : encodeWord w = [b0, b1, b2, b3] ↔
    (~~~plane 1 w = highNibble b0 ∧ ~~~plane 2 w = lowNibble b0) ∧ (plane 2 w = highNibble b1 ∧ ~~~plane 0 w = lowNibble b1) ∧
    (plane 0 w = highNibble b2 ∧ plane 1 w = lowNibble b2) ∧ w.user = b3 := by
  simp only [encodeWord, List.cons.injEq, append_eq_iff_nibbles, and_true]

/-- The bytes that encode a word are the well-formed ones that decode to it. -/
theorem encodeWord_eq_iff : encodeWord w = [b0, b1, b2, b3] ↔ wordConsistent b0 b1 b2 = true ∧ decodeWord b0 b1 b2 b3 = w := by
  rw [encodeWord_eq_iff_nibbles, wordConsistent_iff, decodeWord_eq_iff]
  constructor
  · rintro ⟨⟨high0, low0⟩, ⟨high1, low1⟩, ⟨high2, low2⟩, huser⟩
    rw [← high0, ← low0, ← high1, ← low1, ← high2, ← low2]
    exact ⟨⟨rfl, rfl, rfl⟩, ⟨rfl, rfl, rfl⟩, huser.symm⟩
  · rintro ⟨⟨high0, low0, low1⟩, ⟨high1, low2, high2⟩, huser⟩
    rw [high0, low0, low1, high1, low2, high2]
    exact ⟨⟨rfl, rfl⟩, ⟨rfl, rfl⟩, ⟨rfl, rfl⟩, huser.symm⟩

theorem exists_encodeWord (w : AccessWord) : ∃ b0 b1 b2, encodeWord w = [b0, b1, b2, w.user] := ⟨_, _, _, rfl⟩

/-- Settles O57: the bytes of a word are well-formed and decode to it, well-formed bytes are those of the word they decode to, and in a trailer they
stand behind the six bytes of key A. -/
theorem codecLaws : Obligations.CodecLaws := by
  refine ⟨fun w => ?_, fun w w' h => ?_, fun b0 b1 b2 b3 h => encodeWord_eq_iff.2 ⟨h, rfl⟩, fun t hslotA hslotB hA _ => ?_⟩
  · obtain ⟨b0, b1, b2, hw⟩ := exists_encodeWord w
    obtain ⟨hconsistent, hdecode⟩ := encodeWord_eq_iff.1 hw
    exact ⟨b0, b1, b2, w.user, hw, hdecode, hconsistent⟩
  · obtain ⟨b0, b1, b2, hw⟩ := exists_encodeWord w
    exact (encodeWord_eq_iff.1 hw).2.symm.trans (encodeWord_eq_iff.1 (h ▸ hw)).2
  · obtain ⟨⟨slotA, keyA⟩, w, ⟨slotB, keyB⟩⟩ := t
    obtain ⟨b0, b1, b2, hw⟩ := exists_encodeWord w
    cases hslotA
    cases hslotB
    rw [packTrailer, hw, unpackTrailer_append hA, (encodeWord_eq_iff.1 hw).2]

/-! The operands of a request as a word (R76, R91). -/

/-- The codes of a word of operand bytes are the operand bytes' own. -/
theorem codes_toWord (h : [c0, c1, c2, c3][k]? = some v) : (codes (toWord c0 c1 c2 c3 user))[k]? = some (toCode v) := by
  have hcodes : codes (toWord c0 c1 c2 c3 user) = [c0, c1, c2, c3].map toCode := rfl
  rw [hcodes, List.getElem?_map, h, Option.map_some]

theorem getLsbD_toCode (hj : j < 3) : (toCode v).getLsbD j = v.getLsbD j := by
  simp [toCode, hj]

theorem toNat_setWidth_code_le (c : BitVec 3) : (c.setWidth 8).toNat ≤ 7 := by
  rw [BitVec.toNat_setWidth_of_le (by decide)]
  exact Nat.le_of_lt_succ c.isLt

/-- Every word is one of operand bytes in range. -/
theorem exists_toWord (w : AccessWord) : ∃ c0 c1 c2 c3 : Byte,
    (c0.toNat ≤ 7 ∧ c1.toNat ≤ 7 ∧ c2.toNat ≤ 7 ∧ c3.toNat ≤ 7) ∧ toWord c0 c1 c2 c3 w.user = w :=
  ⟨w.c0.setWidth 8, w.c1.setWidth 8, w.c2.setWidth 8, w.c3.setWidth 8,
    ⟨toNat_setWidth_code_le _, toNat_setWidth_code_le _, toNat_setWidth_code_le _, toNat_setWidth_code_le _⟩, by simp [toWord, toCode]⟩

/-! ACENC, ACDEC and ACCHK (R218 to R220). -/

theorem exec_acenc_eq_iff {bytes : List Byte} (hr : s.Ready) (hi : (Instr.acenc c0 c1 c2 c3 user).InRange) :
    exec (.acenc c0 c1 c2 c3 user) s = .next { s with reply := .bytes bytes } ↔ encodeWord (toWord c0 c1 c2 c3 user) = bytes := by
  rw [exec_of_finish (i := .acenc c0 c1 c2 c3 user) (fun _ => rfl) hr hi]
  simp

/-- Settles O52: bit `k` of a nibble is bit `k` of a plane, inverted or plain, and so a bit of block `k`'s code. -/
theorem encodesAccessWord : Obligations.EncodesAccessWord := by
  intro s c0 c1 c2 c3 user hr h0 h1 h2 h3
  obtain ⟨b0, b1, b2, hw⟩ := exists_encodeWord (toWord c0 c1 c2 c3 user)
  refine ⟨b0, b1, b2, (exec_acenc_eq_iff hr ⟨h0, h1, h2, h3⟩).2 hw, fun k c hc => ?_⟩
  have hk : k < 4 := (List.getElem?_eq_some_iff.1 hc).1
  have plain : ∀ j < 3, (plane j (toWord c0 c1 c2 c3 user)).getLsbD k = c.getLsbD j := fun j hj =>
    (getLsbD_plane (codes_toWord hc)).trans (getLsbD_toCode hj)
  have inverted : ∀ j < 3, (~~~plane j (toWord c0 c1 c2 c3 user)).getLsbD k = !c.getLsbD j := fun j hj => by
    rw [eq_not_iff_getLsbD.1 rfl k hk, plain j hj]
  obtain ⟨⟨high0, low0⟩, ⟨high1, low1⟩, ⟨high2, low2⟩, -⟩ := encodeWord_eq_iff_nibbles.1 hw
  simp only [← getLsbD_highNibble hk, ← getLsbD_lowNibble hk, ← high0, ← low0, ← high1, ← low1, ← high2, ← low2]
  exact ⟨inverted 1 (by decide), inverted 2 (by decide), plain 2 (by decide), inverted 0 (by decide), plain 0 (by decide), plain 1 (by decide)⟩

/-- Settles O53: the code of block `k` is put together from bit `k` of the three plain copies. -/
theorem decodesAccessWord : Obligations.DecodesAccessWord := by
  intro s b0 b1 b2 b3 hr
  refine ⟨rfl, decodeWord b0 b1 b2 b3, exec_of_finish (fun _ => rfl) hr trivial, rfl, fun k c hc => ?_⟩
  have hk : k < 4 := (List.getElem?_eq_some_iff.1 hc).1
  obtain rfl := Option.some.inj ((codes_decodeWord hk).symm.trans hc)
  rw [← getLsbD_highNibble hk, ← getLsbD_highNibble hk, ← getLsbD_lowNibble hk]
  exact getLsbD_codeOf

theorem wordConsistent_iff_getLsbD : wordConsistent b0 b1 b2 = true ↔ ∀ k, k < 4 →
    b0.getLsbD (k + 4) = !b2.getLsbD k ∧ b0.getLsbD k = !b1.getLsbD (k + 4) ∧ b1.getLsbD k = !b2.getLsbD (k + 4) := by
  simp only [wordConsistent_iff, eq_not_iff_getLsbD, ← forall_and]
  refine forall₂_congr fun k hk => ?_
  simp only [getLsbD_highNibble hk, getLsbD_lowNibble hk]

/-- Well-formed bytes are those ACENC gives for some codes in range and the same user byte. -/
theorem wordConsistent_iff_exec_acenc (hr : s.Ready) : wordConsistent b0 b1 b2 = true ↔ ∃ c0 c1 c2 c3 : Byte,
    c0.toNat ≤ 7 ∧ c1.toNat ≤ 7 ∧ c2.toNat ≤ 7 ∧ c3.toNat ≤ 7 ∧
      exec (.acenc c0 c1 c2 c3 b3) s = .next { s with reply := .bytes [b0, b1, b2, b3] } := by
  constructor
  · intro h
    obtain ⟨c0, c1, c2, c3, hcodes, hw⟩ := exists_toWord (decodeWord b0 b1 b2 b3)
    obtain ⟨h0, h1, h2, h3⟩ := id hcodes
    exact ⟨c0, c1, c2, c3, h0, h1, h2, h3, (exec_acenc_eq_iff hr hcodes).2 (encodeWord_eq_iff.2 ⟨h, hw.symm⟩)⟩
  · rintro ⟨c0, c1, c2, c3, h0, h1, h2, h3, h⟩
    exact (encodeWord_eq_iff.1 ((exec_acenc_eq_iff hr ⟨h0, h1, h2, h3⟩).1 h)).1

/-- Settles O54: ACCHK compares the nibbles, so each of their bits, and what it accepts is encoded by the word it decodes to. -/
theorem checksAccessBytes : Obligations.ChecksAccessBytes := fun _ b0 b1 b2 _ hr =>
  ⟨wordConsistent b0 b1 b2, exec_of_finish (fun _ => rfl) hr trivial, wordConsistent_iff_getLsbD, wordConsistent_iff_exec_acenc hr⟩

/-! ACSETB (R221). -/

/-- The code of a value 0 or 1 is its one bit. -/
theorem getLsbD_toCode_of_le_one (hv : v.toNat ≤ 1) : (toCode v).getLsbD j = (decide (j = 0) && v.getLsbD 0) := by
  have hbit : ∀ b : Byte, b.toNat ≤ 1 → b = 0#8 ∨ b = 1#8 := by decide
  obtain rfl | rfl := hbit v hv
  · simp [toCode]
  · simp [toCode]

theorem getLsbD_setCodeBit (hv : value.toNat ≤ 1) (hj : j < 3) :
    (setCodeBit c bitIndex value).getLsbD j = if j = 3 - bitIndex.toNat then value.getLsbD 0 else c.getLsbD j := by
  simp only [setCodeBit, BitVec.getLsbD_or, BitVec.getLsbD_and, BitVec.getLsbD_not, BitVec.getLsbD_shiftLeft, BitVec.getLsbD_one,
    getLsbD_toCode_of_le_one hv]
  generalize 3 - bitIndex.toNat = n
  obtain h | rfl | h := Nat.lt_trichotomy j n
  · simp [hj, h, h.ne]
  · simp [hj]
  · simp [hj, h.ne', h.le.not_gt, Nat.sub_ne_zero_of_lt h]

/-- Of the four codes the block's own is changed. -/
theorem codes_setWordBit (hb : block.toNat ≤ 3) :
    codes (setWordBit w block bitIndex value) = (codes w).modify block.toNat (setCodeBit · bitIndex value) := by
  obtain h | h | h | h : block.toNat = 0 ∨ block.toNat = 1 ∨ block.toNat = 2 ∨ block.toNat = 3 := by omega
  all_goals
    rw [setWordBit, h]
    rfl

theorem user_setWordBit : (setWordBit w block bitIndex value).user = w.user := by
  unfold setWordBit
  split <;> rfl

/-- Settles O55: of the word of the operands the block's code is changed, and of that code the one bit. -/
theorem setsAccessBit : Obligations.SetsAccessBit := by
  intro s c0 c1 c2 c3 user block bitIndex value hr
  refine ⟨rfl, exec_refuses hr, fun hi => ⟨_, exec_of_finish (fun _ => rfl) hr hi, user_setWordBit, fun k c d hc hd j hj => ?_⟩⟩
  obtain ⟨-, hblock, -, hvalue⟩ := hi
  have hcode : (codes (setWordBit (toWord c0 c1 c2 c3 user) block bitIndex value))[k]? =
      some (if block.toNat = k then setCodeBit (toCode c) bitIndex value else toCode c) := by
    rw [codes_setWordBit hblock, List.getElem?_modify, codes_toWord hc]
    rfl
  obtain rfl := Option.some.inj (hcode.symm.trans hd)
  by_cases hk : block.toNat = k
  · rw [if_pos hk, getLsbD_setCodeBit hvalue hj, getLsbD_toCode hj]
    simp only [hk, true_and]
  · rw [if_neg hk, getLsbD_toCode hj, if_neg fun h => hk h.1.symm]

end Sys2Proof.Machine
end

/-! SUPPORT. What one step can do at most (R240, R241, R255, R259, R265, R281): it answers a next state, it keeps the configuration and what stands
behind the port, and an operation makes no more transactions than its row of R255's table. -/
section
namespace Sys2Proof.Machine

variable {s t u : State} {i : Instr} {p q r : Port} {A : List RegAddr} {n : Nat}

/-! Idle and busy (R259, R265). -/

/-- Idle, with nothing presented, the step waits (R265; log 10). -/
theorem step_of_empty_inbox (hp : s.pc = .idle) (hi : s.inbox = []) : step s = .next s := by
  simp [step, fetch, hp, hi]

/-- Settles O7: the reset state has an idle sequencer and nothing presented, queued or sent, and such a state waits. -/
theorem resetWaitsForTheHost : Obligations.ResetWaitsForTheHost :=
  ⟨rfl, rfl, rfl, rfl, rfl, fun _ => step_of_empty_inbox⟩

/-- Settles O8: the chip lists no cell, so each register reads as `chipRest` gives it. -/
theorem resetChipHoldsTheFamilyValues : Obligations.ResetChipHoldsTheFamilyValues := by
  unfold Obligations.ResetChipHoldsTheFamilyValues
  decide

theorem State.gate_of_busy (hp : s.pc ≠ .idle) : s.gate i = some .busy := if_pos hp

/-- Inside an operation, a request whose presenter did not wait is taken and refused (R259; log 10). -/
theorem step_of_intruder {r : Request} {rest : List Request} (hp : s.pc ≠ .idle) (hi : s.inbox = r :: rest) (hw : r.waits = false) :
    step s = .next ((s.withInbox rest).refuse .busy) := by
  cases hpc : s.pc with
  | idle => exact absurd hpc hp
  | run position callers => simp [step, fetch, hpc, hi, hw]

/-- Settles O9: the gate stops every operation of a busy controller, and a refusal changes the reply alone. -/
theorem busyRequestsAreRefused : Obligations.BusyRequestsAreRefused := by
  refine fun s hp => ⟨fun i => ?_, fun r rest => step_of_intruder hp⟩
  obtain ⟨body, hb⟩ := exec_serves i
  rw [hb, State.serve_stopped s (State.gate_of_busy hp)]
  rfl

theorem exec_answers (i : Instr) (s : State) : ∃ t, exec i s = .next t := by
  obtain ⟨body, hb⟩ := exec_serves i
  exact ⟨_, hb s⟩

/-- Settles O11: an operation serves its body, and each of the four things a step finds to do gives a next state. -/
theorem everyStepAnswersANextState : Obligations.EveryStepAnswersANextState := by
  refine ⟨fun s => ?_, exec_answers⟩
  unfold step
  cases fetch s with
  | wait => exact ⟨s, rfl⟩
  | attempt => exact ⟨_, rfl⟩
  | refuse cause s' => exact ⟨_, rfl⟩
  | run i s' => exact exec_answers i s'

/-! What an operation does to the port. -/

/-- An operation makes accesses, at most as many as R255's table gives it, and after them at most a deadline draw; or it is the reset pulse, with
one draw for the registers it loses (R135, R164). -/
theorem exec_port (h : exec i s = .next t) :
    (∃ A u, Via A (mostTransactions s.cfg i) s u ∧ (t.port = u.port ∨ t.port = u.port.afterDeadline)) ∨
      t.port = { s.port.afterResetPulse with draws := s.port.draws + 1 } := by
  obtain ⟨cause, rfl⟩ | hg := exec_refused_or_open h
  · exact .inl ⟨[], s, (Via.refl s).mono (Nat.zero_le _), .inl rfl⟩
  by_cases hr : i = .rstp
  · subst hr
    obtain rfl := exec_open rfl hg h
    exact .inr rfl
  by_cases hp : i = .poll
  · subst hp
    obtain rfl := exec_open rfl hg h
    obtain ⟨u, hv, -, -, hport⟩ := pollAttempt_via s
    exact .inl ⟨_, u, hv, hport⟩
  · obtain ⟨A, u, hu, hv⟩ := exec_via s hr hp
    cases hu.symm.trans h
    exact .inl ⟨A, t, hv, .inl rfl⟩

/-! The environment behind the port (logs 15, 17). -/

/-- Both ports have the same kind of environment behind them and the same card, whatever state it is in. -/
structure Port.SameEnvironment (p q : Port) : Prop where
  kind : q.kind = p.kind
  present : q.card.present = p.card.present
  uid : q.card.uid = p.card.uid
  atqa : q.card.atqa = p.card.atqa
  sak : q.card.sak = p.card.sak
  silent : q.card.silent = p.card.silent

theorem Port.SameEnvironment.trans (h : p.SameEnvironment q) (k : q.SameEnvironment r) : p.SameEnvironment r :=
  ⟨k.kind.trans h.kind, k.present.trans h.present, k.uid.trans h.uid, k.atqa.trans h.atqa, k.sak.trans h.sak, k.silent.trans h.silent⟩

theorem Port.SameEnvironment.of_card (hk : q.kind = p.kind) (hc : q.card = p.card) : p.SameEnvironment q :=
  ⟨hk, congrArg Card.present hc, congrArg Card.uid hc, congrArg Card.atqa hc, congrArg Card.sak hc, congrArg Card.silent hc⟩

/-- Only a write reaches the card, and what it can do to the card leaves the card's identity (R67). -/
theorem Port.access_sameEnvironment (cfg : Config) (p : Port) (x : Access) : p.SameEnvironment (p.access cfg x) := by
  cases x with
  | read a => exact .of_card rfl rfl
  | write a v =>
    have hm := afterWrite_moves cfg p.trace.length a v p.chip p.card
    exact ⟨rfl, hm.present, hm.uid, hm.atqa, hm.sak, hm.silent⟩

theorem Port.run_sameEnvironment (cfg : Config) (p : Port) (xs : List Access) : p.SameEnvironment (p.run cfg xs) := by
  induction xs generalizing p with
  | nil => exact .of_card rfl rfl
  | cons x xs ih => exact (p.access_sameEnvironment cfg x).trans (ih _)

theorem Via.sameEnvironment (h : Via A n s t) : s.port.SameEnvironment t.port := by
  obtain ⟨-, -, accesses, -, -, hport⟩ := h
  rw [hport]
  exact s.port.run_sameEnvironment s.cfg accesses

theorem Port.afterDeadline_sameEnvironment (p : Port) : p.SameEnvironment p.afterDeadline := .of_card rfl rfl

/-- A deadline draw after accesses reaches nothing behind the port. -/
theorem Via.sameEnvironment_of_deadline (h : Via A n s u) (hp : p = u.port ∨ p = u.port.afterDeadline) : s.port.SameEnvironment p := by
  obtain rfl | rfl := hp
  · exact h.sameEnvironment
  · exact h.sameEnvironment.trans u.port.afterDeadline_sameEnvironment

theorem exec_sameEnvironment (h : exec i s = .next t) : s.port.SameEnvironment t.port := by
  obtain ⟨A, u, hv, hport⟩ | hport := exec_port h
  · exact hv.sameEnvironment_of_deadline hport
  · rw [hport]
    exact .of_card rfl rfl

theorem step_sameEnvironment (h : step s = .next t) : t.cfg = s.cfg ∧ s.port.SameEnvironment t.port := by
  obtain rfl | ⟨-, rfl⟩ | ⟨r, rest, -, ⟨cause, rfl⟩ | ⟨-, i, -, hx⟩⟩ := step_cases h
  · exact ⟨rfl, .of_card rfl rfl⟩
  · obtain ⟨u, hv, hcfg, -, hport⟩ := pollAttempt_via s
    exact ⟨hcfg.trans hv.cfg_eq, hv.sameEnvironment_of_deadline hport⟩
  · exact ⟨rfl, .of_card rfl rfl⟩
  · exact ⟨(exec_static hx).1, exec_sameEnvironment (s := s.withInbox rest) hx⟩

/-- Settles O15: accesses, a deadline draw and the reset pulse keep the kind of environment and the card's identity. -/
theorem stepKeepsTheConfiguration : Obligations.StepKeepsTheConfiguration := by
  intro s t h
  obtain ⟨hcfg, hkind, hpresent, huid, hatqa, hsak, hsilent⟩ := step_sameEnvironment h
  exact ⟨hcfg, hkind, hpresent, huid, hatqa, hsak, hsilent⟩

/-! The end of an operation, and its transactions (R164, R255). -/

/-- An operation makes at most the transactions of R255's table; the events of the reset line are none. -/
theorem exec_transactions (h : exec i s = .next t) :
    ∃ events, t.port.trace = s.port.trace ++ events ∧ transactions events ≤ mostTransactions s.cfg i := by
  obtain ⟨A, u, hv, hport⟩ | hport := exec_port h
  · obtain ⟨events, htrace, hn, -⟩ := hv.trace
    have hu : t.port.trace = u.port.trace := hport.elim (congrArg Port.trace) (congrArg Port.trace)
    exact ⟨events, hu.trans htrace, hn⟩
  · exact ⟨[.line .low, .line .high], congrArg Port.trace hport, Nat.zero_le _⟩

/-- An operation other than POLL that the gate lets through ends in its step (R24, R255). -/
theorem exec_pc_idle (hp : i ≠ .poll) (hg : s.gate i = none) (h : exec i s = .next t) : t.pc = .idle := by
  cases i with
  | poll => exact absurd rfl hp
  | trunpk bytes =>
    obtain rfl := exec_open rfl hg h
    cases unpackTrailer bytes with
    | some trailer => rfl
    | none => exact ((State.gate_eq_none s).1 hg).1
  | _ =>
    obtain rfl := exec_open rfl hg h
    rfl

theorem Port.deadline_congr (hs : q.deadlines = p.deadlines) (hn : q.draws = p.draws) : q.deadline = p.deadline := by
  rw [Port.deadline, Port.deadline, hs, hn]

/-- How an attempt of POLL that began at port `p` ends in `t`: with an identifier; or its one deadline draw, the last draw made, answers true and POLL
ends with "no card"; or that draw answers false and POLL goes on (R164). -/
def AttemptEnds (p : Port) (t : State) : Prop :=
  (t.pc = .idle ∧ ∃ id, t.reply = .identifier id) ∨
  (t.pc = .idle ∧ t.reply = .noCard ∧ { p with draws := t.port.draws - 1 }.deadline = true) ∨
  (t.pc = .poll ∧ t.reply = .pending ∧ { p with draws := t.port.draws - 1 }.deadline = false)

/-- Accesses draw no deadline, so the one drawn after them is the next of the script or of the free values (R164, R256). -/
theorem Via.retryOrEnd_attemptEnds (h : Via A n s u) : AttemptEnds s.port (retryOrEnd u) := by
  have hdraw : ({ s.port with draws := u.port.draws } : Port).deadline = u.port.deadline :=
    Port.deadline_congr h.static.1.symm rfl
  rw [retryOrEnd_eq_fields]
  cases hd : u.port.deadline with
  | true => exact .inr (.inl ⟨rfl, rfl, hdraw.trans hd⟩)
  | false => exact .inr (.inr ⟨rfl, rfl, hdraw.trans hd⟩)

theorem pollAttempt_attemptEnds (s : State) : AttemptEnds s.port (pollAttempt s) := by
  have hreq := requestPresence_moves s
  by_cases hs : (requestPresence s).regs.status = .ok
  · by_cases hu : (resolveUid (requestPresence s)).regs.status = .ok
    · rw [pollAttempt_of_uid hs hu]
      exact .inl ⟨rfl, _, rfl⟩
    · rw [pollAttempt_of_no_uid hs hu]
      exact (hreq.trans (resolveUid_moves _)).1.retryOrEnd_attemptEnds
  · rw [pollAttempt_of_no_tag hs]
    exact hreq.1.retryOrEnd_attemptEnds

/-- Settles O19: an operation in range passes the gate, ends in its step unless it is POLL, and POLL ends or goes on by its attempt. -/
theorem operationsAreBounded : Obligations.OperationsAreBounded := by
  intro i s hr hi
  obtain ⟨t, h⟩ := exec_answers i s
  refine ⟨t, h, exec_transactions h, fun hp => exec_pc_idle hp (hr.gate hi) h, ?_⟩
  rintro rfl
  obtain rfl := exec_open rfl (hr.gate hi) h
  exact pollAttempt_attemptEnds s

end Sys2Proof.Machine
end

/-! SUPPORT. Which results each operation can end with (R239): those of its exchange, and those of the tests it makes on the answer (R243). -/
section
namespace Sys2Proof.Machine

variable {s t : State} {cfg : Config} {cmd : Byte} {out frame id key data : List Byte} {slot : Slot} {block : Byte} {withTimer : Bool}

/-! The exchange (R146). -/

/-- A transcript ends with one of R239's pairs, NO_TAG under TRANSCEIVE only: no other command enables the timer bit. -/
theorem XcvTranscript.result {events : List Event} {status : Status} {cause : Cause} {bytes : List Byte} {bitLen : Int}
    (h : XcvTranscript cfg cmd out events status cause bytes bitLen) : XcvResult (decide (cmd = cfg.cmdTransceive)) status cause := by
  have htimer : cmd ≠ cfg.cmdTransceive → status ≠ .noTag := fun hT =>
    h.ne_noTag (if hA : cmd = cfg.cmdAuthent then .inl (hA ▸ enableMask_authent cfg) else .inr (enableMask_other hA hT))
  obtain ⟨irq, lvl, frm, samples, last, frm', tail, -, -, hend⟩ := h
  obtain ⟨-, -, hs, hc, -⟩ | ⟨-, -, e, ⟨-, -, hs, hc, -⟩ | ⟨-, houtcome, -⟩⟩ := hend
  · exact .inr (.inr (.inl ⟨hs, hc⟩))
  · exact .inr (.inl ⟨hs, hc⟩)
  split at houtcome
  · obtain ⟨hs, hc⟩ := houtcome
    exact .inr (.inr (.inr ⟨decide_eq_true (not_not.1 fun hT => htimer hT hs), hs, hc⟩))
  · exact .inl houtcome

theorem transceive_result (cmd : Byte) (out : List Byte) (s : State) :
    XcvResult (decide (cmd = s.cfg.cmdTransceive)) (transceive cmd out s).regs.status (transceive cmd out s).regs.cause := by
  obtain ⟨⟨events, -, hscript⟩, -⟩ := transceive_spec s cmd out
  exact hscript.result

theorem transceive_cmdTransceive_result (out : List Byte) (s : State) :
    XcvResult true (transceive s.cfg.cmdTransceive out s).regs.status (transceive s.cfg.cmdTransceive out s).regs.cause := by
  have h := transceive_result s.cfg.cmdTransceive out s
  rwa [decide_eq_true rfl] at h

theorem exchangeWithCrc_result (frame : List Byte) (s : State) :
    XcvResult true (exchangeWithCrc frame s).regs.status (exchangeWithCrc frame s).regs.cause :=
  transceive_cmdTransceive_result _ (computeCrc frame s)

/-- AUTHENT makes no NO_TAG: its code is not TRANSCEIVE's (R92, R148). -/
theorem authenticateCommand_result (hv : s.cfg.valid = true) (out : List Byte) :
    XcvResult false (authenticateCommand out s).regs.status (authenticateCommand out s).regs.cause := by
  rw [authenticateCommand_eq, ← decide_eq_false (Config.valid_commands hv).1]
  exact transceive_result _ out s

/-- A test on the answer leaves the result or gives its own (R243). -/
theorem XcvResult.demoteUnless (h : XcvResult withTimer s.regs.status s.regs.cause) (test : Bool) (st : Status) (ca : Cause) :
    XcvResult withTimer (s.demoteUnless test st ca).regs.status (s.demoteUnless test st ca).regs.cause ∨
      ((s.demoteUnless test st ca).regs.status = st ∧ (s.demoteUnless test st ca).regs.cause = ca) := by
  unfold State.demoteUnless
  split
  · exact .inr ⟨rfl, rfl⟩
  · exact .inl h

/-! The operations. -/

theorem requestPresence_result (s : State) :
    XcvResult true (requestPresence s).regs.status (requestPresence s).regs.cause ∨
      ((requestPresence s).regs.status = .noTag ∧ (requestPresence s).regs.cause = .lengthMismatch) := by
  rw [requestPresence_eq_demoteUnless]
  exact (transceive_cmdTransceive_result _ (s.write s.cfg.aBitFraming s.cfg.framingShort)).demoteUnless _ _ _

/-- ACOLL makes two tests, the second only on what is still OK (R162). -/
theorem resolveUid_result (s : State) :
    XcvResult true (resolveUid s).regs.status (resolveUid s).regs.cause ∨
      ((resolveUid s).regs.status = .error ∧ (resolveUid s).regs.cause = .lengthMismatch) ∨
      ((resolveUid s).regs.status = .error ∧ (resolveUid s).regs.cause = .checksumMismatch) := by
  have hx : XcvResult true (uidExchange s).regs.status (uidExchange s).regs.cause :=
    transceive_cmdTransceive_result _ (s.write s.cfg.aBitFraming s.cfg.framingByte)
  rw [resolveUid_eq_demoteUnless]
  obtain hcount | hcount := hx.demoteUnless ((uidExchange s).rx.length == uidRespBytes) .error .lengthMismatch
  · exact (XcvResult.demoteUnless (s := uidCounted s) hcount _ _ _).imp_right .inr
  · rw [State.demoteUnless_not_ok (s := uidCounted s) (hcount.1 ▸ nofun)]
    exact .inr (.inl hcount)

theorem selectCard_result (id : List Byte) (s : State) :
    XcvResult true (selectCard id s).regs.status (selectCard id s).regs.cause ∨
      ((selectCard id s).regs.status = .ok ∧ (selectCard id s).regs.cause = .lengthMismatch) := by
  rw [selectCard_eq]
  exact (exchangeWithCrc_result _ s).demoteUnless _ _ _

/-- An acknowledge other than 0 is that of an answer of 24 bits, with status OK and no cause (R176). -/
theorem selectCard_of_ack (h : selectAck (selectCard id s) ≠ 0x00#8) :
    (selectCard id s).regs.status = .ok ∧ (selectCard id s).regs.cause = .none := by
  obtain ⟨ca, hraise, -, hkept⟩ := selectCard_eq_raise id s
  rw [hraise] at h ⊢
  obtain ⟨hs, hb⟩ : (selectExchange id s).regs.status = .ok ∧ (selectExchange id s).regs.bitLen.toInt = 24 :=
    not_not.1 fun hn => h (selectAck_eq_zero fun hs hb => hn ⟨hs, hb⟩)
  exact ⟨hs, (hkept (.inr hb)).trans (exchangeWithCrc_of_ok hs).1⟩

theorem authenticate_result (hv : s.cfg.valid = true) :
    XcvResult false (authenticate id slot block key s).regs.status (authenticate id slot block key s).regs.cause ∨
      ((authenticate id slot block key s).regs.status = .error ∧ (authenticate id slot block key s).regs.cause = .notAuthenticated) := by
  have hx := authenticateCommand_result hv (authFrame s.cfg slot block key (id.take 4))
  rw [authenticateCommand_eq] at hx
  rw [authenticate_eq_demoteUnless]
  exact XcvResult.demoteUnless (s := (authExchange id slot block key s).sampleStatus2) hx _ _ _

/-- AUTHSEC ends as AUTH, or not authenticated where SELECT gives no acknowledge (R181). -/
theorem authenticateSector_result (hv : s.cfg.valid = true) (hid : id.length = 5) :
    XcvResult false (authenticateSector id slot block key s).regs.status (authenticateSector id slot block key s).regs.cause ∨
      ((authenticateSector id slot block key s).regs.status = .error ∧
        (authenticateSector id slot block key s).regs.cause = .notAuthenticated) := by
  by_cases hack : selectAck (selectCard id s) = 0x00#8
  · rw [authenticateSector_of_no_ack hack]
    exact .inr ⟨rfl, rfl⟩
  · rw [authenticateSector_of_ack hack]
    exact authenticate_result ((congrArg Config.valid (selectCard_moves s hid).cfg_eq).trans hv)

theorem readBlock_result (block : Byte) (s : State) :
    XcvResult true (readBlock block s).regs.status (readBlock block s).regs.cause ∨
      ((readBlock block s).regs.status = .ok ∧ (readBlock block s).regs.cause = .lengthMismatch) := by
  rw [readBlock_eq_demoteUnless]
  exact XcvResult.demoteUnless (s := readExchange block s) (exchangeWithCrc_result _ s) _ _ _

/-- A block RDBLK tells has 16 bytes, and its exchange ended OK, which no test has changed (R191). -/
theorem readBlock_of_block {bytes : List Byte} (h : blockRead (readBlock block s) = some bytes) :
    bytes.length = 16 ∧ (readBlock block s).regs.status = .ok ∧ (readBlock block s).regs.cause = .none := by
  obtain ⟨ca, hread, -, hkept⟩ := readBlock_eq_raise block s
  obtain ⟨⟨hs, hl⟩, hbytes⟩ := Option.ite_none_right_eq_some.1 h
  obtain rfl := Option.some.inj hbytes
  refine ⟨hl, hs, ?_⟩
  rw [hread] at hs hl ⊢
  exact (hkept (.inr hl)).trans (readExchange_cause hs)

theorem failWrite_result (h : XcvResult true s.regs.status s.regs.cause) : (failWrite s).regs.status = .error ∧
    ((failWrite s).regs.cause = .chipError ∨ (failWrite s).regs.cause = .exhausted ∨ (failWrite s).regs.cause = .timer ∨
      (failWrite s).regs.cause = .ackMismatch) := by
  refine ⟨rfl, ?_⟩
  have hcause : (failWrite s).regs.cause = if s.regs.status = .ok then .ackMismatch else s.regs.cause := rfl
  rw [hcause]
  obtain ⟨hs, -⟩ | ⟨hs, hc⟩ | ⟨hs, hc⟩ | ⟨-, hs, hc⟩ := h
  all_goals simp [*]

/-- WRBLK ends OK with its second acknowledge, and fails at the first exchange that is not acknowledged (R192). -/
theorem writeBlock_result (block : Byte) (data : List Byte) (s : State) :
    ((writeBlock block data s).regs.status = .ok ∧ (writeBlock block data s).regs.cause = .none) ∨
      ((writeBlock block data s).regs.status = .error ∧ ((writeBlock block data s).regs.cause = .chipError ∨
        (writeBlock block data s).regs.cause = .exhausted ∨ (writeBlock block data s).regs.cause = .timer ∨
        (writeBlock block data s).regs.cause = .ackMismatch)) := by
  by_cases hack : (writeExchange block s).isAcked = true
  · rw [writeBlock_of_acked hack]
    split
    · rename_i hdata
      have hs := ((State.isAcked_iff _).1 hdata).1
      exact .inl ⟨hs, (exchangeWithCrc_of_ok hs).1⟩
    · exact .inr (failWrite_result (exchangeWithCrc_result _ _))
  · rw [writeBlock_of_not_acked hack]
    exact .inr (failWrite_result (exchangeWithCrc_result _ _))

/-- A block contributes 16 bytes to a sector read, or none (R194). -/
theorem blockRead_getD_length (s : State) : ((blockRead s).getD []).length = 0 ∨ ((blockRead s).getD []).length = 16 := by
  unfold blockRead
  split
  · rename_i h
    exact .inr h.2
  · exact .inl rfl

theorem readSector_length (id : List Byte) (slot : Slot) (base : Byte) (key : List Byte) (s : State) :
    (readSector id slot base key s).1.length ∈ [0, 16, 32, 48] := by
  rw [readSector_eq]
  simp only
  split
  · rw [readBlocks_three]
    simp only [List.length_append]
    generalize authenticateSector id slot (base + 3#8) key s = t
    have h₀ := blockRead_getD_length (readBlock base t)
    have h₁ := blockRead_getD_length (readBlock (base + 1#8) (readBlock base t))
    have h₂ := blockRead_getD_length (readBlock (base + 2#8) (readBlock (base + 1#8) (readBlock base t)))
    simp only [List.mem_cons, List.not_mem_nil, or_false]
    omega
  · simp

/-! The card frames as requests (log 11). -/

theorem sendFrame_result (op : Instr) (framing : Byte) (frame : List Byte) (s : State) :
    (∃ bytes bl, (sendFrame op framing frame s).reply = .transceive (sendFrame op framing frame s).regs.status bytes bl) ∧
      XcvResult true (sendFrame op framing frame s).regs.status (sendFrame op framing frame s).regs.cause := by
  rw [sendFrame_eq]
  exact ⟨⟨_, _, rfl⟩, transceive_cmdTransceive_result frame (s.write s.cfg.aBitFraming framing)⟩

theorem sendFrameWithCrc_result (op : Instr) (frame : List Byte) (s : State) :
    (∃ bytes bl, (sendFrameWithCrc op frame s).reply = .transceive (sendFrameWithCrc op frame s).regs.status bytes bl) ∧
      XcvResult true (sendFrameWithCrc op frame s).regs.status (sendFrameWithCrc op frame s).regs.cause := by
  rw [sendFrameWithCrc_eq]
  exact ⟨⟨_, _, rfl⟩, exchangeWithCrc_result frame s⟩

theorem sendAuthFrame_result (op : Instr) (hv : s.cfg.valid = true) (frame : List Byte) :
    (sendAuthFrame op frame s).reply = .status (sendAuthFrame op frame s).regs.status ∧
      XcvResult false (sendAuthFrame op frame s).regs.status (sendAuthFrame op frame s).regs.cause := by
  rw [sendAuthFrame_eq]
  exact ⟨rfl, authenticateCommand_result hv frame⟩

/-! Every operation. -/

theorem identifierReply_cases (raw : List Byte) :
    identifierReply raw = .identifier raw ∨ identifierReply raw = .fail .badLength ∨ identifierReply raw = .fail .checksumMismatch := by
  unfold identifierReply
  split
  · exact .inl rfl
  · rename_i cause _
    cases cause with
    | badLength => exact .inr (.inl rfl)
    | checksumMismatch => exact .inr (.inr rfl)

/-- RDBLK tells a block with an OK that has no cause, or that it is absent (R191). -/
theorem exec_rdblk_tableAllows (hr : s.Ready) (h : exec (.rdblk block) s = .next t) : TableAllows s.cfg (.rdblk block) t := by
  obtain rfl := Host.Outcome.next.inj ((exec_rdblk hr).symm.trans h)
  simp only [TableAllows, State.finish_reply, State.finish_regs, blockReply]
  cases hb : blockRead (readBlock block s) with
  | some bytes => exact .inl ⟨bytes, rfl, readBlock_of_block hb⟩
  | none => exact .inr ⟨rfl, readBlock_result block s⟩

/-- Settles O20: each operation in range runs its body, and ends with a result of its exchange or of its own tests. -/
theorem resultsAreThoseOfTheTable : Obligations.ResultsAreThoseOfTheTable := by
  intro i s t hr hi h hpc
  have hg := hr.gate hi
  have hv := hr.2
  cases i
  case rdblk => exact exec_rdblk_tableAllows hr h
  all_goals obtain rfl := exec_open rfl hg h
  case wrreg | setb | clrb | rstp | stopc | idle | calccrc | transceive | authent => rfl
  all_goals simp only [TableAllows, State.finish_reply, State.finish_regs, true_and]
  case rdreg | acdec | acsetb | acchk => exact ⟨_, rfl⟩
  case xcv cmd out => exact ⟨⟨_, _, rfl⟩, transceive_result cmd out s⟩
  case authcmd out => exact authenticateCommand_result hv out
  case reqp => exact requestPresence_result s
  case acoll => exact ⟨⟨_, rfl⟩, resolveUid_result s⟩
  case uidchk raw => exact identifierReply_cases raw
  case poll =>
    obtain ⟨-, hid⟩ | ⟨-, hno, -⟩ | ⟨hpoll, -⟩ := pollAttempt_attemptEnds s
    · exact .inl hid
    · exact .inr hno
    · cases hpc.symm.trans hpoll
  case select id => exact ⟨⟨_, rfl, selectCard_of_ack⟩, selectCard_result id s⟩
  case auth id slot block key => exact authenticate_result hv
  case authsec id slot block key => exact authenticateSector_result hv (IdentifierOk.length_eq hi.1)
  case wrblk block data => exact writeBlock_result block data s
  case rdsec id slot base key => exact ⟨_, rfl, readSector_length id (toSlot slot) base key s⟩
  case crc bytes => exact ⟨_, _, rfl⟩
  case acenc => exact ⟨_, rfl, rfl⟩
  case trpack keyA c0 c1 c2 c3 user keyB =>
    obtain ⟨hA, -, hB⟩ := hi
    exact ⟨_, rfl, by simp [packTrailer, encodeWord, hA, hB]⟩
  case trunpk bytes =>
    obtain ⟨trailer, ht⟩ := unpackTrailer_isSome hi
    exact ⟨trailer, by simp only [ht, State.finish_reply]⟩
  case request | anticollision => exact sendFrame_result _ _ _ s
  case selectCard | read | write => exact sendFrameWithCrc_result _ _ s
  case authA | authB => exact sendAuthFrame_result _ hv _

end Sys2Proof.Machine
end
